-- ==== Sys2Proof/Word.lean ====
section
/-! DEFINITION. The word types of OVGE (00_scope.md R11, 30_encoding.md R102): a command word of 40 bits and its two
fields, the register widths the spec names, and the one reserved index. -/

namespace Sys2Proof

/-- A byte of the voice file or of the wavetable as the host loads it (20_memory.md R70). -/
abbrev Byte := BitVec 8

/-- A command word `CMD[39:0]` (30_encoding.md R102). -/
abbrev Command := BitVec 40

/-- The opcode field `OP = CMD[39:32]`. -/
abbrev Opcode := BitVec 8

/-- The argument field `ARG = CMD[31:0]`. -/
abbrev Arg := BitVec 32

/-- A segment index or the gap token, an `s32` (10_state.md R24, R25). -/
abbrev SegIndex := BitVec 32

/-- A word address into the wavetable memory, `AW = 32` bits unsigned (00_scope.md R6, D34). -/
abbrev WordAddr := BitVec 32

/-- The `s32` value -1: the gap token in the queue, the idle value of `segment` and `oldSegment` (00_scope.md R16). -/
def gapToken : SegIndex := 0xFFFFFFFF#32

end Sys2Proof
end

