-- ==== Sys2Proof/Config.lean ====
section
/-! DEFINITION. The implementation parameters of 00_scope.md R6: the constants this hardware takes, and the two
numeric parameters the spec leaves open as model arguments (`NUM.q`, `NUM.mixround`). -/

namespace Sys2Proof

/-- `XL`, the crossfade length in seconds: "fixed `crossfadeLength = 0.03s`" (R6, R32). -/
def Config.XL : Rat := 3 / 100

/-- `FREQ_RESET`, the frequency after reset in Hz (R6, R22). -/
def Config.freqReset : Rat := 200

/-- The default of `POOL`, the number of grain slots (R6). -/
def Config.poolDefault : Nat := 10

/-- The largest `POOL` (R6, D9). -/
def Config.poolMax : Nat := 65535

/-- The default of `QDEPTH`, the capacity of the segment queue; `none` is the infinite queue (R6, D7). -/
def Config.qdepthDefault : Option Nat := some 256

/-- DESIGN CHOICE (log 2): the `FS` that `State.reset` carries. The spec makes `FS` an input without a value of its own. -/
def Config.fsAtReset : Nat := 44100

/-- The two numeric parameters of R6. `q` is the quantiser applied to every write of a real-typed register (`NUM.q`, R12);
`mixround` turns the two-source mix into an integer (`NUM.mixround`, R133). -/
structure Numerics where
  q : Rat → Rat
  mixround : Rat → Int

/-- What the spec requires of the two parameters: R12's three conditions on `NUM.q`, and U17's on `NUM.mixround` (less
than 1 away from the exact value, and within any integer bounds of it). -/
structure Numerics.Admissible (N : Numerics) : Prop where
  q_zero : N.q 0 = 0
  q_one : N.q 1 = 1
  q_mono : ∀ a b : Rat, a ≤ b → N.q a ≤ N.q b
  mixround_near : ∀ v : Rat, |(N.mixround v : Rat) - v| < 1
  mixround_lower : ∀ (a : Int) (v : Rat), (a : Rat) ≤ v → a ≤ N.mixround v
  mixround_upper : ∀ (b : Int) (v : Rat), v ≤ (b : Rat) → N.mixround v ≤ b

end Sys2Proof
end

