-- ==== Sys2Proof/Syntax.lean ====
section
/-! DEFINITION. The commands of OVGE, one constructor for each of the 13 rows of spec/opcode_table.json (30_encoding.md
R104, R105). Every constructor carries the whole argument field, ignored bits included, because `LASTERR.cmd` records
the word as received (R108). The five `ILLEGAL` rows also carry the opcode. -/

namespace Sys2Proof

/-- A decoded command word. -/
inductive Instr where
  /-- `OP = 0x00`: produce one output sample (R150). -/
  | tick (arg : Arg)
  /-- `OP = 0x01`: set the synthesis pitch (R220). -/
  | setfreq (arg : Arg)
  /-- `OP = 0x02`: append to the segment queue (R221). -/
  | queue (arg : Arg)
  /-- `OP = 0x03`: record a note-on edge (R222). -/
  | noteon (arg : Arg)
  /-- `OP = 0x04`: record a note-off edge (R223). -/
  | noteoff (arg : Arg)
  /-- `OP = 0x05`: clear sticky error flags (R224). -/
  | clrerr (arg : Arg)
  /-- `OP = 0x06`: the reserved formant-shift control (R225). -/
  | setfshift (arg : Arg)
  /-- `OP = 0x07`: the reserved phoneme-speed control (R226). -/
  | setpspeed (arg : Arg)
  /-- `OP` in `0x80..0xFF` (R227). -/
  | illegal80 (op : Opcode) (arg : Arg)
  /-- `OP` in `0x40..0x7F` (R227). -/
  | illegal40 (op : Opcode) (arg : Arg)
  /-- `OP` in `0x20..0x3F` (R227). -/
  | illegal20 (op : Opcode) (arg : Arg)
  /-- `OP` in `0x10..0x1F` (R227). -/
  | illegal10 (op : Opcode) (arg : Arg)
  /-- `OP` in `0x08..0x0F` (R227). -/
  | illegal08 (op : Opcode) (arg : Arg)
  deriving DecidableEq, Repr

end Sys2Proof
end

