-- ==== Sys2Proof/WellFormed.lean ====
section
/-! DEFINITION. Which terms of `Instr` are commands of the table: an `ILLEGAL` row's opcode must match that row's own mask
and match of spec/opcode_table.json. Every argument is legal in every row (30_encoding.md R108, R109, R110). -/

namespace Sys2Proof

/-- The opcode of an `ILLEGAL` row matches the row: the table's mask and match, cut to `OP = CMD[39:32]`. -/
def Instr.wellFormed : Instr → Bool
  | .tick _ => true
  | .setfreq _ => true
  | .queue _ => true
  | .noteon _ => true
  | .noteoff _ => true
  | .clrerr _ => true
  | .setfshift _ => true
  | .setpspeed _ => true
  | .illegal80 op _ => op &&& 0x80#8 == 0x80#8
  | .illegal40 op _ => op &&& 0xC0#8 == 0x40#8
  | .illegal20 op _ => op &&& 0xE0#8 == 0x20#8
  | .illegal10 op _ => op &&& 0xF0#8 == 0x10#8
  | .illegal08 op _ => op &&& 0xF8#8 == 0x08#8

end Sys2Proof
end

