-- ==== Sys2Proof/Decode.lean ====
section
/-! DEFINITION. Decoding and encoding of command words (30_encoding.md R102 to R112), and the opcode table as data.
Decoding is total: a word that is no assigned command decodes to one of the `ILLEGAL` rows, which reject it by name when
performed (R104, R106). -/

namespace Sys2Proof

/-- `OP = CMD[39:32]` (R102). -/
def opcodeOf (w : Command) : Opcode := w.extractLsb' 32 8

/-- `ARG = CMD[31:0]` (R102). -/
def argOf (w : Command) : Arg := w.extractLsb' 0 32

/-- The word with the given opcode and argument, `OP` in the high bits (R102, R11). -/
def mkCommand (op : Opcode) (arg : Arg) : Command := op ++ arg

/-- Decoding of an illegal opcode: its row is given by its highest set bit (spec/opcode_table.json). -/
def decodeIllegal (op : Opcode) (arg : Arg) : Instr :=
  if op.getLsbD 7 then .illegal80 op arg
  else if op.getLsbD 6 then .illegal40 op arg
  else if op.getLsbD 5 then .illegal20 op arg
  else if op.getLsbD 4 then .illegal10 op arg
  else .illegal08 op arg

/-- R104: decoding is a total function of the word that looks at `OP` alone. -/
def decode (w : Command) : Instr :=
  if opcodeOf w = 0x00#8 then .tick (argOf w)
  else if opcodeOf w = 0x01#8 then .setfreq (argOf w)
  else if opcodeOf w = 0x02#8 then .queue (argOf w)
  else if opcodeOf w = 0x03#8 then .noteon (argOf w)
  else if opcodeOf w = 0x04#8 then .noteoff (argOf w)
  else if opcodeOf w = 0x05#8 then .clrerr (argOf w)
  else if opcodeOf w = 0x06#8 then .setfshift (argOf w)
  else if opcodeOf w = 0x07#8 then .setpspeed (argOf w)
  else decodeIllegal (opcodeOf w) (argOf w)

/-- The instruction read from a row's word, bits numbered as spec/opcode_table.json numbers them. One word of 40 bits is
the whole instruction, so the word's number is the command word itself; more bits than that are no command. -/
def decodeTableWord (nbits w : Nat) : Option Instr :=
  if nbits ≤ 40 then some (decode (BitVec.ofNat 40 (w % 2 ^ nbits))) else none

/-- The word of an instruction (R105). -/
def encode : Instr → Command
  | .tick arg => mkCommand 0x00#8 arg
  | .setfreq arg => mkCommand 0x01#8 arg
  | .queue arg => mkCommand 0x02#8 arg
  | .noteon arg => mkCommand 0x03#8 arg
  | .noteoff arg => mkCommand 0x04#8 arg
  | .clrerr arg => mkCommand 0x05#8 arg
  | .setfshift arg => mkCommand 0x06#8 arg
  | .setpspeed arg => mkCommand 0x07#8 arg
  | .illegal80 op arg => mkCommand op arg
  | .illegal40 op arg => mkCommand op arg
  | .illegal20 op arg => mkCommand op arg
  | .illegal10 op arg => mkCommand op arg
  | .illegal08 op arg => mkCommand op arg

/-- The instruction that the disassembler's line stands for (R116): the ignored bits of an assigned opcode's argument are
cleared (R103, R108: formats N and X ignore all of `ARG`, format M all but `ARG[8:0]`, formats F and S none); an illegal
word is printed whole, so it keeps its argument. -/
def Instr.canonical : Instr → Instr
  | .tick _ => .tick 0
  | .setfreq arg => .setfreq arg
  | .queue arg => .queue arg
  | .noteon _ => .noteon 0
  | .noteoff _ => .noteoff 0
  | .clrerr arg => .clrerr (arg &&& 0x1FF#32)
  | .setfshift _ => .setfshift 0
  | .setpspeed _ => .setpspeed 0
  | .illegal80 op arg => .illegal80 op arg
  | .illegal40 op arg => .illegal40 op arg
  | .illegal20 op arg => .illegal20 op arg
  | .illegal10 op arg => .illegal10 op arg
  | .illegal08 op arg => .illegal08 op arg

/-- The nine decode outcomes of R104. -/
inductive Mnemonic where
  | TICK | SETFREQ | QUEUE | NOTEON | NOTEOFF | CLRERR | SETFSHIFT | SETPSPEED | ILLEGAL
  deriving DecidableEq, Repr

/-- The decode outcome an instruction stands for (R104). -/
def Instr.mnemonic : Instr → Mnemonic
  | .tick _ => .TICK
  | .setfreq _ => .SETFREQ
  | .queue _ => .QUEUE
  | .noteon _ => .NOTEON
  | .noteoff _ => .NOTEOFF
  | .clrerr _ => .CLRERR
  | .setfshift _ => .SETFSHIFT
  | .setpspeed _ => .SETPSPEED
  | .illegal80 _ _ => .ILLEGAL
  | .illegal40 _ _ => .ILLEGAL
  | .illegal20 _ _ => .ILLEGAL
  | .illegal10 _ _ => .ILLEGAL
  | .illegal08 _ _ => .ILLEGAL

/-- A row of spec/opcode_table.json: a word belongs to it when its masked bits equal the match. -/
structure OpcodeRow where
  mnemonic : Mnemonic
  matchBits : Command
  mask : Command
  deriving DecidableEq, Repr

/-- The word belongs to the row. -/
def OpcodeRow.accepts (r : OpcodeRow) (w : Command) : Bool := w &&& r.mask == r.matchBits

/-- spec/opcode_table.json, row by row. -/
def opcodeTable : List OpcodeRow :=
  [⟨.TICK, 0x0000000000#40, 0xFF00000000#40⟩,
   ⟨.SETFREQ, 0x0100000000#40, 0xFF00000000#40⟩,
   ⟨.QUEUE, 0x0200000000#40, 0xFF00000000#40⟩,
   ⟨.NOTEON, 0x0300000000#40, 0xFF00000000#40⟩,
   ⟨.NOTEOFF, 0x0400000000#40, 0xFF00000000#40⟩,
   ⟨.CLRERR, 0x0500000000#40, 0xFF00000000#40⟩,
   ⟨.SETFSHIFT, 0x0600000000#40, 0xFF00000000#40⟩,
   ⟨.SETPSPEED, 0x0700000000#40, 0xFF00000000#40⟩,
   ⟨.ILLEGAL, 0x8000000000#40, 0x8000000000#40⟩,
   ⟨.ILLEGAL, 0x4000000000#40, 0xC000000000#40⟩,
   ⟨.ILLEGAL, 0x2000000000#40, 0xE000000000#40⟩,
   ⟨.ILLEGAL, 0x1000000000#40, 0xF000000000#40⟩,
   ⟨.ILLEGAL, 0x0800000000#40, 0xF800000000#40⟩]

end Sys2Proof
end

