-- ==== Sys2Proof/Machine/State.lean ====
section
/-! DEFINITION. The state of OVGE (10_state.md R20 to R48) as plain data, its reset value, and the reasons for which a step
of the model can stop. The database and the parameters that the spec holds constant during a run (R41, R46) stand in
`State.inputs`, `State.qdepth` and the length of `State.pool`: no command writes them. -/

namespace Sys2Proof.Machine

/-- The wavetable memory as the host loads it: (byte address, byte) pairs, addresses strictly rising. Word `a` of `WT`
(20_memory.md R65) is bytes `2a` (low) and `2a + 1` (high), the voice file's own layout (R76). -/
abbrev Memory := List Host.Cell

/-- A segment descriptor `SEG[i]` (20_memory.md R66). -/
structure SegDesc where
  numFrames : Nat
  isLong : Bool
  offset : WordAddr
  deriving DecidableEq, Repr

/-- The database the engine is bound to: the header (20_memory.md R61 to R64), the segment table (R66) and the wavetable
memory (R65). -/
structure Database where
  /-- `DBVALID` (R61). -/
  valid : Bool
  /-- `DBSR`, the native recording sample rate (R62). -/
  dbsr : Nat
  /-- `GL`, samples per grain (R63). -/
  gl : Nat
  /-- `NSEG`, the number of segments (R64). -/
  nseg : Nat
  /-- `WTLEN`, the number of samples in the wavetable (R64). -/
  wtlen : Nat
  seg : List SegDesc
  wt : Memory
  deriving DecidableEq, Repr

/-- What a failed load, or no load, leaves: "default/zero fields" with `DBVALID = 0` (R61, R78). -/
def Database.zeroed : Database :=
  { valid := false, dbsr := 0, gl := 0, nseg := 0, wtlen := 0, seg := [], wt := [] }

/-- The configuration inputs latched when reset is released: `FS` and the database binding (10_state.md R41). -/
structure ConfigInputs where
  fs : Nat
  db : Database
  deriving DecidableEq, Repr

/-- A grain slot (10_state.md R36 to R40). -/
structure Grain where
  active : Bool
  readPosition : Nat
  offset1 : WordAddr
  offset2 : WordAddr
  crossfadeMix : Rat
  deriving DecidableEq, Repr

/-- A slot after reset (R48). -/
def Grain.reset : Grain :=
  { active := false, readPosition := 0, offset1 := 0, offset2 := 0, crossfadeMix := 0 }

/-- What the host can do to the block: present a command word at the command port (30_encoding.md R100), assert or release the
reset input, or drive the configuration inputs (30_encoding.md R101, 70_reset_and_hazards.md R270, R273). -/
inductive Input where
  | command (w : Command)
  | assertReset
  | configure (inputs : ConfigInputs)
  | releaseReset
  deriving DecidableEq, Repr

/-- The state of the block (10_state.md R20), the inputs it holds constant (R41, R46), and the model's own `port`. -/
structure State where
  /-- R22, Hz. -/
  frequency : Rat
  /-- R23, cycles. -/
  phase : Rat
  /-- `Q` (R24), head first. -/
  queue : List SegIndex
  /-- R25. -/
  segment : SegIndex
  /-- R26, seconds. -/
  segmentTime : Rat
  /-- R27, seconds. -/
  segmentLength : Rat
  /-- R28. -/
  oldSegment : SegIndex
  /-- R29, seconds. -/
  oldSegmentTime : Rat
  /-- R30. -/
  crossfade : Rat
  /-- R31. -/
  crossfadeRamp : Rat
  /-- R33. -/
  noteOns : BitVec 32
  /-- R34. -/
  noteOffs : BitVec 32
  /-- R35. -/
  nextGrain : Nat
  /-- `G[0..POOL-1]` (R36); its length is `POOL`. -/
  pool : List Grain
  /-- `STATUS` (R42). -/
  status : BitVec 8
  /-- `LASTERR` (R43). -/
  lasterr : BitVec 44
  /-- `OUT.sample`, an `s32` (R45). -/
  sample : BitVec 32
  /-- `FS` and the database: as the host drives them while reset is asserted, latched when it is released (R41). -/
  inputs : ConfigInputs
  /-- `QDEPTH`; `none` is infinite (00_scope.md R6). -/
  qdepth : Option Nat
  /-- The level of the reset input (70_reset_and_hazards.md R270; log 6). -/
  resetAsserted : Bool
  /-- The model's own field (log 1): what the host presents next, first element first. -/
  port : List Input
  deriving DecidableEq, Repr

/-- Why the model stops where the spec says that a condition cannot arise from a reachable state with a well-formed
database (log 7). All are safe: nothing can be concluded about such a state. -/
inductive Fault where
  /-- Raised by `GRAIN.PROCESS` for a wavetable read at an address at or above `WTLEN`, or at a word the memory does not hold
  (93_implementation_defined.md U6: "fault"). Safe. -/
  | wavetableRead
  /-- Raised by the segment-table accessors for an index outside `-1..NSEG-1` (20_memory.md R69). Safe. -/
  | segmentIndex
  /-- Raised by the address generator for a modulo by 0 or of a negative number (42_phase_addrgen.md R186). Safe. -/
  | undefinedModulo
  /-- Raised by `GRAIN.PLAY` for a slot index at or above `POOL` (10_state.md R35). Safe. -/
  | slotIndex
  deriving DecidableEq, Repr

/-- Why the model gives a step no meaning. -/
inductive Refusal where
  /-- Raised by `exec` for an instruction without a meaning yet; none is left. Safe. -/
  | notModelled (mnemonic : String)
  /-- Raised by a `TICK` that needs `FS`, `DBSR`, `GL` or a frame address where `FS = 0`, `DBSR = 0`, `GL = 0` or the address
  does not fit 32 bits: the spec gives such a run no meaning (93_implementation_defined.md U5: "refuse";
  70_reset_and_hazards.md R275, R276; log 4). Safe. -/
  | illFormedConfiguration
  /-- Raised by a step in which the host drives another `FS` or another database while reset is not asserted: the spec gives
  such a run no meaning (20_memory.md R90; 93_implementation_defined.md U7: "refuse"; log 4). No command raises it. Safe. -/
  | configurationChanged
  deriving DecidableEq, Repr

/-- The state right after reset is released with these inputs held, for a block of `pool` slots and queue capacity `qdepth`
(10_state.md R48, 70_reset_and_hazards.md R270). -/
def State.resetWith (pool : Nat) (qdepth : Option Nat) (inputs : ConfigInputs) : State where
  frequency := Config.freqReset
  phase := 0
  queue := []
  segment := gapToken
  segmentTime := 0
  segmentLength := 0
  oldSegment := gapToken
  oldSegmentTime := 0
  crossfade := 0
  crossfadeRamp := 0
  noteOns := 0
  noteOffs := 0
  nextGrain := 0
  pool := List.replicate pool Grain.reset
  status := 0
  lasterr := 0
  sample := 0
  inputs := inputs
  qdepth := qdepth
  resetAsserted := false
  port := []

/-- The machine right after reset: R48's values, the default parameters of R6, and (DESIGN CHOICE, log 2) the inputs of a
host that has loaded nothing: `DBVALID = 0` with zeroed fields, `FS = 44100`. -/
def State.reset : State :=
  State.resetWith Config.poolDefault Config.qdepthDefault ⟨Config.fsAtReset, Database.zeroed⟩

end Sys2Proof.Machine
end

