-- ==== Sys2Proof/Machine/Memory.lean ====
section
/-! DEFINITION. The named operations over the wavetable memory (20_memory.md R60, R65, R76, R80 to R84). The engine only
reads; the write operations are the host's, before reset is released. -/

namespace Sys2Proof.Machine

/-- The canonical form: addresses strictly rising. A byte the host has not loaded has no value (log 3), so no entry can
equal what an unlisted address reads as. -/
def Memory.wf : Memory → Bool
  | [] => true
  | [_] => true
  | c :: d :: m => decide (c.1 < d.1) && Memory.wf (d :: m)

/-- The byte at an address, `none` where the host has loaded none. -/
def Memory.readByte : Memory → Nat → Option Byte
  | [], _ => none
  | c :: m, a => if c.1 = a then some c.2 else Memory.readByte m a

/-- A byte loaded by the host at an address; the entries stay in rising order. -/
def Memory.writeByte : Memory → Nat → Byte → Memory
  | [], a, b => [(a, b)]
  | c :: m, a, b =>
    if a < c.1 then (a, b) :: c :: m
    else if a = c.1 then (a, b) :: m
    else c :: Memory.writeByte m a b

/-- The 16-bit sample at word address `a`: bytes `2a` (low) and `2a + 1` (high), as in the voice file (R72, R76). -/
def Memory.readSample (m : Memory) (a : Nat) : Option (BitVec 16) :=
  match Memory.readByte m (2 * a), Memory.readByte m (2 * a + 1) with
  | some lo, some hi => some (hi ++ lo)
  | _, _ => none

/-- A sample loaded by the host at word address `a`. -/
def Memory.writeSample (m : Memory) (a : Nat) (v : BitVec 16) : Memory :=
  Memory.writeByte (Memory.writeByte m (2 * a) (v.extractLsb' 0 8)) (2 * a + 1) (v.extractLsb' 8 8)

/-- Consecutive bytes from an address on: what the loader makes of the remainder of a voice file (R76, R77). -/
def Memory.ofBytes : Nat → List Byte → Memory
  | _, [] => []
  | a, b :: bs => (a, b) :: Memory.ofBytes (a + 1) bs

end Sys2Proof.Machine
end

