-- ==== Sys2Proof/Machine/Database.lean ====
section
/-! DEFINITION. The three read-only spaces as the engine reads them: the header (20_memory.md R61 to R64), the segment table
through its accessors (R66 to R69), the wavetable (R65), and the derived constant `F0` (00_scope.md R7). -/

namespace Sys2Proof.Machine

/-- A result of an operation of the engine: a value, or one of the model's stops. -/
abbrev Result (α : Type) := Host.Outcome α Fault Refusal

/-- Run the second operation on the first one's value; a stop ends both. -/
def Result.andThen {α β : Type} (r : Result α) (f : α → Result β) : Result β :=
  match r with
  | .next a => f a
  | .fault e => .fault e
  | .refused e => .refused e

/-- The database as the block sees it: `DBVALID = 0` makes the header read as zeros "whatever the memories hold" (R61). DESIGN CHOICE, log 11: the tables read as empty too; no command can tell. -/
def Database.seen (db : Database) : Database := if db.valid then db else Database.zeroed

/-- The database the block sees in a state. -/
def State.db (s : State) : Database := s.inputs.db.seen

/-- `POOL` (00_scope.md R6). -/
def State.poolSize (s : State) : Nat := s.pool.length

/-- `F0 = 2 * DBSR / GL` in Hz, exact (R7). -/
def Database.f0 (db : Database) : Rat := 2 * (db.dbsr : Rat) / (db.gl : Rat)

/-- `SEG[i]` for an index other than -1 (R66); an index outside `0..NSEG-1` never reaches it (R69). -/
def Database.descriptor (db : Database) (i : SegIndex) : Result SegDesc :=
  if i.toNat < db.nseg then
    match db.seg[i.toNat]? with
    | some d => .next d
    | none => .fault .segmentIndex
  else .fault .segmentIndex

/-- `SEG.numFrames(i)`, 0 for the sentinel (R68). -/
def Database.numFrames (db : Database) (i : SegIndex) : Result Nat :=
  if i = gapToken then .next 0 else Result.andThen (db.descriptor i) fun d => .next d.numFrames

/-- `SEG.isLong(i)`, false for the sentinel (R68). -/
def Database.isLong (db : Database) (i : SegIndex) : Result Bool :=
  if i = gapToken then .next false else Result.andThen (db.descriptor i) fun d => .next d.isLong

/-- `SEG.offset(i)`, 0 for the sentinel (R68). -/
def Database.offset (db : Database) (i : SegIndex) : Result WordAddr :=
  if i = gapToken then .next 0 else Result.andThen (db.descriptor i) fun d => .next d.offset

/-- `MemRead(WT, a)`: the `s16` sample at word address `a` (R65); a read at or above `WTLEN` is a fault of the model (U6). -/
def Database.memRead (db : Database) (a : Nat) : Result Int :=
  if a < db.wtlen then
    match Memory.readSample db.wt a with
    | some v => .next v.toInt
    | none => .fault .wavetableRead
  else .fault .wavetableRead

/-- Contiguous packing from word address `off` on: each offset is the sum of `numFrames * GL` of the segments before it
(R67). -/
def packedFrom (gl : Nat) : Nat → List SegDesc → Bool
  | _, [] => true
  | off, d :: ds => decide (d.offset.toNat = off) && packedFrom gl (off + d.numFrames * gl) ds

/-- The sum of `numFrames * GL` over the segments (R64, R67). -/
def totalSamples (gl : Nat) : List SegDesc → Nat
  | [] => 0
  | d :: ds => d.numFrames * gl + totalSamples gl ds

/-- A well-formed database, 70_reset_and_hazards.md R278 (a) to (g): (d) and (g) hold by the types of `isLong` and of a
sample; the last two clauses say that `WT` holds exactly `WTLEN` samples. -/
def Database.wellFormed (db : Database) : Bool :=
  decide (1 ≤ db.dbsr) && decide (1 ≤ db.gl) && decide (db.nseg ≤ 2 ^ 31 - 1) && decide (db.seg.length = db.nseg)
    && db.seg.all (fun d => decide (1 ≤ d.numFrames)) && packedFrom db.gl 0 db.seg
    && decide (db.wtlen = totalSamples db.gl db.seg) && decide (db.wtlen < 2 ^ 32)
    && Memory.wf db.wt && decide (db.wt.map Prod.fst = List.range (2 * db.wtlen))

/-- What the host must drive: `FS >= 1` (R276), and `DBVALID = 1` only over a well-formed database (R273, R278). -/
def ConfigInputs.wellFormed (c : ConfigInputs) : Bool :=
  decide (1 ≤ c.fs) && (!c.db.valid || c.db.wellFormed)

end Sys2Proof.Machine
end

