-- ==== Sys2Proof/Machine/Flags.lean ====
section
/-! DEFINITION. The error causes, `STATUS`, `LASTERR`, `LIVE` and the outputs (10_state.md R42 to R45, 60_exceptions.md
R242 to R248, 30_encoding.md R101). -/

namespace Sys2Proof.Machine

/-- The error causes (60_exceptions.md R248). -/
inductive ErrorCause where
  | E_ILLCMD | E_IDX | E_QOVF | E_CNTOVF | E_NODB | E_UNIMPL
  deriving DecidableEq, Repr

/-- The code of a cause, which is its `STATUS` bit number (R248). -/
def ErrorCause.code : ErrorCause → BitVec 3
  | .E_ILLCMD => 0
  | .E_IDX => 1
  | .E_QOVF => 2
  | .E_CNTOVF => 3
  | .E_NODB => 4
  | .E_UNIMPL => 5

/-- `STATUS` with the cause's bit set (R42, R241). -/
def statusSet (status : BitVec 8) (e : ErrorCause) : BitVec 8 := status ||| (1#8 <<< e.code.toNat)

/-- `STATUS` with the selected bits cleared (R224). -/
def statusClear (status bits : BitVec 8) : BitVec 8 := status &&& ~~~bits

/-- `LASTERR = 1 ++ code ++ cmd` (R43, R241). -/
def lasterrRecord (e : ErrorCause) (cmd : Command) : BitVec 44 := (1#1 ++ e.code) ++ cmd

/-- `LASTERR.valid`, bit 43 (R43). -/
def lasterrValid (l : BitVec 44) : Bool := l.getLsbD 43

/-- `LASTERR.code`, bits 42:40 (R43). -/
def lasterrCode (l : BitVec 44) : BitVec 3 := l.extractLsb' 40 3

/-- `LASTERR.cmd`, bits 39:0 (R43). -/
def lasterrCmd (l : BitVec 44) : Command := l.extractLsb' 0 40

/-- `Q.len = QDEPTH`; never with an infinite queue (R6, R44, R244; log 12). -/
def State.queueFull (s : State) : Bool :=
  match s.qdepth with
  | some d => s.queue.length == d
  | none => false

/-- `LIVE.ACTIVE`: `segment != -1` (R44). -/
def State.isActive (s : State) : Bool := s.segment != gapToken

/-- `LIVE.GRAINS`: some slot is active (R44). -/
def State.grainsActive (s : State) : Bool := s.pool.any fun g => g.active

/-- `LIVE`, a function of the state: bits 5..0 are `DBOK GRAINS XFADING QFULL QEMPTY ACTIVE`, bits 7:6 are 0 (R44). -/
def State.live (s : State) : BitVec 8 :=
  0#2 ++ BitVec.ofBool s.inputs.db.valid ++ BitVec.ofBool s.grainsActive ++ BitVec.ofBool (s.crossfade != 0)
    ++ BitVec.ofBool s.queueFull ++ BitVec.ofBool s.queue.isEmpty ++ BitVec.ofBool s.isActive

/-- The outputs of the block (30_encoding.md R101): all that can be observed from outside (00_scope.md R9). -/
structure Outputs where
  sampleOut : BitVec 32
  status : BitVec 8
  lasterr : BitVec 44
  live : BitVec 8
  deriving DecidableEq, Repr

/-- The outputs in a state. -/
def State.outputs (s : State) : Outputs :=
  { sampleOut := s.sample, status := s.status, lasterr := s.lasterr, live := s.live }

end Sys2Proof.Machine
end

