-- ==== Sys2Proof/Machine/Numerics.lean ====
section
/-! DEFINITION. The numeric parameters this hardware takes (00_scope.md R6, R11, R12; 40_grain.md R133). -/

namespace Sys2Proof.Machine

/-- `trunc(x)`: rounding toward zero (R11). -/
def ratTrunc (v : Rat) : Int := if 0 ≤ v then v.floor else -(-v).floor

/-- This hardware: `NUM.q` the identity (D1), `NUM.mixround` truncation toward zero (D19); DEDUCED, log 5. -/
def hardwareNumerics : Numerics := { q := fun v => v, mixround := ratTrunc }

end Sys2Proof.Machine
end

