-- ==== Sys2Proof/Machine/Operands.lean ====
section
/-! DEFINITION. Every operand form of the commands (30_encoding.md R103, R109 to R111). -/

namespace Sys2Proof.Machine

/-- Format F: `hz = ARG / 65536`, unsigned 16.16 fixed point, exact (R109). -/
def freqOperand (arg : Arg) : Rat := (arg.toNat : Rat) / 65536

/-- Format S: `idx = asSigned_32(ARG)` as a number (R110). -/
def indexOperand (arg : Arg) : Int := arg.toInt

/-- Format M: `mask = ARG[8:0]` (R111). -/
def maskOperand (arg : Arg) : BitVec 9 := arg.extractLsb' 0 9

/-- The `STATUS` bits a `CLRERR` mask selects: `mask[5:0]`, zero-extended (R111, R224). -/
def maskStatusBits (mask : BitVec 9) : BitVec 8 := (mask.extractLsb' 0 6).setWidth 8

/-- Whether a `CLRERR` mask clears `LASTERR`: `mask[8]` (R111, R224). -/
def maskClearsLasterr (mask : BitVec 9) : Bool := mask.getLsbD 8

end Sys2Proof.Machine
end

