-- ==== Sys2Proof/Machine/Ops.lean ====
section
/-! DEFINITION. The named operations over the registers. A write of a real-typed register stores `NUM.q` of the value
(00_scope.md R12), and that is said here, once for each register. Reporting an error (`raise`, 60_exceptions.md R241) is the
block's whole exception mechanism; `clearErrors` is all there is of a return (R252). -/

namespace Sys2Proof.Machine

/-! ### Register writes -/

/-- `frequency <- v` (10_state.md R22). -/
def State.setFrequency (s : State) (N : Numerics) (v : Rat) : State := { s with frequency := N.q v }

/-- `phase <- v` (R23). -/
def State.setPhase (s : State) (N : Numerics) (v : Rat) : State := { s with phase := N.q v }

/-- `Q <- q` (R24). -/
def State.setQueue (s : State) (q : List SegIndex) : State := { s with queue := q }

/-- `segment <- i` (R25). -/
def State.setSegment (s : State) (i : SegIndex) : State := { s with segment := i }

/-- `segmentTime <- v` (R26). -/
def State.setSegmentTime (s : State) (N : Numerics) (v : Rat) : State := { s with segmentTime := N.q v }

/-- `segmentLength <- v` (R27). -/
def State.setSegmentLength (s : State) (N : Numerics) (v : Rat) : State := { s with segmentLength := N.q v }

/-- `oldSegment <- i` (R28). -/
def State.setOldSegment (s : State) (i : SegIndex) : State := { s with oldSegment := i }

/-- `oldSegmentTime <- v` (R29). -/
def State.setOldSegmentTime (s : State) (N : Numerics) (v : Rat) : State := { s with oldSegmentTime := N.q v }

/-- `crossfade <- v` (R30). -/
def State.setCrossfade (s : State) (N : Numerics) (v : Rat) : State := { s with crossfade := N.q v }

/-- `crossfadeRamp <- v` (R31). -/
def State.setCrossfadeRamp (s : State) (N : Numerics) (v : Rat) : State := { s with crossfadeRamp := N.q v }

/-- `noteOns <- n` (R33). -/
def State.setNoteOns (s : State) (n : BitVec 32) : State := { s with noteOns := n }

/-- `noteOffs <- n` (R34). -/
def State.setNoteOffs (s : State) (n : BitVec 32) : State := { s with noteOffs := n }

/-- `nextGrain <- n` (R35). -/
def State.setNextGrain (s : State) (n : Nat) : State := { s with nextGrain := n }

/-- `G <- pool` (R36). -/
def State.setPool (s : State) (pool : List Grain) : State := { s with pool := pool }

/-- `STATUS <- v` (R42). -/
def State.setStatus (s : State) (v : BitVec 8) : State := { s with status := v }

/-- `LASTERR <- v` (R43). -/
def State.setLasterr (s : State) (v : BitVec 44) : State := { s with lasterr := v }

/-- `OUT.sample <- v` (R45). -/
def State.setSample (s : State) (v : BitVec 32) : State := { s with sample := v }

/-- What the host presents after the input just taken (log 1). -/
def State.setPort (s : State) (p : List Input) : State := { s with port := p }

/-- The level of the reset input (70_reset_and_hazards.md R270). -/
def State.setResetAsserted (s : State) (b : Bool) : State := { s with resetAsserted := b }

/-! ### Errors -/

/-- `raise E(cmd)`: set the cause's sticky bit, record the command word, and end the command with no other change (R241). -/
def State.raise (s : State) (e : ErrorCause) (cmd : Command) : State :=
  (s.setStatus (statusSet s.status e)).setLasterr (lasterrRecord e cmd)

/-- `CLRERR mask`: clear the selected `STATUS` bits, and `LASTERR` if `mask[8]` is set (44_control_commands.md R224). -/
def State.clearErrors (s : State) (mask : BitVec 9) : State :=
  let cleared := s.setStatus (statusClear s.status (maskStatusBits mask))
  if maskClearsLasterr mask then cleared.setLasterr 0 else cleared

/-! ### The output -/

/-- `emit v`: drive `sample_out` and end the `TICK` (00_scope.md R13); the `s32` of a mathematical integer that fits it
(43_envelope_mixer.md R205, R206). -/
def State.emit (s : State) (v : Int) : State := s.setSample (BitVec.ofInt 32 v)

end Sys2Proof.Machine
end

