-- ==== Sys2Proof/Machine/Control.lean ====
section
/-! DEFINITION. The control commands (44_control_commands.md): SETFREQ, QUEUE, NOTEON, NOTEOFF, CLRERR, the two reserved
extensions and the five ILLEGAL rows. None of them can fail to give a next state. -/

namespace Sys2Proof.Machine

/-- `SETFREQ hz` for the given numeric parameters: `frequency <- ARG / 65536` (R220, 00_scope.md R6). -/
def execSetfreqWith (N : Numerics) (arg : Arg) (s : State) : Result State := .next (s.setFrequency N (freqOperand arg))

/-- `SETFREQ hz` on this hardware (R220). -/
def execSetfreq (arg : Arg) (s : State) : Result State := execSetfreqWith hardwareNumerics arg s

/-- `QUEUE idx`: the range check, then the capacity check, then the append (R221, 60_exceptions.md R249). -/
def execQueue (arg : Arg) (s : State) : Result State :=
  if indexOperand arg < -1 ∨ (s.db.nseg : Int) ≤ indexOperand arg then .next (s.raise .E_IDX (encode (.queue arg)))
  else if s.queueFull then .next (s.raise .E_QOVF (encode (.queue arg)))
  else .next (s.setQueue (s.queue ++ [arg]))

/-- `NOTEON`: one more note-on edge, saturating (R222). -/
def execNoteon (arg : Arg) (s : State) : Result State :=
  if s.noteOns = BitVec.allOnes 32 then .next (s.raise .E_CNTOVF (encode (.noteon arg)))
  else .next (s.setNoteOns (s.noteOns + 1))

/-- `NOTEOFF`: one more note-off edge, saturating (R223). -/
def execNoteoff (arg : Arg) (s : State) : Result State :=
  if s.noteOffs = BitVec.allOnes 32 then .next (s.raise .E_CNTOVF (encode (.noteoff arg)))
  else .next (s.setNoteOffs (s.noteOffs + 1))

/-- `CLRERR mask` (R224). -/
def execClrerr (arg : Arg) (s : State) : Result State := .next (s.clearErrors (maskOperand arg))

/-- `SETFSHIFT`: reserved, always `E_UNIMPL` (R225). -/
def execSetfshift (arg : Arg) (s : State) : Result State := .next (s.raise .E_UNIMPL (encode (.setfshift arg)))

/-- `SETPSPEED`: reserved, always `E_UNIMPL` (R226). -/
def execSetpspeed (arg : Arg) (s : State) : Result State := .next (s.raise .E_UNIMPL (encode (.setpspeed arg)))

/-- `ILLEGAL`, `OP` in `0x80..0xFF` (R227). -/
def execIllegal80 (op : Opcode) (arg : Arg) (s : State) : Result State :=
  .next (s.raise .E_ILLCMD (encode (.illegal80 op arg)))

/-- `ILLEGAL`, `OP` in `0x40..0x7F` (R227). -/
def execIllegal40 (op : Opcode) (arg : Arg) (s : State) : Result State :=
  .next (s.raise .E_ILLCMD (encode (.illegal40 op arg)))

/-- `ILLEGAL`, `OP` in `0x20..0x3F` (R227). -/
def execIllegal20 (op : Opcode) (arg : Arg) (s : State) : Result State :=
  .next (s.raise .E_ILLCMD (encode (.illegal20 op arg)))

/-- `ILLEGAL`, `OP` in `0x10..0x1F` (R227). -/
def execIllegal10 (op : Opcode) (arg : Arg) (s : State) : Result State :=
  .next (s.raise .E_ILLCMD (encode (.illegal10 op arg)))

/-- `ILLEGAL`, `OP` in `0x08..0x0F` (R227). -/
def execIllegal08 (op : Opcode) (arg : Arg) (s : State) : Result State :=
  .next (s.raise .E_ILLCMD (encode (.illegal08 op arg)))

end Sys2Proof.Machine
end

