-- ==== Sys2Proof/Machine/Grain.lean ====
section
/-! DEFINITION. The grain unit (40_grain.md): `GRAIN.PLAY` and `GRAIN.PROCESS`. -/

namespace Sys2Proof.Machine

/-- The contents `GRAIN.PLAY` gives a slot: every field is overwritten (R130, R136). -/
def armedGrain (N : Numerics) (off1 off2 : WordAddr) (mix : Rat) : Grain :=
  { active := true, readPosition := 0, offset1 := off1, offset2 := off2, crossfadeMix := N.q mix }

/-- `GRAIN.PLAY(i, off1, off2, mix)`: arm slot `i`, whatever it held (R130, 42_phase_addrgen.md R188). -/
def grainPlay (N : Numerics) (i : Nat) (off1 off2 : WordAddr) (mix : Rat) (s : State) : Result State :=
  if i < s.poolSize then .next (s.setPool (s.pool.set i (armedGrain N off1 off2 mix)))
  else .fault .slotIndex

/-- The two-source mix `NUM.mixround(s1 * (1 - m) + s2 * m)` (R133). -/
def grainMix (N : Numerics) (s1 s2 : Int) (m : Rat) : Int := N.mixround ((s1 : Rat) * (1 - m) + (s2 : Rat) * m)

/-- The sample an active slot yields now; the second frame is read only when `crossfadeMix != 0` (R132). -/
def grainSample (N : Numerics) (db : Database) (g : Grain) : Result Int :=
  Result.andThen (db.memRead (g.offset1.toNat + g.readPosition)) fun s1 =>
    if g.crossfadeMix = 0 then .next s1
    else Result.andThen (db.memRead (g.offset2.toNat + g.readPosition)) fun s2 =>
      .next (grainMix N s1 s2 g.crossfadeMix)

/-- An active slot one sample on: `readPosition + 1`, and inactive once that is `GL` (R132). -/
def Grain.advance (g : Grain) (gl : Nat) : Grain :=
  { g with readPosition := g.readPosition + 1, active := decide (g.readPosition + 1 ≠ gl) }

/-- `GRAIN.PROCESS`: one sample from a slot, and the slot after it; an inactive slot yields 0 and does not change (R132). -/
def grainProcess (N : Numerics) (db : Database) (g : Grain) : Result (Int × Grain) :=
  if g.active then Result.andThen (grainSample N db g) fun y => .next (y, g.advance db.gl)
  else .next (0, g)

end Sys2Proof.Machine
end

