-- ==== Sys2Proof/Machine/Sequencer.lean ====
section
/-! DEFINITION. The segment sequencer (41_tick_sequencer.md): `NEWSEG` and the steps 2 to 4 of `TICK`. -/

namespace Sys2Proof.Machine

/-- The engine's sample period `1 / FS` in seconds (43_envelope_mixer.md R200, D6). -/
def State.period (s : State) : Rat := 1 / (s.inputs.fs : Rat)

/-- The per-tick change of `crossfade` while crossfading, `-1 / (XL * FS)` (10_state.md R31). -/
def State.fullRamp (s : State) : Rat := -1 / (Config.XL * (s.inputs.fs : Rat))

/-- `NEWSEG` on an empty queue: idle with zero length, nothing else changes (R160, D21). -/
def State.goIdle (s : State) (N : Numerics) : State := (s.setSegment gapToken).setSegmentLength N 0

/-- The crossfade registers of `NEWSEG`: no crossfade from idle, a fresh one from a segment (R160). -/
def State.startCrossfade (s : State) (N : Numerics) (prev : SegIndex) : State :=
  if prev = gapToken then (s.setCrossfade N 0).setCrossfadeRamp N 0
  else (s.setCrossfade N 1).setCrossfadeRamp N s.fullRamp

/-- `NEWSEG` after popping `n`, which leaves `rest` and whose segment has `frames` frames (R160). -/
def State.enterSegment (s : State) (N : Numerics) (n : SegIndex) (rest : List SegIndex) (frames : Nat) : State :=
  let remembered := ((s.setQueue rest).setOldSegment s.segment).setOldSegmentTime N s.segmentTime
  let entered := ((remembered.setSegment n).setSegmentTime N 0).setSegmentLength N ((frames : Rat) / s.db.f0)
  entered.startCrossfade N s.segment

/-- `NEWSEG`: advance to the next queued entry (R160). -/
def newSeg (N : Numerics) (s : State) : Result State :=
  match s.queue with
  | [] => .next (s.goIdle N)
  | n :: rest => Result.andThen (s.db.numFrames n) fun frames => .next (s.enterSegment N n rest frames)

/-- Step 2, where the queue is not empty: an idle engine consumes one note-on and performs `NEWSEG` (R152). The early exits
of steps 1 and 2 stand in `tick`. -/
def consumeNoteOn (N : Numerics) (s : State) : Result State :=
  if s.segment = gapToken then newSeg N (s.setNoteOns (s.noteOns - 1)) else .next s

/-- Step 3: a pending note-off releases a long segment (R153). -/
def consumeNoteOff (N : Numerics) (s : State) : Result State :=
  if s.segment = gapToken ∨ s.noteOffs = 0 then .next s
  else Result.andThen (s.db.isLong s.segment) fun long =>
    if long then newSeg N (s.setNoteOffs (s.noteOffs - 1)) else .next s

/-- The boundary test of step 4: `segment != -1 and segmentTime >= segmentLength - XL` (R154). -/
def State.atBoundary (s : State) : Bool :=
  s.segment != gapToken && decide (s.segmentLength - Config.XL ≤ s.segmentTime)

/-- Step 4: at its boundary a long segment loops in place (R155) and a short one gives way to the next entry (R156). -/
def boundaryStep (N : Numerics) (s : State) : Result State :=
  if s.atBoundary then
    Result.andThen (s.db.isLong s.segment) fun long =>
      if long then .next (s.setSegmentTime N 0) else newSeg N s
  else .next s

end Sys2Proof.Machine
end

