-- ==== Sys2Proof/Machine/Phase.lean ====
section
/-! DEFINITION. Step 5 of `TICK` (42_phase_addrgen.md): the phase accumulator, the address generator, the grain trigger. -/

namespace Sys2Proof.Machine

/-- `frameIndex(i, t) = floor(t * F0) mod numFrames(i)` (R185); the modulo is never by 0 or of a negative number (R186). -/
def Database.frameIndex (db : Database) (i : SegIndex) (t : Rat) : Result Nat :=
  Result.andThen (db.numFrames i) fun frames =>
    if frames = 0 ∨ t < 0 then .fault .undefinedModulo
    else .next ((t * db.f0).floor.toNat % frames)

/-- `frameAddr(i, t) = offset(i) + frameIndex(i, t) * GL` (R185); it fits 32 bits in a well-formed database. -/
def Database.frameAddr (db : Database) (i : SegIndex) (t : Rat) : Result WordAddr :=
  Result.andThen (db.frameIndex i t) fun f =>
    Result.andThen (db.offset i) fun off =>
      if off.toNat + f * db.gl < 2 ^ 32 then .next (BitVec.ofNat 32 (off.toNat + f * db.gl))
      else .refused .illFormedConfiguration

/-- `GRAIN.PLAY` on the slot `nextGrain` names, which then moves on round-robin (R187). -/
def armNext (N : Numerics) (off1 off2 : WordAddr) (mix : Rat) (s : State) : Result State :=
  Result.andThen (grainPlay N s.nextGrain off1 off2 mix s) fun s1 =>
    .next (s1.setNextGrain ((s1.nextGrain + 1) % s1.poolSize))

/-- The trigger: nothing is armed while idle (R183); otherwise a grain of the current segment, mixed with the previous
segment's frame while a crossfade is in progress (R187). -/
def trigger (N : Numerics) (s : State) : Result State :=
  if s.segment = gapToken then .next s
  else Result.andThen (s.db.frameAddr s.segment s.segmentTime) fun off1 =>
    if s.crossfade = 0 then armNext N off1 off1 0 s
    else Result.andThen (s.db.frameAddr s.oldSegment s.oldSegmentTime) fun off2 =>
      armNext N off1 off2 s.crossfade s

/-- The phase advance, `phase <- phase + frequency / FS` (R180). -/
def State.advancePhase (s : State) (N : Numerics) : State :=
  s.setPhase N (s.phase + s.frequency / (s.inputs.fs : Rat))

/-- Step 5: advance the phase, then on a wrap subtract 1 once and trigger (R180, R181). -/
def phaseStep (N : Numerics) (s : State) : Result State :=
  let advanced := s.advancePhase N
  if 1 ≤ advanced.phase then trigger N (advanced.setPhase N (advanced.phase - 1)) else .next advanced

end Sys2Proof.Machine
end

