-- ==== Sys2Proof/Machine/Mixer.lean ====
section
/-! DEFINITION. Steps 6 and 7 of `TICK` (43_envelope_mixer.md): the clocks, the crossfade envelope, the mixer. -/

namespace Sys2Proof.Machine

/-- Both segment clocks advance by one sample period (R200). -/
def State.advanceClocks (s : State) (N : Numerics) : State :=
  (s.setSegmentTime N (s.segmentTime + s.period)).setOldSegmentTime N (s.oldSegmentTime + s.period)

/-- Crossfade decay: by the ramp, clamped at 0, where the ramp is cleared too (R202). -/
def State.decayCrossfade (s : State) (N : Numerics) : State :=
  if s.crossfade + s.crossfadeRamp ≤ 0 then (s.setCrossfade N 0).setCrossfadeRamp N 0
  else s.setCrossfade N (s.crossfade + s.crossfadeRamp)

/-- Step 6 (R200 to R202). -/
def State.timeStep (s : State) (N : Numerics) : State := (s.advanceClocks N).decayCrossfade N

/-- `GRAIN.PROCESS` on every slot in index order: the exact sum of the samples, and the slots after it (R205). -/
def mixPool (N : Numerics) (db : Database) : List Grain → Result (Int × List Grain)
  | [] => .next (0, [])
  | g :: gs =>
    Result.andThen (grainProcess N db g) fun one =>
      Result.andThen (mixPool N db gs) fun more =>
        .next (one.1 + more.1, one.2 :: more.2)

/-- Step 7: emit the sum over the pool (R205). -/
def mixStep (N : Numerics) (s : State) : Result State :=
  Result.andThen (mixPool N s.db s.pool) fun out => .next ((s.setPool out.2).emit out.1)

end Sys2Proof.Machine
end

