-- ==== Sys2Proof/Machine/Tick.lean ====
section
/-! DEFINITION. `TICK` (41_tick_sequencer.md R150): one output sample, the engine one sample period on. -/

namespace Sys2Proof.Machine

/-- `FS`, `DBSR` and `GL` are all at least 1, so that every quotient of the steps 2 to 7 is defined (70_reset_and_hazards.md
R276, R278 (a)); otherwise the spec gives the tick no meaning (U5). -/
def State.divisorsOk (s : State) : Bool :=
  decide (1 ≤ s.inputs.fs) && decide (1 ≤ s.db.dbsr) && decide (1 ≤ s.db.gl)

/-- The steps 2 (its consuming half) to 7, each on the state the one before left (R150, R159). -/
def tickActive (N : Numerics) (s : State) : Result State :=
  if s.divisorsOk then
    Result.andThen (consumeNoteOn N s) fun s2 =>
      Result.andThen (consumeNoteOff N s2) fun s3 =>
        Result.andThen (boundaryStep N s3) fun s4 =>
          Result.andThen (phaseStep N s4) fun s5 =>
            mixStep N (s5.timeStep N)
  else .refused .illFormedConfiguration

/-- The whole of `TICK` for the given numerics: the early exits of the steps 0, 1 and 2, which skip everything after them
(R151, R152, R157, R158), and then the active part. `cmd` is the command word as received. -/
def tick (N : Numerics) (cmd : Command) (s : State) : Result State :=
  if s.inputs.db.valid = false then .next ((s.raise .E_NODB cmd).emit 0)
  else if s.segment = gapToken ∧ s.noteOns = 0 then .next (s.emit 0)
  else if s.segment = gapToken ∧ s.queue = [] then .next (s.emit 0)
  else tickActive N s

/-- `TICK` for the given numeric parameters (R150, 00_scope.md R6). -/
def execTickWith (N : Numerics) (arg : Arg) (s : State) : Result State := tick N (encode (.tick arg)) s

/-- `TICK` on this hardware (R150). -/
def execTick (arg : Arg) (s : State) : Result State := execTickWith hardwareNumerics arg s

end Sys2Proof.Machine
end

