-- ==== Sys2Proof/Machine/Dispatch.lean ====
section
/-! DEFINITION. One arm per row of spec/opcode_table.json: the meaning of every command (30_encoding.md R104, R105). -/

namespace Sys2Proof.Machine

def exec (i : Instr) (s : State) : Host.Outcome State Fault Refusal :=
  match i with
  | .tick arg => Sys2Proof.Machine.execTick arg s
  | .setfreq arg => Sys2Proof.Machine.execSetfreq arg s
  | .queue arg => Sys2Proof.Machine.execQueue arg s
  | .noteon arg => Sys2Proof.Machine.execNoteon arg s
  | .noteoff arg => Sys2Proof.Machine.execNoteoff arg s
  | .clrerr arg => Sys2Proof.Machine.execClrerr arg s
  | .setfshift arg => Sys2Proof.Machine.execSetfshift arg s
  | .setpspeed arg => Sys2Proof.Machine.execSetpspeed arg s
  | .illegal80 op arg => Sys2Proof.Machine.execIllegal80 op arg s
  | .illegal40 op arg => Sys2Proof.Machine.execIllegal40 op arg s
  | .illegal20 op arg => Sys2Proof.Machine.execIllegal20 op arg s
  | .illegal10 op arg => Sys2Proof.Machine.execIllegal10 op arg s
  | .illegal08 op arg => Sys2Proof.Machine.execIllegal08 op arg s

end Sys2Proof.Machine
end

