-- ==== Sys2Proof/Machine/Port.lean ====
section
/-! DEFINITION. The command port, the reset input and the configuration inputs (30_encoding.md R100, R101,
70_reset_and_hazards.md R270): how the next input is taken, which is this machine's fetch, what reset does while it is asserted
and when it is released, and the step over any meaning of the instructions. -/

namespace Sys2Proof.Machine

/-- The input presented next, and the state once it has been taken from the port (R100; log 1). -/
def takeInput (s : State) : Option (Input × State) :=
  match s.port with
  | [] => none
  | x :: rest => some (x, s.setPort rest)

/-- The reset state for these inputs: every register at R48's value (10_state.md). The size of the pool and the capacity of
the queue are parameters of the block and stay (00_scope.md R6), and so does what the host presents next. -/
def resetState (inputs : ConfigInputs) (s : State) : State := (State.resetWith s.poolSize s.qdepth inputs).setPort s.port

/-- The state while reset is asserted with these configuration inputs driven: the registers, and with them the outputs, hold
their reset values (R270; log 6). -/
def holdReset (inputs : ConfigInputs) (s : State) : State := (resetState inputs s).setResetAsserted true

/-- The reset input is asserted (R270). -/
def assertReset (s : State) : State := holdReset s.inputs s

/-- The reset input is released: every register has its reset value, the inputs are taken as they then stand (R270). Where
reset is not asserted there is nothing to release (DESIGN CHOICE, log 6). -/
def releaseReset (s : State) : State := if s.resetAsserted then resetState s.inputs s else s

/-- The host drives the configuration inputs: free while reset is asserted, constant from its release on (10_state.md R41, R270;
93_implementation_defined.md U7: "refuse"). -/
def driveConfiguration (inputs : ConfigInputs) (s : State) : Result State :=
  if s.resetAsserted then .next (holdReset inputs s)
  else if inputs = s.inputs then .next s
  else .refused .configurationChanged

/-- A command word presented at the port: performed, unless reset is asserted: then the block accepts none (R100, R270; log 6
says that the word is lost). -/
def acceptCommand (meaning : Instr → State → Result State) (w : Command) (s : State) : Result State :=
  if s.resetAsserted then .next s else meaning (decode w) s

/-- One step for the given meaning of the instructions: the block takes the next input and performs it completely (00_scope.md
R8, R100). With nothing presented nothing happens (60_exceptions.md R250; log 1). -/
def stepBy (meaning : Instr → State → Result State) (s : State) : Result State :=
  match takeInput s with
  | none => .next s
  | some (.command w, s1) => acceptCommand meaning w s1
  | some (.assertReset, s1) => .next (assertReset s1)
  | some (.configure inputs, s1) => driveConfiguration inputs s1
  | some (.releaseReset, s1) => .next (releaseReset s1)

/-- The command word stored where the port presents its next word, in place of what stood there, and reset not asserted, so
that the word is accepted. -/
def presentCommand (w : Command) (s : State) : State :=
  (s.setPort (.command w :: s.port.tail)).setResetAsserted false

end Sys2Proof.Machine
end

