-- ==== Sys2Proof/Machine/Step.lean ====
section
/-! DEFINITION. One step of this hardware: the block takes the next input and performs it completely (00_scope.md R8,
30_encoding.md R100). Machine/Parametric.lean has the step for every value of the numeric parameters. -/

namespace Sys2Proof.Machine

/-- One step of the machine. -/
def step (s : State) : Host.Outcome State Fault Refusal := stepBy exec s

/-- The state with a table row's word presented next at the command port; the bits above `nbits` are 0. -/
def State.withFetchWord (s : State) (nbits w : Nat) : State := presentCommand (BitVec.ofNat 40 (w % 2 ^ nbits)) s

end Sys2Proof.Machine
end

