-- ==== Sys2Proof/Machine/Assembler.lean ====
section
/-! DEFINITION. The assembler syntax, the pseudo-instructions and the disassembler (30_encoding.md R114 to R116): functions
on text that the step never calls; log 9 names the spellings R114 leaves open (DESIGN CHOICE). -/

namespace Sys2Proof.Machine

/-- A line of the assembler: the commands of R114 and the pseudo-instructions of R115. -/
inductive AsmLine where
  | tick
  | setfreq (hz : Rat)
  | setfreqRaw (arg : Nat)
  | queue (idx : Int)
  | noteon
  | noteoff
  | clrerr (mask : Nat)
  | setfshift
  | setpspeed
  | word (w : Nat)
  | gap
  | rest
  | render (n : Nat)
  | note (idxs : List Int)
  | clrall
  deriving DecidableEq, Repr

/-- The word of a command whose argument is a number; an argument of 32 bits or more is an assembly error (R114). -/
def asmArg (op : Opcode) (n : Nat) : Option Command :=
  if n < 2 ^ 32 then some (mkCommand op (BitVec.ofNat 32 n)) else none

/-- `queue <idx>` with `idx` in `-2^31 .. 2^31 - 1`: `idx mod 2^32` (R114). -/
def asmQueue (idx : Int) : Option Command :=
  if -2 ^ 31 ≤ idx ∧ idx < 2 ^ 31 then some (mkCommand 0x02#8 (BitVec.ofInt 32 idx)) else none

/-- The words of a list of `queue` lines, in order (R115). -/
def asmQueues : List Int → Option (List Command)
  | [] => some []
  | i :: is =>
    match asmQueue i, asmQueues is with
    | some w, some ws => some (w :: ws)
    | _, _ => none

/-- The words a line assembles to, `none` for an assembly error (R114, R115). -/
def AsmLine.words : AsmLine → Option (List Command)
  | .tick => some [mkCommand 0x00#8 0]
  | .setfreq hz => if hz < 0 then none else (asmArg 0x01#8 (hz * 65536 + 1 / 2).floor.toNat).map fun w => [w]
  | .setfreqRaw arg => (asmArg 0x01#8 arg).map fun w => [w]
  | .queue idx => (asmQueue idx).map fun w => [w]
  | .noteon => some [mkCommand 0x03#8 0]
  | .noteoff => some [mkCommand 0x04#8 0]
  | .clrerr mask => if mask ≤ 0x1FF then some [mkCommand 0x05#8 (BitVec.ofNat 32 mask)] else none
  | .setfshift => some [mkCommand 0x06#8 0]
  | .setpspeed => some [mkCommand 0x07#8 0]
  | .word w => if w < 2 ^ 40 then some [BitVec.ofNat 40 w] else none
  | .gap => some [mkCommand 0x02#8 0xFFFFFFFF#32]
  | .rest => some [mkCommand 0x02#8 0xFFFFFFFF#32]
  | .render n => some (List.replicate n (mkCommand 0x00#8 0))
  | .note idxs => (asmQueues idxs).map fun ws => ws ++ [mkCommand 0x03#8 0]
  | .clrall => some [mkCommand 0x05#8 0x1FF#32]

/-! ### Text -/

/-- The value of a digit in bases up to 16. -/
def digitValue (c : Char) : Option Nat :=
  if 48 ≤ c.toNat ∧ c.toNat ≤ 57 then some (c.toNat - 48)
  else if 97 ≤ c.toNat ∧ c.toNat ≤ 102 then some (c.toNat - 87)
  else if 65 ≤ c.toNat ∧ c.toNat ≤ 70 then some (c.toNat - 55)
  else none

/-- The number that digits of a base continue. -/
def readDigits (base : Nat) : Nat → List Char → Option Nat
  | acc, [] => some acc
  | acc, c :: cs =>
    match digitValue c with
    | some d => if d < base then readDigits base (acc * base + d) cs else none
    | none => none

/-- A decimal number: at least one digit. -/
def readDecimal : List Char → Option Nat
  | [] => none
  | c :: cs => readDigits 10 0 (c :: cs)

/-- A number in decimal, or in hexadecimal after a small `0x` (R114; log 9 names the spelling of the hexadecimal digits). -/
def readNumber : List Char → Option Nat
  | '0' :: 'x' :: c :: cs => readDigits 16 0 (c :: cs)
  | cs => readDecimal cs

/-- A decimal integer with an optional sign (R114). -/
def readInteger : List Char → Option Int
  | '-' :: cs => (readDecimal cs).map fun n => -(n : Int)
  | cs => (readDecimal cs).map fun n => (n : Int)

/-- A non-negative decimal number, such as `200`, `440.0`, `0.5` (R114). -/
def readHertz (cs : List Char) : Option Rat :=
  match cs.span fun c => c != '.' with
  | (whole, []) => (readDecimal whole).map fun n => (n : Rat)
  | (whole, _ :: frac) =>
    match readDecimal whole, readDecimal frac with
    | some n, some f => some ((n : Rat) + (f : Rat) / (10 : Rat) ^ frac.length)
    | _, _ => none

/-- Mnemonics are case-insensitive (R114). -/
def lowerChar (c : Char) : Char := if 65 ≤ c.toNat ∧ c.toNat ≤ 90 then Char.ofNat (c.toNat + 32) else c

/-- The words of a line separated by spaces, tabs and carriage returns; the first argument is the word under way. -/
def splitWords : List Char → List Char → List (List Char)
  | cur, [] => if cur.isEmpty then [] else [cur]
  | cur, c :: cs =>
    if c = ' ' ∨ c = '\t' ∨ c = '\r' then
      if cur.isEmpty then splitWords [] cs else cur :: splitWords [] cs
    else splitWords (cur ++ [c]) cs

/-- Every word of a list read as an integer. -/
def readIntegers : List (List Char) → Option (List Int)
  | [] => some []
  | t :: ts =>
    match readInteger t, readIntegers ts with
    | some i, some is => some (i :: is)
    | _, _ => none

/-- A line with a mnemonic and its operand words (R114, R115). DESIGN CHOICE (log 9), where R114 and R115 name no number base:
`<n>` of `render` and the indices of `note` are decimal only; `<u40>` of `.word` is decimal or `0x` hexadecimal; `note` has at
least one index. -/
def readCommand (mnemonic : List Char) (operands : List (List Char)) : Option AsmLine :=
  match mnemonic, operands with
  | ['t', 'i', 'c', 'k'], [] => some .tick
  | ['s', 'e', 't', 'f', 'r', 'e', 'q'], [t] => (readHertz t).map .setfreq
  | ['s', 'e', 't', 'f', 'r', 'e', 'q', '.', 'r', 'a', 'w'], [t] => (readNumber t).map .setfreqRaw
  | ['q', 'u', 'e', 'u', 'e'], [t] => (readInteger t).map .queue
  | ['n', 'o', 't', 'e', 'o', 'n'], [] => some .noteon
  | ['n', 'o', 't', 'e', 'o', 'f', 'f'], [] => some .noteoff
  | ['c', 'l', 'r', 'e', 'r', 'r'], [t] => (readNumber t).map .clrerr
  | ['s', 'e', 't', 'f', 's', 'h', 'i', 'f', 't'], [] => some .setfshift
  | ['s', 'e', 't', 'p', 's', 'p', 'e', 'e', 'd'], [] => some .setpspeed
  | ['.', 'w', 'o', 'r', 'd'], [t] => (readNumber t).map .word
  | ['g', 'a', 'p'], [] => some .gap
  | ['r', 'e', 's', 't'], [] => some .rest
  | ['r', 'e', 'n', 'd', 'e', 'r'], [t] => (readDecimal t).map .render
  | ['n', 'o', 't', 'e'], t :: ts => (readIntegers (t :: ts)).map .note
  | ['c', 'l', 'r', 'a', 'l', 'l'], [] => some .clrall
  | _, _ => none

/-- The words of one line of text: `#` starts a comment, a blank line assembles to nothing, `none` is an error (R114). -/
def assembleLine (line : List Char) : Option (List Command) :=
  match splitWords [] (line.takeWhile fun c => c != '#') with
  | [] => some []
  | m :: ts =>
    match readCommand (m.map lowerChar) ts with
    | some l => l.words
    | none => none

/-- The words of a program, line by line in order (R114). -/
def assembleProgram : List (List Char) → Option (List Command)
  | [] => some []
  | l :: ls =>
    match assembleLine l, assembleProgram ls with
    | some ws, some more => some (ws ++ more)
    | _, _ => none

/-! ### Disassembly (R116) -/

/-- The line a word disassembles to (R116). -/
def disassemble (w : Command) : AsmLine :=
  match decode w with
  | .tick _ => .tick
  | .setfreq arg => .setfreqRaw arg.toNat
  | .queue arg => .queue arg.toInt
  | .noteon _ => .noteon
  | .noteoff _ => .noteoff
  | .clrerr arg => .clrerr (arg &&& 0x1FF#32).toNat
  | .setfshift _ => .setfshift
  | .setpspeed _ => .setpspeed
  | .illegal80 _ _ => .word w.toNat
  | .illegal40 _ _ => .word w.toNat
  | .illegal20 _ _ => .word w.toNat
  | .illegal10 _ _ => .word w.toNat
  | .illegal08 _ _ => .word w.toNat

/-- A digit of a base up to 16. -/
def digitChar (d : Nat) : Char := Char.ofNat (if d < 10 then d + 48 else d + 87)

/-- A number in `k` digits of a base. -/
def printDigits (base : Nat) : Nat → Nat → List Char
  | 0, _ => []
  | k + 1, n => printDigits base k (n / base) ++ [digitChar (n % base)]

/-- A number below `10^(k+1)` in decimal without leading zeros. -/
def printDecimal : Nat → Nat → List Char
  | 0, n => [digitChar (n % 10)]
  | k + 1, n => if n < 10 then [digitChar n] else printDecimal k (n / 10) ++ [digitChar (n % 10)]

/-- A number in hexadecimal, `k` digits after `0x`. -/
def printHex (k n : Nat) : List Char := '0' :: 'x' :: printDigits 16 k n

/-- The text of a word's line (R116). -/
def disassembleText (w : Command) : List Char :=
  match disassemble w with
  | .tick => ['t', 'i', 'c', 'k']
  | .setfreqRaw arg => ['s', 'e', 't', 'f', 'r', 'e', 'q', '.', 'r', 'a', 'w', ' '] ++ printHex 8 arg
  | .queue idx =>
    ['q', 'u', 'e', 'u', 'e', ' '] ++ (if idx < 0 then '-' :: printDecimal 9 idx.natAbs else printDecimal 9 idx.natAbs)
  | .noteon => ['n', 'o', 't', 'e', 'o', 'n']
  | .noteoff => ['n', 'o', 't', 'e', 'o', 'f', 'f']
  | .clrerr mask => ['c', 'l', 'r', 'e', 'r', 'r', ' '] ++ printHex 3 mask
  | .setfshift => ['s', 'e', 't', 'f', 's', 'h', 'i', 'f', 't']
  | .setpspeed => ['s', 'e', 't', 'p', 's', 'p', 'e', 'e', 'd']
  | _ => ['.', 'w', 'o', 'r', 'd', ' '] ++ printHex 10 w.toNat

end Sys2Proof.Machine
end

