-- ==== Sys2Proof/Machine/Loader.lean ====
section
/-! DEFINITION. The voice file and its loader (20_memory.md R70 to R79). These are HOST duties, outside the block's step
(00_scope.md R5): the contents of `WT`, `SEG` and `HDR` are defined through them, so they are modelled as functions that
the step never calls (log 8). -/

namespace Sys2Proof.Machine

/-- A name of a phoneme or a segment: its bytes without the terminator (R73). -/
abbrev ByteName := List Byte

/-- The host's view of a loaded voice file: the block's database, and the name tables the block does not hold (R60, R74, R79). -/
structure VoiceFile where
  db : Database
  phonemes : List ByteName
  segmentNames : List ByteName
  deriving DecidableEq, Repr

/-- One record of the segment table as the file has it (R75). -/
structure SegRecord where
  name : ByteName
  numFrames : Nat
  isLong : Bool
  deriving DecidableEq, Repr

/-- The 12 bytes "ODDVOICES" and three NUL bytes (R71). -/
def magicWord : List Byte :=
  [0x4F, 0x44, 0x44, 0x56, 0x4F, 0x49, 0x43, 0x45, 0x53, 0x00, 0x00, 0x00]

/-- An `int32`: four bytes, least significant first, two's complement (R72). -/
def takeInt32 : List Byte → Option (Int × List Byte)
  | b0 :: b1 :: b2 :: b3 :: rest => some ((b3 ++ b2 ++ b1 ++ b0).toInt, rest)
  | _ => none

/-- The bytes up to the first NUL byte, and what follows it (R73). -/
def takeUntilNul : List Byte → Option (ByteName × List Byte)
  | [] => none
  | b :: bs =>
    if b = 0 then some ([], bs)
    else match takeUntilNul bs with
      | some (name, rest) => some (b :: name, rest)
      | none => none

/-- A string: at most 255 bytes before the terminator (R73; a longer one is a load failure, D25). -/
def takeString (bs : List Byte) : Option (ByteName × List Byte) :=
  match takeUntilNul bs with
  | some (name, rest) => if name.length ≤ 255 then some (name, rest) else none
  | none => none

/-- The phoneme table, ended by an empty string (R74). The first argument bounds the number of strings. -/
def takePhonemes : Nat → List Byte → Option (List ByteName × List Byte)
  | 0, _ => none
  | k + 1, bs =>
    match takeString bs with
    | none => none
    | some ([], rest) => some ([], rest)
    | some (b :: name, rest) =>
      match takePhonemes k rest with
      | some (names, rest2) => some ((b :: name) :: names, rest2)
      | none => none

/-- The `numFrames` and `isLong` of a segment record: below 1, or other than 0 and 1, is a load failure (R75, D25). -/
def takeSegFields (name : ByteName) (bs : List Byte) : Option (SegRecord × List Byte) :=
  match takeInt32 bs with
  | none => none
  | some (frames, rest) =>
    match takeInt32 rest with
    | none => none
    | some (long, rest2) =>
      if 1 ≤ frames ∧ (long = 0 ∨ long = 1) then
        some ({ name := name, numFrames := frames.toNat, isLong := decide (long = 1) }, rest2)
      else none

/-- The segment table, ended by an empty name (R75). The first argument bounds the number of records. -/
def takeSegments : Nat → List Byte → Option (List SegRecord × List Byte)
  | 0, _ => none
  | k + 1, bs =>
    match takeString bs with
    | none => none
    | some ([], rest) => some ([], rest)
    | some (b :: name, rest) =>
      match takeSegFields (b :: name) rest with
      | none => none
      | some (r, rest2) =>
        match takeSegments k rest2 with
        | some (records, rest3) => some (r :: records, rest3)
        | none => none

/-- The descriptors of the records, offsets summed in the single pass (R77). -/
def placeSegments (gl : Nat) : Nat → List SegRecord → List SegDesc
  | _, [] => []
  | off, r :: rs =>
    { numFrames := r.numFrames, isLong := r.isLong, offset := BitVec.ofNat 32 off }
      :: placeSegments gl (off + r.numFrames * gl) rs

/-- The database of a parsed file, if every check of R76 and R278 passes. -/
def buildDatabase (rate grain : Int) (records : List SegRecord) (wave : List Byte) : Option Database :=
  let gl := grain.toNat
  let seg := placeSegments gl 0 records
  let wtlen := totalSamples gl seg
  if 1 ≤ rate ∧ 1 ≤ grain ∧ records.length ≤ 2 ^ 31 - 1 ∧ wtlen < 2 ^ 32 ∧ wave.length = 2 * wtlen then
    some { valid := true, dbsr := rate.toNat, gl := gl, nseg := records.length, wtlen := wtlen, seg := seg,
           wt := Memory.ofBytes 0 wave }
  else none

/-- The loader (R77): `none` is a load failure (R78). -/
def loadVoiceFile (file : List Byte) : Option VoiceFile :=
  if file.take 12 ≠ magicWord then none
  else match takeInt32 (file.drop 12) with
    | none => none
    | some (rate, r1) =>
      match takeInt32 r1 with
      | none => none
      | some (grain, r2) =>
        match takePhonemes file.length r2 with
        | none => none
        | some (phonemes, r3) =>
          match takeSegments file.length r3 with
          | none => none
          | some (records, wave) =>
            match buildDatabase rate grain records wave with
            | none => none
            | some db => some { db := db, phonemes := phonemes, segmentNames := records.map SegRecord.name }

/-- What the host drives after loading a file: the database, or the zeroed one with `DBVALID = 0` (R78, R273). -/
def loadedDatabase (file : List Byte) : Database :=
  match loadVoiceFile file with
  | some v => v.db
  | none => Database.zeroed

/-! ### Lookups of the host (R79) -/

/-- The host's error for an invalid index (R69, R79). -/
inductive HostError where
  | IndexOutOfRange
  deriving DecidableEq, Repr

/-- The index of the first name equal to the one sought, counted from `i`; -1 when none is (R79). -/
def indexOfName (name : ByteName) : Int → List ByteName → Int
  | _, [] => -1
  | i, n :: ns => if n = name then i else indexOfName name (i + 1) ns

/-- The name at an index (R79). -/
def nameAtIndex (names : List ByteName) (i : Int) : Except HostError ByteName :=
  if i < 0 then .error .IndexOutOfRange
  else match names[i.toNat]? with
    | some n => .ok n
    | none => .error .IndexOutOfRange

/-- `segmentToSegmentIndex(name)` (R79). -/
def VoiceFile.segmentToSegmentIndex (v : VoiceFile) (name : ByteName) : Int := indexOfName name 0 v.segmentNames

/-- `segmentIndexToSegment(index)` (R79). -/
def VoiceFile.segmentIndexToSegment (v : VoiceFile) (i : Int) : Except HostError ByteName := nameAtIndex v.segmentNames i

/-- `phonemeToPhonemeIndex(name)` (R79). -/
def VoiceFile.phonemeToPhonemeIndex (v : VoiceFile) (name : ByteName) : Int := indexOfName name 0 v.phonemes

/-- `phonemeIndexToPhoneme(index)` (R79). -/
def VoiceFile.phonemeIndexToPhoneme (v : VoiceFile) (i : Int) : Except HostError ByteName := nameAtIndex v.phonemes i

/-- A descriptor field by index, with the sentinel's short-circuit value (R68, R79). -/
def segmentField {α : Type} (v : VoiceFile) (sentinel : α) (field : SegDesc → α) (i : Int) : Except HostError α :=
  if i = -1 then .ok sentinel
  else if i < 0 then .error .IndexOutOfRange
  else match v.db.seg[i.toNat]? with
    | some d => .ok (field d)
    | none => .error .IndexOutOfRange

/-- `segmentNumFrames(index)` (R79). -/
def VoiceFile.segmentNumFrames (v : VoiceFile) (i : Int) : Except HostError Nat := segmentField v 0 SegDesc.numFrames i

/-- `segmentIsLong(index)` (R79). -/
def VoiceFile.segmentIsLong (v : VoiceFile) (i : Int) : Except HostError Bool := segmentField v false SegDesc.isLong i

/-- `segmentOffset(index)` (R79). -/
def VoiceFile.segmentOffset (v : VoiceFile) (i : Int) : Except HostError WordAddr := segmentField v 0 SegDesc.offset i

end Sys2Proof.Machine
end

