-- ==== Sys2Proof/Machine/Parametric.lean ====
section
/-! DEFINITION. The machine with the numeric parameters `NUM.q` and `NUM.mixround` as arguments (00_scope.md R6, 10_state.md R46):
functions cannot stand in the state, so they are arguments of the instructions' meanings, of the step and of the core. This
hardware's `exec`, `step` and `core` are these at `hardwareNumerics` (Laws/Parametric.lean). Only the rows that write a
real-typed register depend on them: TICK and SETFREQ. -/

namespace Sys2Proof.Machine

/-- The meaning of every command for the given numeric parameters (R6, R12, R133). -/
def execWith (N : Numerics) (i : Instr) (s : State) : Result State :=
  match i with
  | .tick arg => execTickWith N arg s
  | .setfreq arg => execSetfreqWith N arg s
  | .queue arg => execQueue arg s
  | .noteon arg => execNoteon arg s
  | .noteoff arg => execNoteoff arg s
  | .clrerr arg => execClrerr arg s
  | .setfshift arg => execSetfshift arg s
  | .setpspeed arg => execSetpspeed arg s
  | .illegal80 op arg => execIllegal80 op arg s
  | .illegal40 op arg => execIllegal40 op arg s
  | .illegal20 op arg => execIllegal20 op arg s
  | .illegal10 op arg => execIllegal10 op arg s
  | .illegal08 op arg => execIllegal08 op arg s

/-- The step function of R46, with the numeric parameters as an argument; the other parameters are fields of the state that
no instruction writes. -/
def stepWith (N : Numerics) (s : State) : Result State := stepBy (execWith N) s

/-- The machine as the host runs it, for the given numeric parameters. -/
def coreWith (N : Numerics) : Host.Core :=
  { State := State, Fault := Fault, Refusal := Refusal, step := stepWith N, reset := State.reset }

/-- `k` steps for the given numeric parameters, stopping at the first fault or refusal. -/
def State.runWith (N : Numerics) (k : Nat) (s : State) : Result State := (coreWith N).run k s

end Sys2Proof.Machine
end

