-- ==== Sys2Proof/Safety.lean ====
section
/-! DEFINITION. What the spec promises of every reachable state (10_state.md R47 and the ranges of R22 to R45), what a safe
step is (00_scope.md R9: the step function is total), and what can be observed of a run. -/

namespace Sys2Proof.Machine

/-- -1 or a segment index in `0..NSEG-1` (R47 (c)). -/
def Database.validIndex (db : Database) (i : SegIndex) : Bool := i == gapToken || decide (i.toNat < db.nseg)

/-- The frame at a word address lies inside the slice of one segment (40_grain.md R136, R47 (e)). -/
def Database.inSlice (db : Database) (off : WordAddr) : Bool :=
  db.seg.any fun d =>
    decide (d.offset.toNat ≤ off.toNat) && decide (off.toNat + db.gl ≤ d.offset.toNat + d.numFrames * db.gl)

/-- Every read of the frame at a word address is inside the wavetable, and inside one segment (R47 (e)). -/
def Database.frameOk (db : Database) (off : WordAddr) : Bool := decide (off.toNat + db.gl ≤ db.wtlen) && db.inSlice off

/-- What holds of a slot: R40's range, R38's ranges, and for an active slot that every read it will make is inside the
wavetable and inside one segment (R47 (a), (d), (e)). -/
def Grain.ok (db : Database) (g : Grain) : Bool :=
  decide (0 ≤ g.crossfadeMix) && decide (g.crossfadeMix ≤ 1) && decide (g.readPosition ≤ db.gl)
    && (!g.active || (decide (g.readPosition < db.gl) && db.frameOk g.offset1
      && (g.crossfadeMix == 0 || db.frameOk g.offset2)))

/-- The queue holds at most `QDEPTH` entries (R24). -/
def State.queueFits (s : State) : Bool :=
  match s.qdepth with
  | some d => decide (s.queue.length ≤ d)
  | none => true

/-- What the host owes in what it will present (70_reset_and_hazards.md R270, R273, R276, R278): it drives other configuration
inputs only while reset is asserted, and well-formed ones by the time it releases it. The first two arguments are the level of
the reset input and the inputs driven so far. -/
def portOk : Bool → ConfigInputs → List Input → Bool
  | _, _, [] => true
  | asserted, inputs, .command _ :: rest => portOk asserted inputs rest
  | _, inputs, .assertReset :: rest => portOk true inputs rest
  | asserted, inputs, .configure driven :: rest => (asserted || decide (driven = inputs)) && portOk asserted driven rest
  | asserted, inputs, .releaseReset :: rest => (!asserted || inputs.wellFormed) && portOk false inputs rest

/-- R47, with the ranges of the registers' own rules: what holds of a block out of reset. `inputs_ok` is the precondition the
spec puts on the host (R276, R278); the rest is what the engine keeps. -/
structure RunInv (s : State) : Prop where
  /-- R276, R278. -/
  inputs_ok : s.inputs.wellFormed = true
  /-- R22. -/
  frequency_range : 0 ≤ s.frequency ∧ s.frequency < 65536
  /-- R47 (f). -/
  phase_nonneg : 0 ≤ s.phase
  /-- R47 (f). -/
  segmentTime_nonneg : 0 ≤ s.segmentTime
  /-- R47 (f). -/
  oldSegmentTime_nonneg : 0 ≤ s.oldSegmentTime
  /-- R47 (f). -/
  segmentLength_nonneg : 0 ≤ s.segmentLength
  /-- R24. -/
  queue_fits : s.queueFits = true
  /-- R47 (c). -/
  queue_valid : ∀ i ∈ s.queue, s.db.validIndex i = true
  /-- R47 (c). -/
  segment_valid : s.db.validIndex s.segment = true
  /-- R47 (c). -/
  oldSegment_valid : s.db.validIndex s.oldSegment = true
  /-- R47 (a). -/
  crossfade_range : 0 ≤ s.crossfade ∧ s.crossfade ≤ 1
  /-- R47 (b). -/
  crossfade_old : s.crossfade ≠ 0 → s.oldSegment ≠ gapToken
  /-- R31. -/
  ramp_values : s.crossfadeRamp = 0 ∨ s.crossfadeRamp = s.fullRamp
  /-- R47 (h). -/
  ramp_cleared : s.crossfade = 0 → s.crossfadeRamp = 0
  /-- R47 (g). -/
  idle_length : s.segment = gapToken → s.segmentLength = 0
  /-- R35. -/
  nextGrain_range : s.nextGrain < s.poolSize
  /-- R47 (a), (d), (e), R38. -/
  grains_ok : ∀ g ∈ s.pool, g.ok s.db = true
  /-- R47 (i). -/
  status_reserved : s.status &&& 0xC0#8 = 0
  /-- R43: bit 43 is `valid`, and the whole register is 0 when it is 0. -/
  lasterr_valid : lasterrValid s.lasterr = false → s.lasterr = 0
  /-- R43, R248: the codes are 0 to 5. -/
  lasterr_code : (lasterrCode s.lasterr).toNat ≤ 5

/-- What holds of every reachable state: R47 while the block runs, and R270 while reset is asserted: every register at its reset
value. `pool_size` and `port_ok` are the preconditions on the parameters and on the host. -/
structure EngineInv (s : State) : Prop where
  /-- 00_scope.md R6. -/
  pool_size : 1 ≤ s.poolSize ∧ s.poolSize ≤ Config.poolMax
  /-- R270, R273: what the host will present. -/
  port_ok : portOk s.resetAsserted s.inputs s.port = true
  /-- R47. -/
  running : s.resetAsserted = false → RunInv s
  /-- R270. -/
  held : s.resetAsserted = true → s = holdReset s.inputs s

/-- The ranges that hold whatever admissible numeric parameters an implementation takes (00_scope.md R12, R47 (a), (f)). -/
structure RealRanges (s : State) : Prop where
  frequency : 0 ≤ s.frequency
  phase : 0 ≤ s.phase
  segmentTime : 0 ≤ s.segmentTime
  oldSegmentTime : 0 ≤ s.oldSegmentTime
  crossfade : 0 ≤ s.crossfade ∧ s.crossfade ≤ 1
  crossfadeRamp : s.crossfadeRamp ≤ 0
  mixes : ∀ g ∈ s.pool, 0 ≤ g.crossfadeMix ∧ g.crossfadeMix ≤ 1

/-- A safe state: the next step gives a next state, and is no fault and no refusal (R9). -/
def Safe (s : State) : Prop := ∃ t, step s = .next t

/-- `k` steps of the machine, stopping at the first fault or refusal (the host's run, at the model's own types). -/
def State.run (k : Nat) (s : State) : Result State := Sys2Proof.core.run k s

/-- The commands presented at the port, in order, and nothing after them. -/
def State.present (s : State) (ws : List Command) : State := s.setPort (ws.map Input.command)

/-- A `TICK` in this state is not ended by the steps 0, 1 or 2: it reaches the steps 5 to 7 (41_tick_sequencer.md R150). -/
def State.tickRuns (s : State) : Bool :=
  s.inputs.db.valid && (s.segment != gapToken || (s.noteOns != 0 && !s.queue.isEmpty))

/-- Two states that differ at most in the command word `LASTERR` records (30_encoding.md R108). -/
def State.sameButRecord (s t : State) : Prop :=
  t = { s with lasterr := t.lasterr } ∧ lasterrValid t.lasterr = lasterrValid s.lasterr ∧
    lasterrCode t.lasterr = lasterrCode s.lasterr

/-- Two commands with the same effect, the recorded command word apart (R108). -/
def sameEffect (r r' : Result State) : Prop :=
  ∀ t, r = .next t → ∃ t', r' = .next t' ∧ t.sameButRecord t'

/-- The samples of a slot over `k` ticks that reach step 7, in order, and the slot after them (40_grain.md R134). -/
def playGrain (N : Numerics) (db : Database) : Nat → Grain → Result (List Int × Grain)
  | 0, g => .next ([], g)
  | k + 1, g =>
    Result.andThen (grainProcess N db g) fun one =>
      Result.andThen (playGrain N db k one.2) fun more => .next (one.1 :: more.1, more.2)

/-- What can be observed of the steps from a state (R9): the outputs after each step, as long as it gives a next state. -/
def observe : Nat → State → List Outputs
  | 0, _ => []
  | k + 1, s =>
    match step s with
    | .next t => t.outputs :: observe k t
    | .fault _ => []
    | .refused _ => []

end Sys2Proof.Machine
end

