-- ==== Sys2Proof/Certificates/Slice0/Obligations.lean ====
section
/-! DEFINITION. The statements about OVGE for the provers. Each docstring names the rule of spec/ a statement comes from. An
equation `exec i s = .next …` is also the statement that the instruction completes. -/

open Sys2Proof Sys2Proof.Machine

/-! ### Encoding -/

/-- R102, R105: decoding the word of a well-formed instruction gives the instruction back, every operand bit included. -/
def Obligations.DecodeEncodeAgree : Prop :=
  ∀ i : Instr, i.wellFormed = true → decode (encode i) = i

/-- R104, R108: every word is the word of the well-formed instruction it decodes to, so no bit of a word is lost. -/
def Obligations.EncodeDecodeAgree : Prop :=
  ∀ w : Command, (decode w).wellFormed = true ∧ encode (decode w) = w

/-- R104, R105: the opcode map. -/
def Obligations.DecodeFollowsOpcodeMap : Prop :=
  ∀ arg : Arg,
    decode (0x00#8 ++ arg) = .tick arg ∧ decode (0x01#8 ++ arg) = .setfreq arg ∧ decode (0x02#8 ++ arg) = .queue arg ∧
    decode (0x03#8 ++ arg) = .noteon arg ∧ decode (0x04#8 ++ arg) = .noteoff arg ∧
    decode (0x05#8 ++ arg) = .clrerr arg ∧ decode (0x06#8 ++ arg) = .setfshift arg ∧
    decode (0x07#8 ++ arg) = .setpspeed arg ∧
    ∀ op : Opcode, 8 ≤ op.toNat → (decode (op ++ arg)).mnemonic = .ILLEGAL

/-- R104 and spec/opcode_table.json: exactly one row of the table accepts a word, and it has the mnemonic the decoder gives. -/
def Obligations.EveryWordHasOneTableRow : Prop :=
  ∀ w : Command, (opcodeTable.filter fun r => r.accepts w).map OpcodeRow.mnemonic = [(decode w).mnemonic]

/-- 95_test_vectors.md 3.1: words of the spec and what they decode to. -/
def Obligations.SpecWordsDecode : Prop :=
  decode 0x00FFFFFFFF#40 = .tick 0xFFFFFFFF#32 ∧ decode 0x0101B80000#40 = .setfreq 0x01B80000#32 ∧
  decode 0x02FFFFFFFE#40 = .queue 0xFFFFFFFE#32 ∧ decode 0x03DEADBEEF#40 = .noteon 0xDEADBEEF#32 ∧
  decode 0x0400000000#40 = .noteoff 0#32 ∧ decode 0x0500000240#40 = .clrerr 0x240#32 ∧
  decode 0x0600000000#40 = .setfshift 0#32 ∧ decode 0x0700000000#40 = .setpspeed 0#32 ∧
  decode 0x09DEADBEEF#40 = .illegal08 0x09#8 0xDEADBEEF#32 ∧ decode 0xFF00000000#40 = .illegal80 0xFF#8 0#32

/-- R108: ignored bits are not checked and have no effect but in the word `LASTERR` records. -/
def Obligations.IgnoredBitsHaveNoEffect : Prop :=
  ∀ (s : State) (a b : Arg),
    sameEffect (exec (.tick a) s) (exec (.tick b) s) ∧ sameEffect (exec (.noteon a) s) (exec (.noteon b) s) ∧
    sameEffect (exec (.noteoff a) s) (exec (.noteoff b) s) ∧
    sameEffect (exec (.setfshift a) s) (exec (.setfshift b) s) ∧
    sameEffect (exec (.setpspeed a) s) (exec (.setpspeed b) s) ∧
    (∀ op : Opcode, 8 ≤ op.toNat → sameEffect (exec (decode (op ++ a)) s) (exec (decode (op ++ b)) s)) ∧
    (a &&& 0x1FF#32 = b &&& 0x1FF#32 → exec (.clrerr a) s = exec (.clrerr b) s)

/-- R109: the operand of `SETFREQ` is `ARG / 65536`, its integer part plus its fraction in units of 1/65536, inside `[0, 65536)`. -/
def Obligations.FreqOperandIsFixedPoint : Prop :=
  ∀ arg : Arg,
    freqOperand arg = (arg.toNat : Rat) / 65536 ∧
    freqOperand arg = ((arg.extractLsb' 16 16).toNat : Rat) + ((arg.extractLsb' 0 16).toNat : Rat) / 65536 ∧
    0 ≤ freqOperand arg ∧ freqOperand arg ≤ 65535 + 65535 / 65536

/-! ### Reset -/

/-- R48: every piece of state at its reset value, for every size of the pool, capacity of the queue and inputs. -/
def Obligations.ResetPutsEveryRegisterAtItsValue : Prop :=
  ∀ (pool : Nat) (qdepth : Option Nat) (inputs : ConfigInputs),
    let s := State.resetWith pool qdepth inputs
    s.frequency = 200 ∧ s.phase = 0 ∧ s.queue = [] ∧ s.segment.toInt = -1 ∧ s.segmentTime = 0 ∧ s.segmentLength = 0 ∧
    s.oldSegment.toInt = -1 ∧ s.oldSegmentTime = 0 ∧ s.crossfade = 0 ∧ s.crossfadeRamp = 0 ∧ s.noteOns = 0 ∧
    s.noteOffs = 0 ∧ s.nextGrain = 0 ∧ s.pool.length = pool ∧
    (∀ g ∈ s.pool, g.active = false ∧ g.readPosition = 0 ∧ g.offset1 = 0 ∧ g.offset2 = 0 ∧ g.crossfadeMix = 0) ∧
    s.status = 0 ∧ s.lasterr = 0 ∧ s.sample = 0 ∧ s.inputs = inputs ∧ s.qdepth = qdepth ∧ s.resetAsserted = false

/-- R272: `LIVE` after reset, and the first `TICK` after reset with a database emits 0 and changes nothing. The hypothesis
on `qdepth` leaves out a queue of capacity 0, which would be full when empty (R44). -/
def Obligations.FirstTickAfterResetIsSilent : Prop :=
  ∀ (pool : Nat) (qdepth : Option Nat) (inputs : ConfigInputs) (arg : Arg), qdepth ≠ some 0 →
    (State.resetWith pool qdepth inputs).live = (if inputs.db.valid then 0x22#8 else 0x02#8) ∧
    (inputs.db.valid = true →
      exec (.tick arg) (State.resetWith pool qdepth inputs) = .next (State.resetWith pool qdepth inputs))

/-- R272, S5, S6: after reset, a run whose commands hold no `NOTEON`, or no `QUEUE`, emits 0 after every step, with no stop. -/
def Obligations.SilentUntilNoteonAndQueue : Prop :=
  ∀ (pool : Nat) (qdepth : Option Nat) (inputs : ConfigInputs) (ws : List Command) (k : Nat),
    ((∀ w ∈ ws, opcodeOf w ≠ 0x03#8) ∨ (∀ w ∈ ws, opcodeOf w ≠ 0x02#8)) →
    (observe k ((State.resetWith pool qdepth inputs).present ws)).length = k ∧
    ∀ o ∈ observe k ((State.resetWith pool qdepth inputs).present ws), o.sampleOut = 0

/-- R270 (the port and one step for each input are the model's own, log 1 and log 6). Asserting reset puts every register at R48's
value, whatever the state was, with the configuration inputs as they stand. While it is asserted no command is accepted, other
inputs may be driven, and after every input but a release the outputs are the reset values. Releasing it leaves the reset state
for the inputs as they then stand. While it is not asserted, a release changes nothing, nor do the inputs driven as they are;
driving other inputs has no meaning (U7). -/
def Obligations.ResetHoldsThenRestarts : Prop :=
  (∀ (s : State) (rest : List Input), s.port = .assertReset :: rest →
    step s = .next { State.resetWith s.pool.length s.qdepth s.inputs with port := rest, resetAsserted := true }) ∧
  (∀ (s : State) (rest : List Input), s.resetAsserted = true →
    (∀ w, s.port = .command w :: rest → step s = .next { s with port := rest }) ∧
    (∀ inputs, s.port = .configure inputs :: rest →
      step s = .next { State.resetWith s.pool.length s.qdepth inputs with port := rest, resetAsserted := true }) ∧
    (s.port = .releaseReset :: rest →
      step s = .next { State.resetWith s.pool.length s.qdepth s.inputs with port := rest })) ∧
  (∀ (s : State) (rest : List Input) (k : Nat), .releaseReset ∉ rest → s.port = .assertReset :: rest →
    (observe k s).length = k ∧
    ∀ o ∈ observe k s, o.sampleOut = 0 ∧ o.status = 0 ∧ o.lasterr = 0 ∧
      (s.qdepth ≠ some 0 → o.live = 0x02#8 ∨ o.live = 0x22#8)) ∧
  (∀ (s : State) (rest : List Input), s.resetAsserted = false →
    (s.port = .releaseReset :: rest → step s = .next { s with port := rest }) ∧
    (s.port = .configure s.inputs :: rest → step s = .next { s with port := rest }) ∧
    (∀ inputs, inputs ≠ s.inputs → s.port = .configure inputs :: rest → step s = .refused .configurationChanged))

/-! ### Invariants and totality -/

/-- R47: the invariant holds at `State.reset` (the values of log 2). -/
def Obligations.ResetMeetsInvariant : Prop := EngineInv State.reset

/-- R47, R48, R270: the invariant holds after every release of reset with well-formed inputs, and while reset is asserted with
any inputs. -/
def Obligations.EveryResetMeetsInvariant : Prop :=
  ∀ (pool : Nat) (qdepth : Option Nat) (inputs : ConfigInputs), 1 ≤ pool → pool ≤ 65535 →
    (inputs.wellFormed = true → EngineInv (State.resetWith pool qdepth inputs)) ∧
    EngineInv { State.resetWith pool qdepth inputs with resetAsserted := true }

/-- R47, R270: every step keeps the invariant. -/
def Obligations.StepKeepsInvariant : Prop :=
  ∀ s t : State, EngineInv s → step s = .next t → EngineInv t

/-- R9, R104: from every state that meets the invariant a step gives a next state: no fault, no refusal, no hang. -/
def Obligations.InvariantStatesNeverStop : Prop :=
  ∀ s : State, EngineInv s → ∃ t, step s = .next t

/-- R47, R9: a run of any command sequence from reset never stops, and every state it reaches meets the invariant. The steps
after the last command find the port empty (the model's own, log 1). -/
def Obligations.RunsFromResetMeetInvariant : Prop :=
  ∀ (pool : Nat) (qdepth : Option Nat) (inputs : ConfigInputs) (ws : List Command) (k : Nat),
    1 ≤ pool → pool ≤ 65535 → inputs.wellFormed = true →
    ∃ t, State.run k ((State.resetWith pool qdepth inputs).present ws) = .next t ∧ EngineInv t

/-- R26, R29, R200: both segment clocks stay integer multiples of the sample period. -/
def Obligations.SegmentClocksAreTickMultiples : Prop :=
  ∀ s t : State,
    (∃ k m : Nat, s.segmentTime = k / (s.inputs.fs : Rat) ∧ s.oldSegmentTime = m / (s.inputs.fs : Rat)) →
    step s = .next t →
    ∃ k m : Nat, t.segmentTime = k / (t.inputs.fs : Rat) ∧ t.oldSegmentTime = m / (t.inputs.fs : Rat)

/-- R46, R81, R84: no instruction writes the database, `FS` or a parameter: every byte of memory reads as before. -/
def Obligations.NoInstructionWritesMemory : Prop :=
  ∀ (i : Instr) (s t : State), exec i s = .next t →
    (∀ a, Memory.readByte t.inputs.db.wt a = Memory.readByte s.inputs.db.wt a) ∧
    t.inputs = s.inputs ∧ t.qdepth = s.qdepth ∧ t.pool.length = s.pool.length ∧ t.port = s.port ∧
    t.resetAsserted = s.resetAsserted

/-! ### TICK: the early exits -/

/-- R157: without a database a `TICK` reports `E_NODB` and emits 0; nothing else changes. -/
def Obligations.TickWithoutDatabaseReports : Prop :=
  ∀ (s : State) (arg : Arg), s.inputs.db.valid = false →
    exec (.tick arg) s =
      .next { s with status := s.status ||| 0x10#8, lasterr := 0xC#4 ++ (0x00#8 ++ arg), sample := 0 }

/-- R151: a dormant `TICK` writes 0 to `OUT.sample` and nothing else, and so does any number of them in a row. -/
def Obligations.DormantTicksStaySilent : Prop :=
  ∀ s : State, s.inputs.db.valid = true → s.segment.toInt = -1 → s.noteOns = 0 →
    (∀ arg : Arg, exec (.tick arg) s = .next { s with sample := 0 }) ∧
    (∀ args : List Arg, args ≠ [] → s.resetAsserted = false →
      State.run args.length (s.present (args.map fun a => 0x00#8 ++ a)) = .next { s with sample := 0, port := [] })

/-- R152, its waiting half: a pending note-on with an empty queue stays pending; the `TICK` writes 0 to `OUT.sample` and
nothing else. -/
def Obligations.TickWithoutMaterialWaits : Prop :=
  ∀ (s : State) (arg : Arg), s.inputs.db.valid = true → s.segment.toInt = -1 → s.queue = [] →
    exec (.tick arg) s = .next { s with sample := 0 }

/-! ### TICK: the sequencer -/

/-- R160: `NEWSEG`, register by register. `frames` is `SEG.numFrames` of the popped entry (R68). -/
def Obligations.NewSegmentTransition : Prop :=
  ∀ s : State,
    (s.queue = [] → newSeg hardwareNumerics s = .next { s with segment := 0xFFFFFFFF#32, segmentLength := 0 }) ∧
    (∀ (n : SegIndex) (rest : List SegIndex) (frames : Nat), s.queue = n :: rest →
      ((n.toInt = -1 ∧ frames = 0) ∨
        (n.toInt ≠ -1 ∧ n.toNat < s.db.nseg ∧ (s.db.seg[n.toNat]?).map SegDesc.numFrames = some frames)) →
      newSeg hardwareNumerics s =
        .next { s with
          queue := rest, oldSegment := s.segment, oldSegmentTime := s.segmentTime, segment := n, segmentTime := 0,
          segmentLength := (frames : Rat) * (s.db.gl : Rat) / (2 * (s.db.dbsr : Rat)),
          crossfade := if s.segment.toInt = -1 then 0 else 1,
          crossfadeRamp := if s.segment.toInt = -1 then 0 else -1 / (3 / 100 * (s.inputs.fs : Rat)) })

/-- R153: step 3. A pending note-off releases a long segment at once and is consumed; it stays pending while the engine is
idle or the segment is short. -/
def Obligations.NoteOffReleasesLongSegment : Prop :=
  ∀ s : State,
    (s.segment.toInt = -1 ∨ s.noteOffs = 0 → consumeNoteOff hardwareNumerics s = .next s) ∧
    (∀ d : SegDesc, s.segment.toInt ≠ -1 → s.noteOffs ≠ 0 → s.segment.toNat < s.db.nseg →
      s.db.seg[s.segment.toNat]? = some d →
      consumeNoteOff hardwareNumerics s =
        if d.isLong then newSeg hardwareNumerics { s with noteOffs := s.noteOffs - 1 } else .next s)

/-- R154 to R156: step 4. At `segmentTime >= segmentLength - XL` a long segment loops by `segmentTime <- 0` alone, a short one
performs `NEWSEG`; before it, and while idle, nothing happens. -/
def Obligations.BoundaryLoopsOrAdvances : Prop :=
  ∀ s : State,
    (s.segment.toInt = -1 ∨ s.segmentTime < s.segmentLength - 3 / 100 → boundaryStep hardwareNumerics s = .next s) ∧
    (∀ d : SegDesc, s.segment.toInt ≠ -1 → s.segmentLength - 3 / 100 ≤ s.segmentTime → s.segment.toNat < s.db.nseg →
      s.db.seg[s.segment.toNat]? = some d →
      boundaryStep hardwareNumerics s =
        if d.isLong then .next { s with segmentTime := 0 } else newSeg hardwareNumerics s)

/-- R33, R34, R162: the gate counters over one `TICK`. A note-on is consumed exactly when the engine is idle with one pending
and the queue is not empty; at most one note-off is consumed, never at 0, and none by a tick that ends early. -/
def Obligations.TickConsumesGateEdges : Prop :=
  ∀ (s t : State) (arg : Arg), exec (.tick arg) s = .next t →
    t.noteOns = (if s.tickRuns = true ∧ s.segment.toInt = -1 then s.noteOns - 1 else s.noteOns) ∧
    (t.noteOffs = s.noteOffs ∨ (s.tickRuns = true ∧ s.noteOffs ≠ 0 ∧ t.noteOffs = s.noteOffs - 1)) ∧
    (s.tickRuns = true → s.segment.toInt = -1 → s.noteOns ≠ 0)

/-- R24, R159: one `TICK` takes at most three entries from the head of the queue and touches the queue in no other way. -/
def Obligations.TickPopsAtMostThreeEntries : Prop :=
  ∀ (s t : State) (arg : Arg), exec (.tick arg) s = .next t →
    ∃ k, k ≤ 3 ∧ t.queue = s.queue.drop k ∧ (s.tickRuns = false → k = 0)

/-! ### TICK: phase, address generator, trigger -/

/-- R180, R181: the phase over one `TICK` that reaches step 5; a tick that ends early leaves it (R158). -/
def Obligations.TickAdvancesPhase : Prop :=
  ∀ (s t : State) (arg : Arg), exec (.tick arg) s = .next t →
    t.phase =
      if s.tickRuns = true then
        (if 1 ≤ s.phase + s.frequency / (s.inputs.fs : Rat) then s.phase + s.frequency / (s.inputs.fs : Rat) - 1
         else s.phase + s.frequency / (s.inputs.fs : Rat))
      else s.phase

/-- R23, R182: with `frequency <= FS` the phase stays in `[0, 1)` and is the fractional part of the advanced phase; with
`frequency > FS` a tick that runs leaves it `frequency/FS - 1` larger. -/
def Obligations.PhaseRange : Prop :=
  ∀ (s t : State) (arg : Arg), exec (.tick arg) s = .next t → s.tickRuns = true → 0 ≤ s.phase → 0 ≤ s.frequency →
    (s.frequency ≤ (s.inputs.fs : Rat) → s.phase < 1 →
      t.phase = Int.fract (s.phase + s.frequency / (s.inputs.fs : Rat)) ∧ 0 ≤ t.phase ∧ t.phase < 1) ∧
    ((s.inputs.fs : Rat) < s.frequency → t.phase = s.phase + (s.frequency / (s.inputs.fs : Rat) - 1))

/-- R184 (and R181, R187): over `n` ticks in a row that run with a segment current and an unchanged frequency at most `FS`, the
phase is the fractional part of the cycles passed, and one slot has been armed for every whole cycle passed. -/
def Obligations.TriggersFollowTheSynthesisPitch : Prop :=
  ∀ (u : Nat → State) (n : Nat),
    (∀ j, j < n → (u j).tickRuns = true ∧ (∃ arg, exec (.tick arg) (u j) = .next (u (j + 1))) ∧
      (u (j + 1)).segment.toInt ≠ -1) →
    0 ≤ (u 0).frequency → (u 0).frequency ≤ ((u 0).inputs.fs : Rat) → 0 ≤ (u 0).phase → (u 0).phase < 1 →
    (u 0).nextGrain < (u 0).pool.length →
    let cycles : Rat := (u 0).phase + n * ((u 0).frequency / ((u 0).inputs.fs : Rat))
    (u n).phase = Int.fract cycles ∧ (u n).nextGrain = ((u 0).nextGrain + ⌊cycles⌋.toNat) % (u 0).pool.length

/-- R185, R186: in a well-formed database the address generator answers, by the formula, a frame that lies inside the segment's
slice and inside the wavetable. -/
def Obligations.FrameAddressInsideSegment : Prop :=
  ∀ (db : Database) (i : SegIndex) (t : Rat), db.wellFormed = true → i.toNat < db.nseg → 0 ≤ t →
    ∃ (d : SegDesc) (a : WordAddr), db.seg[i.toNat]? = some d ∧ db.frameAddr i t = .next a ∧
      a.toNat = d.offset.toNat + (⌊t * (2 * (db.dbsr : Rat) / (db.gl : Rat))⌋.toNat % d.numFrames) * db.gl ∧
      d.offset.toNat ≤ a.toNat ∧ a.toNat + db.gl ≤ d.offset.toNat + d.numFrames * db.gl ∧ a.toNat + db.gl ≤ db.wtlen

/-- R187, R188: a trigger while a segment is current arms the slot `nextGrain` names, whatever it holds, with the frame of the
current segment and, during a crossfade, of the previous one; nothing else changes. -/
def Obligations.TriggerArmsNextSlot : Prop :=
  ∀ s : State, EngineInv s → s.inputs.db.valid = true → s.segment.toInt ≠ -1 →
    ∃ off1 off2 : WordAddr, s.db.frameAddr s.segment s.segmentTime = .next off1 ∧
      (if s.crossfade = 0 then off2 = off1 else s.db.frameAddr s.oldSegment s.oldSegmentTime = .next off2) ∧
      trigger hardwareNumerics s =
        .next { s with
          pool := s.pool.set s.nextGrain
            { active := true, readPosition := 0, offset1 := off1, offset2 := off2, crossfadeMix := s.crossfade },
          nextGrain := (s.nextGrain + 1) % s.pool.length }

/-- R183: while idle a wrap still subtracts 1 from the phase, but no slot is armed and `nextGrain` does not move. -/
def Obligations.IdleWrapArmsNothing : Prop :=
  ∀ s : State, s.segment.toInt = -1 →
    phaseStep hardwareNumerics s =
      .next { s with
        phase :=
          if 1 ≤ s.phase + s.frequency / (s.inputs.fs : Rat) then s.phase + s.frequency / (s.inputs.fs : Rat) - 1
          else s.phase + s.frequency / (s.inputs.fs : Rat) }

/-! ### TICK: grains, envelope, mixer -/

/-- R132, R134: a one-source grain just armed emits exactly the `GL` samples of its frame, in order, and is then inactive; its
offsets and mix stay. -/
def Obligations.GrainPlaysItsWholeFrame : Prop :=
  ∀ (db : Database) (g : Grain), db.wellFormed = true → g.active = true → g.readPosition = 0 → g.crossfadeMix = 0 →
    g.offset1.toNat + db.gl ≤ db.wtlen →
    ∃ ys : List Int,
      playGrain hardwareNumerics db db.gl g = .next (ys, { g with active := false, readPosition := db.gl }) ∧
      ys.length = db.gl ∧
      ∀ k, k < db.gl → ∃ v, Memory.readSample db.wt (g.offset1.toNat + k) = some v ∧ ys[k]? = some v.toInt

/-- R133, S7: for every admissible `NUM.mixround` the mixed sample lies between its two sources and less than 1 from the exact
weighted mean; equal sources pass unchanged; this hardware's rounding is toward zero. -/
def Obligations.MixLiesBetweenItsSources : Prop :=
  ∀ (N : Numerics) (s1 s2 : Int) (m : Rat), N.Admissible → 0 < m → m ≤ 1 →
    min s1 s2 ≤ grainMix N s1 s2 m ∧ grainMix N s1 s2 m ≤ max s1 s2 ∧
    |(grainMix N s1 s2 m : Rat) - (s1 * (1 - m) + s2 * m)| < 1 ∧ grainMix N s1 s1 m = s1 ∧
    |(grainMix hardwareNumerics s1 s2 m : Rat)| ≤ |s1 * (1 - m) + s2 * m|

/-- R6, R12, R133, U17: this hardware's quantiser and rounding meet the conditions the spec puts on them, and its step is the
parametric one at these two. -/
def Obligations.HardwareNumericsAreAdmissible : Prop :=
  hardwareNumerics.Admissible ∧ ∀ s : State, step s = stepWith hardwareNumerics s

/-- R205: step 7 emits the exact sum of one sample from every slot, an inactive one giving 0, and moves every active slot on by
one sample. -/
def Obligations.MixIsTheExactSum : Prop :=
  ∀ s t : State, s.pool.length ≤ 65535 → (∀ g ∈ s.pool, 0 ≤ g.crossfadeMix ∧ g.crossfadeMix ≤ 1) →
    mixStep hardwareNumerics s = .next t →
    ∃ ys : List Int,
      List.Forall₂ (fun g y => if g.active = true then grainSample hardwareNumerics s.db g = .next y else y = 0)
        s.pool ys ∧
      t.sample.toInt = ys.sum ∧
      t = { s with
        sample := t.sample,
        pool := s.pool.map fun g =>
          if g.active = true then
            { g with readPosition := g.readPosition + 1, active := decide (g.readPosition + 1 ≠ s.db.gl) }
          else g }

/-- R206: the output of a `TICK` is inside `-32768 * POOL .. 32767 * POOL`, so the `s32` never overflows. -/
def Obligations.SampleStaysInRange : Prop :=
  ∀ (s t : State) (arg : Arg), EngineInv s → exec (.tick arg) s = .next t →
    -32768 * (s.pool.length : Int) ≤ t.sample.toInt ∧ t.sample.toInt ≤ 32767 * (s.pool.length : Int)

/-- R200, R202, R203: `k` performances of step 6 after a fresh crossfade leave the weight `max(0, 1 - k/(XL*FS))`, and both clocks
`k` sample periods on. -/
def Obligations.CrossfadeFallsLinearly : Prop :=
  ∀ (s : State) (k : Nat), 1 ≤ s.inputs.fs → s.crossfade = 1 →
    s.crossfadeRamp = -1 / (3 / 100 * (s.inputs.fs : Rat)) →
    let t := (fun u : State => u.timeStep hardwareNumerics)^[k] s
    t.crossfade = max 0 (1 - (k : Rat) / (3 / 100 * (s.inputs.fs : Rat))) ∧
    t.segmentTime = s.segmentTime + k / (s.inputs.fs : Rat) ∧
    t.oldSegmentTime = s.oldSegmentTime + k / (s.inputs.fs : Rat)

/-- R6, R12, R47 (a), (f): whatever admissible numeric parameters an implementation takes, every step of the machine with those
parameters keeps the crossfade and every slot's mix in `[0, 1]`, the frequency, the phase and the clocks non-negative and the ramp
not positive; so does every `TICK`, whatever word it was received as. -/
def Obligations.RangesHoldForEveryQuantiser : Prop :=
  ∀ (N : Numerics) (s t : State), N.Admissible → RealRanges s →
    (stepWith N s = .next t → RealRanges t) ∧ (∀ cmd : Command, tick N cmd s = .next t → RealRanges t)

/-! ### TICK: completion and frame -/

/-- R9, R150, R159: with a well-formed database a `TICK` that is not ended early completes from every state that meets the
invariant: the steps 2 to 7 are performed in order, each on the state the one before left, and the registers end as those steps
leave them. -/
def Obligations.TickCompletes : Prop :=
  ∀ (s : State) (arg : Arg), EngineInv s → s.tickRuns = true →
    ∃ s2 s3 s4 s5 t : State, exec (.tick arg) s = .next t ∧
      consumeNoteOn hardwareNumerics s = .next s2 ∧ consumeNoteOff hardwareNumerics s2 = .next s3 ∧
      boundaryStep hardwareNumerics s3 = .next s4 ∧ phaseStep hardwareNumerics s4 = .next s5 ∧
      mixPool hardwareNumerics s.db s5.pool = .next (t.sample.toInt, t.pool) ∧
      t.segmentTime = s4.segmentTime + 1 / (s.inputs.fs : Rat) ∧
      t.oldSegmentTime = s4.oldSegmentTime + 1 / (s.inputs.fs : Rat) ∧
      t.crossfade = max 0 (s4.crossfade + s4.crossfadeRamp) ∧
      t.crossfadeRamp = (if s4.crossfade + s4.crossfadeRamp ≤ 0 then 0 else s4.crossfadeRamp) ∧
      t = { s5 with
        segmentTime := t.segmentTime, oldSegmentTime := t.oldSegmentTime, crossfade := t.crossfade,
        crossfadeRamp := t.crossfadeRamp, pool := t.pool, sample := t.sample }

/-- The frame of `TICK` (R150, R22, R42, R43): with a database it writes neither `frequency` nor `STATUS` nor `LASTERR`; every byte of
memory reads as before; and a tick that ends early changes no register but `OUT.sample` (R158). -/
def Obligations.TickFrame : Prop :=
  ∀ (s t : State) (arg : Arg), s.inputs.db.valid = true → exec (.tick arg) s = .next t →
    t.frequency = s.frequency ∧ t.status = s.status ∧ t.lasterr = s.lasterr ∧ t.inputs = s.inputs ∧
    t.qdepth = s.qdepth ∧ t.port = s.port ∧ t.resetAsserted = s.resetAsserted ∧ t.pool.length = s.pool.length ∧
    (∀ a, Memory.readByte t.inputs.db.wt a = Memory.readByte s.inputs.db.wt a) ∧
    (s.tickRuns = false → t = { s with sample := 0 })

/-! ### Control commands -/

/-- R220: `SETFREQ`, `OP = 0x01`, writes `ARG / 65536` to `frequency` and nothing else. -/
def Obligations.SetfreqSetsFrequency : Prop :=
  ∀ (s : State) (arg : Arg), decode (0x01#8 ++ arg) = .setfreq arg ∧
    exec (.setfreq arg) s = .next { s with frequency := (arg.toNat : Rat) / 65536 }

/-- R221, R61, R249: `QUEUE`, `OP = 0x02`, reports `E_IDX` outside `-1..NSEG-1`, then `E_QOVF` on a full queue, and otherwise appends; with
`DBVALID = 0`, `NSEG` is taken as 0. -/
def Obligations.QueueAppendsOrReports : Prop :=
  ∀ (s : State) (arg : Arg),
    decode (0x02#8 ++ arg) = .queue arg ∧
    exec (.queue arg) s =
      if arg.toInt < -1 ∨ (if s.inputs.db.valid = true then (s.inputs.db.nseg : Int) else 0) ≤ arg.toInt then
        .next { s with status := s.status ||| 0x02#8, lasterr := 0x9#4 ++ (0x02#8 ++ arg) }
      else if s.qdepth = some s.queue.length then
        .next { s with status := s.status ||| 0x04#8, lasterr := 0xA#4 ++ (0x02#8 ++ arg) }
      else .next { s with queue := s.queue ++ [arg] }

/-- R222: `NOTEON`, `OP = 0x03`, counts one edge, saturating with `E_CNTOVF`. -/
def Obligations.NoteonCountsOneEdge : Prop :=
  ∀ (s : State) (arg : Arg),
    decode (0x03#8 ++ arg) = .noteon arg ∧
    exec (.noteon arg) s =
      if s.noteOns.toNat = 2 ^ 32 - 1 then
        .next { s with status := s.status ||| 0x08#8, lasterr := 0xB#4 ++ (0x03#8 ++ arg) }
      else .next { s with noteOns := s.noteOns + 1 }

/-- R223: `NOTEOFF`, `OP = 0x04`, counts one edge, saturating with `E_CNTOVF`. -/
def Obligations.NoteoffCountsOneEdge : Prop :=
  ∀ (s : State) (arg : Arg),
    decode (0x04#8 ++ arg) = .noteoff arg ∧
    exec (.noteoff arg) s =
      if s.noteOffs.toNat = 2 ^ 32 - 1 then
        .next { s with status := s.status ||| 0x08#8, lasterr := 0xB#4 ++ (0x04#8 ++ arg) }
      else .next { s with noteOffs := s.noteOffs + 1 }

/-- R224, R111: `CLRERR`, `OP = 0x05`, clears `STATUS[k]` for every set bit `k <= 5` of its mask, clears `LASTERR` for bit 8, and does nothing
else; the bits 7:6 and 31:9 have no effect. -/
def Obligations.ClrerrClearsSelectedFlags : Prop :=
  ∀ (s : State) (arg : Arg),
    decode (0x05#8 ++ arg) = .clrerr arg ∧
    ∃ st : BitVec 8,
      exec (.clrerr arg) s =
        .next { s with status := st, lasterr := if arg.getLsbD 8 = true then 0 else s.lasterr } ∧
      ∀ k, k < 8 → st.getLsbD k = (s.status.getLsbD k && !(decide (k < 6) && arg.getLsbD k))

/-- R225, R226: the two reserved extensions, `OP = 0x06` and `OP = 0x07`, change nothing but `STATUS.E_UNIMPL` and `LASTERR`. -/
def Obligations.ReservedExtensionsReport : Prop :=
  ∀ (s : State) (arg : Arg),
    decode (0x06#8 ++ arg) = .setfshift arg ∧ decode (0x07#8 ++ arg) = .setpspeed arg ∧
    exec (.setfshift arg) s =
      .next { s with status := s.status ||| 0x20#8, lasterr := 0xD#4 ++ (0x06#8 ++ arg) } ∧
    exec (.setpspeed arg) s =
      .next { s with status := s.status ||| 0x20#8, lasterr := 0xD#4 ++ (0x07#8 ++ arg) }

/-- R227, R106: an illegal word changes nothing but `STATUS.E_ILLCMD` and `LASTERR`, in each of its five rows. -/
def Obligations.IllegalWordsReport : Prop :=
  ∀ (s : State) (op : Opcode) (arg : Arg),
    (8 ≤ op.toNat → exec (decode (op ++ arg)) s =
      .next { s with status := s.status ||| 0x01#8, lasterr := 0x8#4 ++ (op ++ arg) }) ∧
    ∀ i ∈ [Instr.illegal80 op arg, .illegal40 op arg, .illegal20 op arg, .illegal10 op arg, .illegal08 op arg],
      exec i s = .next { s with status := s.status ||| 0x01#8, lasterr := 0x8#4 ++ (op ++ arg) }

/-- R241, R43: an error report sets its own `STATUS` bit and no other, records `valid`, its code and the command word, and
changes nothing else. -/
def Obligations.RaiseIsPrecise : Prop :=
  ∀ (s : State) (e : ErrorCause) (cmd : Command),
    (∀ k, (s.raise e cmd).status.getLsbD k = (s.status.getLsbD k || decide (k = e.code.toNat))) ∧
    lasterrValid (s.raise e cmd).lasterr = true ∧ lasterrCode (s.raise e cmd).lasterr = e.code ∧
    lasterrCmd (s.raise e cmd).lasterr = cmd ∧
    s.raise e cmd = { s with status := (s.raise e cmd).status, lasterr := (s.raise e cmd).lasterr }

/-- R42, R252: no instruction but `CLRERR` clears a `STATUS` bit, and no instruction sets a reserved one. -/
def Obligations.StatusBitsAreSticky : Prop :=
  ∀ (i : Instr) (s t : State) (k : Nat), exec i s = .next t →
    ((∀ arg, i ≠ .clrerr arg) → s.status.getLsbD k = true → t.status.getLsbD k = true) ∧
    (6 ≤ k → s.status.getLsbD k = false → t.status.getLsbD k = false)

/-- R228, R45: a control command leaves the phase, the clocks, the crossfade registers, the segments, the grain pool and the
output as they are. -/
def Obligations.ControlCommandsLeaveTheDatapath : Prop :=
  ∀ (i : Instr) (s t : State), (∀ arg, i ≠ .tick arg) → exec i s = .next t →
    t = { s with
      frequency := t.frequency, queue := t.queue, noteOns := t.noteOns, noteOffs := t.noteOffs, status := t.status,
      lasterr := t.lasterr }

/-- R228: `SETFREQ` commutes with every other control command. -/
def Obligations.SetfreqCommutes : Prop :=
  ∀ (i : Instr) (arg : Arg) (s : State), (∀ a, i ≠ .tick a) → (∀ a, i ≠ .setfreq a) →
    Result.andThen (exec (.setfreq arg) s) (exec i) = Result.andThen (exec i s) (exec (.setfreq arg))

/-- R44: `LIVE`, bit by bit. -/
def Obligations.LiveShowsTheState : Prop :=
  ∀ s : State,
    s.live.getLsbD 0 = decide (s.segment.toInt ≠ -1) ∧ s.live.getLsbD 1 = decide (s.queue.length = 0) ∧
    s.live.getLsbD 2 = decide (s.qdepth = some s.queue.length) ∧ s.live.getLsbD 3 = decide (s.crossfade ≠ 0) ∧
    (s.live.getLsbD 4 = true ↔ ∃ g ∈ s.pool, g.active = true) ∧ s.live.getLsbD 5 = s.inputs.db.valid ∧
    s.live.getLsbD 6 = false ∧ s.live.getLsbD 7 = false

/-! ### The step -/

/-- R8, R100 (and the model's own `port`, log 1): while reset is not asserted a step performs the command presented next, taken from
the port; a table word is presented by `withFetchWord`. While reset is asserted no command is accepted
(R270), and the word is lost (log 6). -/
def Obligations.StepPerformsTheDecodedCommand : Prop :=
  (∀ (s : State) (w : Command) (rest : List Input), s.port = .command w :: rest →
    step s = if s.resetAsserted = true then .next { s with port := rest } else exec (decode w) { s with port := rest }) ∧
  (∀ (s : State) (i : Instr), i.wellFormed = true →
    decodeTableWord 40 (encode i).toNat = some i ∧
    step (s.withFetchWord 40 (encode i).toNat) = exec i { s with port := s.port.tail, resetAsserted := false })

/-- The model's choice (log 1, from R250 "nothing happens between commands"): with nothing presented a step changes nothing. -/
def Obligations.NothingPresentedNothingHappens : Prop :=
  ∀ s : State, s.port = [] → step s = .next s

/-! ### The host's side -/

/-- R67, R77, R278: a database the loader accepts is well-formed, with `DBVALID = 1`; otherwise the host drives a zeroed one. -/
def Obligations.LoaderGivesWellFormedDatabase : Prop :=
  ∀ file : List Byte,
    (∀ v, loadVoiceFile file = some v →
      v.db.wellFormed = true ∧ v.db.valid = true ∧ v.segmentNames.length = v.db.nseg) ∧
    (loadVoiceFile file = none → loadedDatabase file = Database.zeroed)

/-- R71, R78: a file without the magic word is a load failure. -/
def Obligations.BadMagicIsALoadFailure : Prop :=
  ∀ file : List Byte,
    file.take 12 ≠ [0x4F, 0x44, 0x44, 0x56, 0x4F, 0x49, 0x43, 0x45, 0x53, 0x00, 0x00, 0x00] →
    loadVoiceFile file = none

/-- R79, S2: the lookup by name gives the first index with that name, and the inverse lookup gives the name back. -/
def Obligations.NameLookupRoundTrips : Prop :=
  ∀ (v : VoiceFile) (name : ByteName),
    (name ∈ v.segmentNames → v.segmentIndexToSegment (v.segmentToSegmentIndex name) = .ok name) ∧
    (name ∈ v.phonemes → v.phonemeIndexToPhoneme (v.phonemeToPhonemeIndex name) = .ok name) ∧
    (name ∉ v.segmentNames → v.segmentToSegmentIndex name = -1)

/-- R114, R116: the line a word disassembles to assembles to the same command, its ignored bits cleared. -/
def Obligations.DisassembledLineAssembles : Prop :=
  ∀ w : Command, (disassemble w).words = some [encode (decode w).canonical]

/-- R114, R116: the same of the printed text. -/
def Obligations.DisassembledTextAssembles : Prop :=
  ∀ w : Command, assembleLine (disassembleText w) = some [encode (decode w).canonical]
end

