-- ==== Sys2Proof/Laws/Assembler.lean ====
section
/-! SUPPORT. What the assembler reads from the text the disassembler prints (30_encoding.md R114, R116): digits, numbers and
words of a line. -/

namespace Sys2Proof.Machine

/-! ### Numbers -/

theorem digitValue_digitChar : ∀ d, d < 16 → digitValue (digitChar d) = some d := by decide

/-- A digit is no separator, no comment sign and no prefix. -/
theorem digitChar_ne : ∀ d, d < 16 →
    digitChar d ≠ ' ' ∧ digitChar d ≠ '\t' ∧ digitChar d ≠ '\r' ∧ digitChar d ≠ '#' ∧ digitChar d ≠ 'x' ∧
      digitChar d ≠ '-' := by decide

theorem readDigits_append (base : Nat) {cs : List Char} {acc d v : Nat} (h : readDigits base acc cs = some v)
    (hb : d < base) (hd : d < 16) : readDigits base acc (cs ++ [digitChar d]) = some (v * base + d) := by
  induction cs generalizing acc with
  | nil =>
    simp only [readDigits, Option.some.injEq] at h
    simp [readDigits, digitValue_digitChar d hd, hb, h]
  | cons c cs ih =>
    simp only [List.cons_append, readDigits] at h ⊢
    split at h
    · split at h
      · rename_i hlt
        rw [if_pos hlt]
        exact ih h
      · cases h
    · cases h

/-- The digits of a number read back as the number. -/
theorem readDigits_printDigits {base : Nat} (hb : 1 < base) (hle : base ≤ 16) {k n : Nat} (h : n < base ^ k) :
    readDigits base 0 (printDigits base k n) = some n := by
  induction k generalizing n with
  | zero =>
    have h0 : n = 0 := by simpa using h
    rw [h0]; rfl
  | succ k ih =>
    have hdiv := ih (n := n / base) (by rw [Nat.div_lt_iff_lt_mul (by omega)]; rwa [pow_succ] at h)
    have hmod : n % base < base := Nat.mod_lt _ (by omega)
    rw [printDigits, readDigits_append base hdiv hmod (by omega), Nat.mul_comm, Nat.div_add_mod]

theorem readDigits_printDecimal {k n : Nat} (h : n < 10 ^ (k + 1)) : readDigits 10 0 (printDecimal k n) = some n := by
  induction k generalizing n with
  | zero =>
    have h10 : n < 10 := by simpa using h
    simp [printDecimal, readDigits, Nat.mod_eq_of_lt h10, digitValue_digitChar n (by omega), h10]
  | succ k ih =>
    simp only [printDecimal]
    split
    · rename_i h10
      simp [readDigits, digitValue_digitChar n (by omega), h10]
    · have hdiv := ih (n := n / 10) (by rw [Nat.div_lt_iff_lt_mul (by omega)]; rwa [pow_succ] at h)
      rw [readDigits_append 10 hdiv (Nat.mod_lt _ (by omega)) (by omega)]
      congr 1; omega

theorem mem_printDigits {base : Nat} (hb : 0 < base) (hle : base ≤ 16) {k n : Nat} {c : Char}
    (h : c ∈ printDigits base k n) : ∃ d, d < 16 ∧ c = digitChar d := by
  induction k generalizing n with
  | zero => simp [printDigits] at h
  | succ k ih =>
    simp only [printDigits, List.mem_append, List.mem_singleton] at h
    rcases h with h | h
    · exact ih h
    · exact ⟨_, lt_of_lt_of_le (Nat.mod_lt n hb) hle, h⟩

theorem mem_printDecimal {k n : Nat} {c : Char} (h : c ∈ printDecimal k n) : ∃ d, d < 16 ∧ c = digitChar d := by
  induction k generalizing n with
  | zero => exact ⟨n % 10, by omega, by simpa [printDecimal] using h⟩
  | succ k ih =>
    simp only [printDecimal] at h
    split at h
    · exact ⟨n, by omega, by simpa using h⟩
    · simp only [List.mem_append, List.mem_singleton] at h
      rcases h with h | h
      · exact ih h
      · exact ⟨n % 10, by omega, h⟩

theorem printDecimal_ne_nil (k n : Nat) : printDecimal k n ≠ [] := by
  cases k
  · simp [printDecimal]
  · simp only [printDecimal]; split <;> simp

/-! ### Words of a line -/

/-- A word of a line: no character of it separates words or starts a comment. -/
def isPlain (c : Char) : Prop := c ≠ ' ' ∧ c ≠ '\t' ∧ c ≠ '\r' ∧ c ≠ '#'

theorem splitWords_one {cs cur : List Char} (h : ∀ c ∈ cs, isPlain c) (hne : cur ++ cs ≠ []) :
    splitWords cur cs = [cur ++ cs] := by
  induction cs generalizing cur with
  | nil => simp only [List.append_nil] at hne; simp [splitWords, hne]
  | cons c cs ih =>
    obtain ⟨h1, h2, h3, _⟩ := h c (by simp)
    rw [splitWords, if_neg (by tauto), ih (fun x hx => h x (by simp [hx])) (by simp)]
    simp

theorem splitWords_two {a b cur : List Char} (ha : ∀ c ∈ a, isPlain c) (hb : ∀ c ∈ b, isPlain c) (hne : cur ++ a ≠ [])
    (hb0 : b ≠ []) : splitWords cur (a ++ ' ' :: b) = [cur ++ a, b] := by
  induction a generalizing cur with
  | nil =>
    simp only [List.append_nil] at hne
    simp [splitWords, hne, splitWords_one (cur := []) hb (by simpa using hb0)]
  | cons c cs ih =>
    obtain ⟨h1, h2, h3, _⟩ := ha c (by simp)
    rw [List.cons_append, splitWords, if_neg (by tauto), ih (fun x hx => ha x (by simp [hx])) (by simp)]
    simp

/-- A line of a mnemonic and one operand. -/
theorem assembleLine_two {m t : List Char} (hm : ∀ c ∈ m, isPlain c) (ht : ∀ c ∈ t, isPlain c) (hm0 : m ≠ [])
    (ht0 : t ≠ []) :
    assembleLine (m ++ ' ' :: t) =
      match readCommand (m.map lowerChar) [t] with
      | some l => l.words
      | none => none := by
  have hplain : ∀ c ∈ m ++ ' ' :: t, (c != '#') = true := by
    intro c hc
    rcases List.mem_append.mp hc with h | h
    · simpa using (hm c h).2.2.2
    · rcases List.mem_cons.mp h with rfl | h
      · decide
      · simpa using (ht c h).2.2.2
  rw [assembleLine, List.takeWhile_eq_self_iff.mpr hplain, splitWords_two (cur := []) hm ht (by simpa using hm0) ht0]
  rfl

/-! ### The mnemonics with an operand -/

theorem readCommand_word (t : List Char) :
    readCommand ['.', 'w', 'o', 'r', 'd'] [t] = (readNumber t).map .word := rfl

theorem readCommand_setfreqRaw (t : List Char) :
    readCommand ['s', 'e', 't', 'f', 'r', 'e', 'q', '.', 'r', 'a', 'w'] [t] = (readNumber t).map .setfreqRaw := rfl

theorem readCommand_clrerr (t : List Char) :
    readCommand ['c', 'l', 'r', 'e', 'r', 'r'] [t] = (readNumber t).map .clrerr := rfl

theorem readCommand_queue (t : List Char) :
    readCommand ['q', 'u', 'e', 'u', 'e'] [t] = (readInteger t).map .queue := rfl

end Sys2Proof.Machine
end

