-- ==== Sys2Proof/Laws/Memory.lean ====
section
/-! SUPPORT. The laws of the wavetable memory: what a read sees after a write, and that every operation keeps the canonical
form. -/

namespace Sys2Proof.Machine

@[simp] theorem Memory.wf_nil : Memory.wf [] = true := rfl

/-- The canonical form entry by entry: the first address is below every later one. -/
theorem Memory.wf_cons {c : Host.Cell} {m : Memory} :
    Memory.wf (c :: m) = true ↔ (∀ d ∈ m, c.1 < d.1) ∧ Memory.wf m = true := by
  induction m generalizing c with
  | nil => simp [Memory.wf]
  | cons d m ih =>
    simp only [Memory.wf, Bool.and_eq_true, decide_eq_true_eq, List.mem_cons, forall_eq_or_imp]
    constructor
    · rintro ⟨hlt, hwf⟩
      exact ⟨⟨hlt, fun e he => lt_trans hlt ((ih.mp hwf).1 e he)⟩, hwf⟩
    · rintro ⟨⟨hlt, _⟩, hwf⟩
      exact ⟨hlt, hwf⟩

@[simp] theorem Memory.readByte_nil (a : Nat) : Memory.readByte [] a = none := rfl

theorem Memory.readByte_cons (c : Host.Cell) (m : Memory) (a : Nat) :
    Memory.readByte (c :: m) a = if c.1 = a then some c.2 else Memory.readByte m a := rfl

/-- An address below every entry reads as nothing loaded. -/
theorem Memory.readByte_none_of_below {m : Memory} {a : Nat} (h : ∀ d ∈ m, a < d.1) : Memory.readByte m a = none := by
  induction m with
  | nil => rfl
  | cons c m ih =>
    have hc := h c (by simp)
    rw [Memory.readByte_cons, if_neg (by omega)]
    exact ih fun d hd => h d (by simp [hd])

/-- An address has a value exactly when it is listed. -/
theorem Memory.readByte_isSome_iff {m : Memory} {a : Nat} :
    (Memory.readByte m a).isSome = true ↔ a ∈ m.map Prod.fst := by
  induction m with
  | nil => simp
  | cons c m ih =>
    rw [Memory.readByte_cons]
    by_cases hc : c.1 = a
    · simp [hc]
    · simp only [if_neg hc, ih, List.map_cons, List.mem_cons]
      constructor
      · exact Or.inr
      · rintro (h | h)
        · exact absurd h.symm hc
        · exact h

/-- A byte reads back as written. -/
theorem Memory.readByte_writeByte_same (m : Memory) (a : Nat) (b : Byte) :
    Memory.readByte (Memory.writeByte m a b) a = some b := by
  induction m with
  | nil => simp [Memory.writeByte, Memory.readByte]
  | cons c m ih =>
    simp only [Memory.writeByte]
    split
    · simp [Memory.readByte]
    · split
      · simp [Memory.readByte]
      · rename_i h1 h2
        rw [Memory.readByte_cons, if_neg (fun h => h2 h.symm), ih]

/-- A write changes no other byte. -/
theorem Memory.readByte_writeByte_other {m : Memory} {a a' : Nat} (b : Byte) (h : a' ≠ a) :
    Memory.readByte (Memory.writeByte m a b) a' = Memory.readByte m a' := by
  induction m with
  | nil => simp [Memory.writeByte, Memory.readByte, h.symm]
  | cons c m ih =>
    simp only [Memory.writeByte]
    split
    · rw [Memory.readByte_cons, if_neg h.symm]
    · split
      · rename_i h1 h2
        rw [Memory.readByte_cons, if_neg h.symm, Memory.readByte_cons, if_neg (h2 ▸ h.symm)]
      · rw [Memory.readByte_cons, Memory.readByte_cons, ih]

theorem Memory.mem_writeByte {m : Memory} {a : Nat} {b : Byte} {d : Host.Cell} (h : d ∈ Memory.writeByte m a b) :
    d = (a, b) ∨ d ∈ m := by
  induction m with
  | nil => simpa [Memory.writeByte] using h
  | cons c m ih =>
    simp only [Memory.writeByte] at h
    split at h
    · simpa using h
    · split at h
      · rcases List.mem_cons.mp h with h | h
        · exact Or.inl h
        · exact Or.inr (List.mem_cons_of_mem _ h)
      · rcases List.mem_cons.mp h with h | h
        · exact Or.inr (h ▸ List.mem_cons_self)
        · rcases ih h with h | h
          · exact Or.inl h
          · exact Or.inr (List.mem_cons_of_mem _ h)

/-- A write keeps the canonical form. -/
theorem Memory.writeByte_wf {m : Memory} (a : Nat) (b : Byte) (h : Memory.wf m = true) :
    Memory.wf (Memory.writeByte m a b) = true := by
  induction m with
  | nil => rfl
  | cons c m ih =>
    obtain ⟨hc, hm⟩ := Memory.wf_cons.mp h
    simp only [Memory.writeByte]
    split
    · rename_i hlt
      refine Memory.wf_cons.mpr ⟨fun d hd => ?_, h⟩
      rcases List.mem_cons.mp hd with hd | hd
      · exact hd ▸ hlt
      · exact lt_trans hlt (hc d hd)
    · split
      · rename_i heq
        exact Memory.wf_cons.mpr ⟨fun d hd => by simpa [heq] using hc d hd, hm⟩
      · refine Memory.wf_cons.mpr ⟨fun d hd => ?_, ih hm⟩
        rcases Memory.mem_writeByte hd with hd | hd
        · subst hd; simp only; omega
        · exact hc d hd

/-- Writing a sample keeps the canonical form. -/
theorem Memory.writeSample_wf {m : Memory} (a : Nat) (v : BitVec 16) (h : Memory.wf m = true) :
    Memory.wf (Memory.writeSample m a v) = true :=
  Memory.writeByte_wf _ _ (Memory.writeByte_wf _ _ h)

/-- A sample reads back as written. -/
theorem Memory.readSample_writeSample_same (m : Memory) (a : Nat) (v : BitVec 16) :
    Memory.readSample (Memory.writeSample m a v) a = some v := by
  have h1 : Memory.readByte (Memory.writeSample m a v) (2 * a) = some (v.extractLsb' 0 8) := by
    rw [Memory.writeSample, Memory.readByte_writeByte_other _ (by omega), Memory.readByte_writeByte_same]
  have h2 : Memory.readByte (Memory.writeSample m a v) (2 * a + 1) = some (v.extractLsb' 8 8) := by
    rw [Memory.writeSample, Memory.readByte_writeByte_same]
  have h3 : v.extractLsb' 8 8 ++ v.extractLsb' 0 8 = v := by
    apply BitVec.eq_of_getLsbD_eq
    intro i hi
    rw [BitVec.getLsbD_append]
    by_cases h : i < 8
    · simp [h]
    · have h8 : 8 + (i - 8) = i := by omega
      have h9 : i - 8 < 8 := by omega
      simp [h, h8, h9]
  simp only [Memory.readSample, h1, h2, h3]

/-- Writing a sample changes no other word. -/
theorem Memory.readSample_writeSample_other {m : Memory} {a a' : Nat} (v : BitVec 16) (h : a' ≠ a) :
    Memory.readSample (Memory.writeSample m a v) a' = Memory.readSample m a' := by
  have hb : ∀ k, k ≠ 2 * a → k ≠ 2 * a + 1 →
      Memory.readByte (Memory.writeSample m a v) k = Memory.readByte m k := fun k h1 h2 => by
    rw [Memory.writeSample, Memory.readByte_writeByte_other _ h2, Memory.readByte_writeByte_other _ h1]
  rw [Memory.readSample, hb _ (by omega) (by omega), hb _ (by omega) (by omega)]
  rfl

/-- The loader's memory lists exactly the addresses of its bytes. -/
theorem Memory.ofBytes_addresses (a : Nat) (bs : List Byte) :
    (Memory.ofBytes a bs).map Prod.fst = List.range' a bs.length := by
  induction bs generalizing a with
  | nil => rfl
  | cons b bs ih => simp [Memory.ofBytes, ih, List.range'_succ]

/-- The loader's memory has the canonical form. -/
theorem Memory.ofBytes_wf (a : Nat) (bs : List Byte) : Memory.wf (Memory.ofBytes a bs) = true := by
  induction bs generalizing a with
  | nil => rfl
  | cons b bs ih =>
    refine Memory.wf_cons.mpr ⟨fun d hd => ?_, ih _⟩
    have hmem : d.1 ∈ (Memory.ofBytes (a + 1) bs).map Prod.fst := List.mem_map_of_mem hd
    rw [Memory.ofBytes_addresses, List.mem_range'] at hmem
    obtain ⟨i, _, hi⟩ := hmem
    simp only; omega

/-- The memory after reset has the canonical form, whatever the pool and the queue are. -/
theorem Memory.reset_wf : Memory.wf State.reset.inputs.db.wt = true := rfl

end Sys2Proof.Machine
end

