-- ==== Sys2Proof/Laws/Result.lean ====
section
/-! SUPPORT. How a sequence of operations answers: `Result.andThen` gives a value exactly when both parts do. -/

namespace Sys2Proof.Machine

@[simp] theorem Result.andThen_next {α β : Type} (a : α) (f : α → Result β) :
    Result.andThen (.next a) f = f a := rfl

@[simp] theorem Result.andThen_fault {α β : Type} (e : Fault) (f : α → Result β) :
    Result.andThen (.fault e) f = .fault e := rfl

@[simp] theorem Result.andThen_refused {α β : Type} (e : Refusal) (f : α → Result β) :
    Result.andThen (.refused e) f = .refused e := rfl

theorem Result.andThen_eq_next {α β : Type} {r : Result α} {f : α → Result β} {b : β} :
    Result.andThen r f = .next b ↔ ∃ a, r = .next a ∧ f a = .next b := by
  cases r <;> simp

theorem Result.next_inj {α : Type} {a b : α} (h : (Host.Outcome.next a : Result α) = .next b) : a = b := by
  cases h; rfl

end Sys2Proof.Machine
end

