-- ==== Sys2Proof/Laws/Database.lean ====
section
/-! SUPPORT. What the accessors of the database answer: their values in general, and that a well-formed database
(70_reset_and_hazards.md R278) never stops them. -/

namespace Sys2Proof.Machine

/-- The gap token is the `s32` value -1 (00_scope.md R16). -/
theorem toInt_eq_neg_one_iff {i : SegIndex} : i.toInt = -1 ↔ i = gapToken :=
  ⟨fun h => BitVec.eq_of_toInt_eq (by simpa [gapToken] using h), fun h => by rw [h]; rfl⟩

/-- R278, clause by clause. -/
theorem Database.wellFormed_iff {db : Database} : db.wellFormed = true ↔
    1 ≤ db.dbsr ∧ 1 ≤ db.gl ∧ db.nseg ≤ 2 ^ 31 - 1 ∧ db.seg.length = db.nseg ∧ (∀ d ∈ db.seg, 1 ≤ d.numFrames) ∧
      packedFrom db.gl 0 db.seg = true ∧ db.wtlen = totalSamples db.gl db.seg ∧ db.wtlen < 2 ^ 32 ∧
      Memory.wf db.wt = true ∧ db.wt.map Prod.fst = List.range (2 * db.wtlen) := by
  simp [Database.wellFormed, and_assoc]

theorem ConfigInputs.wellFormed_iff {c : ConfigInputs} :
    c.wellFormed = true ↔ 1 ≤ c.fs ∧ (c.db.valid = true → c.db.wellFormed = true) := by
  cases h : c.db.valid <;> simp [ConfigInputs.wellFormed, h]

theorem Database.validIndex_iff {db : Database} {i : SegIndex} :
    db.validIndex i = true ↔ i = gapToken ∨ i.toNat < db.nseg := by
  simp [Database.validIndex]

@[simp] theorem Database.validIndex_gap (db : Database) : db.validIndex gapToken = true := by
  simp [Database.validIndex]

/-- The address ranges of the packing: segment `k` starts at its offset and ends inside the total. -/
theorem packedFrom_bounds {gl off : Nat} {seg : List SegDesc} (h : packedFrom gl off seg = true) {k : Nat} {d : SegDesc}
    (hk : seg[k]? = some d) :
    off ≤ d.offset.toNat ∧ d.offset.toNat + d.numFrames * gl ≤ off + totalSamples gl seg := by
  induction seg generalizing off k with
  | nil => simp at hk
  | cons e es ih =>
    simp only [packedFrom, Bool.and_eq_true, decide_eq_true_eq] at h
    obtain ⟨he, hes⟩ := h
    cases k with
    | zero =>
      simp only [List.getElem?_cons_zero, Option.some.injEq] at hk
      subst hk
      simp only [totalSamples]; omega
    | succ k =>
      have := ih hes (by simpa using hk)
      simp only [totalSamples]; omega

/-- What a descriptor read answers. -/
theorem Database.descriptor_eq_next {db : Database} {i : SegIndex} {d : SegDesc} :
    db.descriptor i = .next d ↔ i.toNat < db.nseg ∧ db.seg[i.toNat]? = some d := by
  unfold Database.descriptor
  split
  · rename_i h
    split <;> rename_i he <;> simp [h, he]
  · rename_i h; simp [h]

/-- In a well-formed database every index below `NSEG` has a descriptor, with a frame at least, inside the wavetable. -/
theorem Database.descriptor_of_wellFormed {db : Database} (h : db.wellFormed = true) {i : SegIndex}
    (hi : i.toNat < db.nseg) :
    ∃ d, db.descriptor i = .next d ∧ 1 ≤ d.numFrames ∧ d.offset.toNat + d.numFrames * db.gl ≤ db.wtlen := by
  obtain ⟨_, _, _, hlen, hfr, hpack, htot, _⟩ := Database.wellFormed_iff.mp h
  have hk : i.toNat < db.seg.length := by omega
  refine ⟨db.seg[i.toNat], Database.descriptor_eq_next.mpr ⟨hi, List.getElem?_eq_getElem hk⟩,
    hfr _ (List.getElem_mem hk), ?_⟩
  have := packedFrom_bounds hpack (List.getElem?_eq_getElem hk)
  omega

theorem Database.numFrames_gap (db : Database) : db.numFrames gapToken = .next 0 := by simp [Database.numFrames]

theorem Database.isLong_gap (db : Database) : db.isLong gapToken = .next false := by simp [Database.isLong]

theorem Database.offset_gap (db : Database) : db.offset gapToken = .next 0 := by simp [Database.offset]

/-- The three accessors answer the descriptor's fields. -/
theorem Database.accessors_of_descriptor {db : Database} {i : SegIndex} {d : SegDesc} (hi : i ≠ gapToken)
    (h : db.descriptor i = .next d) :
    db.numFrames i = .next d.numFrames ∧ db.isLong i = .next d.isLong ∧ db.offset i = .next d.offset := by
  simp [Database.numFrames, Database.isLong, Database.offset, hi, h]

/-- With a valid index the accessors of a well-formed database do not stop. -/
theorem Database.numFrames_of_valid {db : Database} (h : db.wellFormed = true) {i : SegIndex}
    (hi : db.validIndex i = true) : ∃ n, db.numFrames i = .next n := by
  rcases Database.validIndex_iff.mp hi with rfl | hi'
  · exact ⟨0, db.numFrames_gap⟩
  · by_cases hg : i = gapToken
    · exact ⟨0, hg ▸ db.numFrames_gap⟩
    · obtain ⟨d, hd, _⟩ := Database.descriptor_of_wellFormed h hi'
      exact ⟨_, (Database.accessors_of_descriptor hg hd).1⟩

theorem Database.isLong_of_valid {db : Database} (h : db.wellFormed = true) {i : SegIndex}
    (hi : db.validIndex i = true) : ∃ b, db.isLong i = .next b := by
  by_cases hg : i = gapToken
  · exact ⟨false, hg ▸ db.isLong_gap⟩
  · obtain ⟨d, hd, _⟩ := Database.descriptor_of_wellFormed h ((Database.validIndex_iff.mp hi).resolve_left hg)
    exact ⟨_, (Database.accessors_of_descriptor hg hd).2.1⟩

theorem Database.f0_nonneg (db : Database) : 0 ≤ db.f0 := by unfold Database.f0; positivity

/-- A sample read is an `s16`. -/
theorem Database.memRead_range {db : Database} {a : Nat} {v : Int} (h : db.memRead a = .next v) :
    -32768 ≤ v ∧ v ≤ 32767 := by
  unfold Database.memRead at h
  split at h
  · split at h
    · rename_i x _
      cases h
      have h1 := BitVec.le_toInt x
      have h2 := BitVec.toInt_lt (x := x)
      omega
    · cases h
  · cases h

/-- A read below `WTLEN` in a well-formed database does not stop. -/
theorem Database.memRead_of_wellFormed {db : Database} (h : db.wellFormed = true) {a : Nat} (ha : a < db.wtlen) :
    ∃ v, db.memRead a = .next v := by
  obtain ⟨_, _, _, _, _, _, _, _, _, hkeys⟩ := Database.wellFormed_iff.mp h
  have hbyte : ∀ k, k < 2 * db.wtlen → ∃ b, Memory.readByte db.wt k = some b := fun k hk =>
    Option.isSome_iff_exists.mp (Memory.readByte_isSome_iff.mpr (by rw [hkeys]; exact List.mem_range.mpr hk))
  obtain ⟨lo, hlo⟩ := hbyte (2 * a) (by omega)
  obtain ⟨hi, hhi⟩ := hbyte (2 * a + 1) (by omega)
  exact ⟨(hi ++ lo).toInt, by simp only [Database.memRead, if_pos ha, Memory.readSample, hlo, hhi]⟩

/-- What the address generator answers (42_phase_addrgen.md R185): the frame it names is one of the segment's. -/
theorem Database.frameAddr_eq_next {db : Database} {i : SegIndex} {t : Rat} {a : WordAddr}
    (h : db.frameAddr i t = .next a) :
    ∃ frames off, db.numFrames i = .next frames ∧ db.offset i = .next off ∧ frames ≠ 0 ∧ 0 ≤ t ∧
      a.toNat = off.toNat + ((t * db.f0).floor.toNat % frames) * db.gl := by
  simp only [Database.frameAddr, Database.frameIndex, Result.andThen_eq_next] at h
  obtain ⟨f, ⟨frames, hframes, hf⟩, off, hoff, ha⟩ := h
  split at hf
  · cases hf
  · rename_i hbad
    push Not at hbad
    cases hf
    split at ha
    · rename_i hlt
      cases ha
      exact ⟨frames, off, hframes, hoff, hbad.1, hbad.2, by simp only [BitVec.toNat_ofNat]; exact Nat.mod_eq_of_lt hlt⟩
    · cases ha

end Sys2Proof.Machine
end

