-- ==== Sys2Proof/Laws/State.lean ====
section
/-! SUPPORT. What every register write of Machine/Ops.lean does to every field of the state, one lemma per field and write,
so that no proof unfolds a record update. `db` and `poolSize` are the two views of the fields that proofs read most. -/

namespace Sys2Proof.Machine

/-! ### `setFrequency` -/

@[simp] theorem State.setFrequency_frequency (s : State) (N : Numerics) (v : Rat) : (s.setFrequency N v).frequency = N.q v := rfl
@[simp] theorem State.setFrequency_phase (s : State) (N : Numerics) (v : Rat) : (s.setFrequency N v).phase = s.phase := rfl
@[simp] theorem State.setFrequency_queue (s : State) (N : Numerics) (v : Rat) : (s.setFrequency N v).queue = s.queue := rfl
@[simp] theorem State.setFrequency_segment (s : State) (N : Numerics) (v : Rat) : (s.setFrequency N v).segment = s.segment := rfl
@[simp] theorem State.setFrequency_segmentTime (s : State) (N : Numerics) (v : Rat) : (s.setFrequency N v).segmentTime = s.segmentTime := rfl
@[simp] theorem State.setFrequency_segmentLength (s : State) (N : Numerics) (v : Rat) : (s.setFrequency N v).segmentLength = s.segmentLength := rfl
@[simp] theorem State.setFrequency_oldSegment (s : State) (N : Numerics) (v : Rat) : (s.setFrequency N v).oldSegment = s.oldSegment := rfl
@[simp] theorem State.setFrequency_oldSegmentTime (s : State) (N : Numerics) (v : Rat) : (s.setFrequency N v).oldSegmentTime = s.oldSegmentTime := rfl
@[simp] theorem State.setFrequency_crossfade (s : State) (N : Numerics) (v : Rat) : (s.setFrequency N v).crossfade = s.crossfade := rfl
@[simp] theorem State.setFrequency_crossfadeRamp (s : State) (N : Numerics) (v : Rat) : (s.setFrequency N v).crossfadeRamp = s.crossfadeRamp := rfl
@[simp] theorem State.setFrequency_noteOns (s : State) (N : Numerics) (v : Rat) : (s.setFrequency N v).noteOns = s.noteOns := rfl
@[simp] theorem State.setFrequency_noteOffs (s : State) (N : Numerics) (v : Rat) : (s.setFrequency N v).noteOffs = s.noteOffs := rfl
@[simp] theorem State.setFrequency_nextGrain (s : State) (N : Numerics) (v : Rat) : (s.setFrequency N v).nextGrain = s.nextGrain := rfl
@[simp] theorem State.setFrequency_pool (s : State) (N : Numerics) (v : Rat) : (s.setFrequency N v).pool = s.pool := rfl
@[simp] theorem State.setFrequency_status (s : State) (N : Numerics) (v : Rat) : (s.setFrequency N v).status = s.status := rfl
@[simp] theorem State.setFrequency_lasterr (s : State) (N : Numerics) (v : Rat) : (s.setFrequency N v).lasterr = s.lasterr := rfl
@[simp] theorem State.setFrequency_sample (s : State) (N : Numerics) (v : Rat) : (s.setFrequency N v).sample = s.sample := rfl
@[simp] theorem State.setFrequency_inputs (s : State) (N : Numerics) (v : Rat) : (s.setFrequency N v).inputs = s.inputs := rfl
@[simp] theorem State.setFrequency_qdepth (s : State) (N : Numerics) (v : Rat) : (s.setFrequency N v).qdepth = s.qdepth := rfl
@[simp] theorem State.setFrequency_resetAsserted (s : State) (N : Numerics) (v : Rat) : (s.setFrequency N v).resetAsserted = s.resetAsserted := rfl
@[simp] theorem State.setFrequency_port (s : State) (N : Numerics) (v : Rat) : (s.setFrequency N v).port = s.port := rfl
@[simp] theorem State.setFrequency_db (s : State) (N : Numerics) (v : Rat) : (s.setFrequency N v).db = s.db := rfl
@[simp] theorem State.setFrequency_poolSize (s : State) (N : Numerics) (v : Rat) : (s.setFrequency N v).poolSize = s.poolSize := rfl

/-! ### `setPhase` -/

@[simp] theorem State.setPhase_frequency (s : State) (N : Numerics) (v : Rat) : (s.setPhase N v).frequency = s.frequency := rfl
@[simp] theorem State.setPhase_phase (s : State) (N : Numerics) (v : Rat) : (s.setPhase N v).phase = N.q v := rfl
@[simp] theorem State.setPhase_queue (s : State) (N : Numerics) (v : Rat) : (s.setPhase N v).queue = s.queue := rfl
@[simp] theorem State.setPhase_segment (s : State) (N : Numerics) (v : Rat) : (s.setPhase N v).segment = s.segment := rfl
@[simp] theorem State.setPhase_segmentTime (s : State) (N : Numerics) (v : Rat) : (s.setPhase N v).segmentTime = s.segmentTime := rfl
@[simp] theorem State.setPhase_segmentLength (s : State) (N : Numerics) (v : Rat) : (s.setPhase N v).segmentLength = s.segmentLength := rfl
@[simp] theorem State.setPhase_oldSegment (s : State) (N : Numerics) (v : Rat) : (s.setPhase N v).oldSegment = s.oldSegment := rfl
@[simp] theorem State.setPhase_oldSegmentTime (s : State) (N : Numerics) (v : Rat) : (s.setPhase N v).oldSegmentTime = s.oldSegmentTime := rfl
@[simp] theorem State.setPhase_crossfade (s : State) (N : Numerics) (v : Rat) : (s.setPhase N v).crossfade = s.crossfade := rfl
@[simp] theorem State.setPhase_crossfadeRamp (s : State) (N : Numerics) (v : Rat) : (s.setPhase N v).crossfadeRamp = s.crossfadeRamp := rfl
@[simp] theorem State.setPhase_noteOns (s : State) (N : Numerics) (v : Rat) : (s.setPhase N v).noteOns = s.noteOns := rfl
@[simp] theorem State.setPhase_noteOffs (s : State) (N : Numerics) (v : Rat) : (s.setPhase N v).noteOffs = s.noteOffs := rfl
@[simp] theorem State.setPhase_nextGrain (s : State) (N : Numerics) (v : Rat) : (s.setPhase N v).nextGrain = s.nextGrain := rfl
@[simp] theorem State.setPhase_pool (s : State) (N : Numerics) (v : Rat) : (s.setPhase N v).pool = s.pool := rfl
@[simp] theorem State.setPhase_status (s : State) (N : Numerics) (v : Rat) : (s.setPhase N v).status = s.status := rfl
@[simp] theorem State.setPhase_lasterr (s : State) (N : Numerics) (v : Rat) : (s.setPhase N v).lasterr = s.lasterr := rfl
@[simp] theorem State.setPhase_sample (s : State) (N : Numerics) (v : Rat) : (s.setPhase N v).sample = s.sample := rfl
@[simp] theorem State.setPhase_inputs (s : State) (N : Numerics) (v : Rat) : (s.setPhase N v).inputs = s.inputs := rfl
@[simp] theorem State.setPhase_qdepth (s : State) (N : Numerics) (v : Rat) : (s.setPhase N v).qdepth = s.qdepth := rfl
@[simp] theorem State.setPhase_resetAsserted (s : State) (N : Numerics) (v : Rat) : (s.setPhase N v).resetAsserted = s.resetAsserted := rfl
@[simp] theorem State.setPhase_port (s : State) (N : Numerics) (v : Rat) : (s.setPhase N v).port = s.port := rfl
@[simp] theorem State.setPhase_db (s : State) (N : Numerics) (v : Rat) : (s.setPhase N v).db = s.db := rfl
@[simp] theorem State.setPhase_poolSize (s : State) (N : Numerics) (v : Rat) : (s.setPhase N v).poolSize = s.poolSize := rfl

/-! ### `setQueue` -/

@[simp] theorem State.setQueue_frequency (s : State) (v : List SegIndex) : (s.setQueue v).frequency = s.frequency := rfl
@[simp] theorem State.setQueue_phase (s : State) (v : List SegIndex) : (s.setQueue v).phase = s.phase := rfl
@[simp] theorem State.setQueue_queue (s : State) (v : List SegIndex) : (s.setQueue v).queue = v := rfl
@[simp] theorem State.setQueue_segment (s : State) (v : List SegIndex) : (s.setQueue v).segment = s.segment := rfl
@[simp] theorem State.setQueue_segmentTime (s : State) (v : List SegIndex) : (s.setQueue v).segmentTime = s.segmentTime := rfl
@[simp] theorem State.setQueue_segmentLength (s : State) (v : List SegIndex) : (s.setQueue v).segmentLength = s.segmentLength := rfl
@[simp] theorem State.setQueue_oldSegment (s : State) (v : List SegIndex) : (s.setQueue v).oldSegment = s.oldSegment := rfl
@[simp] theorem State.setQueue_oldSegmentTime (s : State) (v : List SegIndex) : (s.setQueue v).oldSegmentTime = s.oldSegmentTime := rfl
@[simp] theorem State.setQueue_crossfade (s : State) (v : List SegIndex) : (s.setQueue v).crossfade = s.crossfade := rfl
@[simp] theorem State.setQueue_crossfadeRamp (s : State) (v : List SegIndex) : (s.setQueue v).crossfadeRamp = s.crossfadeRamp := rfl
@[simp] theorem State.setQueue_noteOns (s : State) (v : List SegIndex) : (s.setQueue v).noteOns = s.noteOns := rfl
@[simp] theorem State.setQueue_noteOffs (s : State) (v : List SegIndex) : (s.setQueue v).noteOffs = s.noteOffs := rfl
@[simp] theorem State.setQueue_nextGrain (s : State) (v : List SegIndex) : (s.setQueue v).nextGrain = s.nextGrain := rfl
@[simp] theorem State.setQueue_pool (s : State) (v : List SegIndex) : (s.setQueue v).pool = s.pool := rfl
@[simp] theorem State.setQueue_status (s : State) (v : List SegIndex) : (s.setQueue v).status = s.status := rfl
@[simp] theorem State.setQueue_lasterr (s : State) (v : List SegIndex) : (s.setQueue v).lasterr = s.lasterr := rfl
@[simp] theorem State.setQueue_sample (s : State) (v : List SegIndex) : (s.setQueue v).sample = s.sample := rfl
@[simp] theorem State.setQueue_inputs (s : State) (v : List SegIndex) : (s.setQueue v).inputs = s.inputs := rfl
@[simp] theorem State.setQueue_qdepth (s : State) (v : List SegIndex) : (s.setQueue v).qdepth = s.qdepth := rfl
@[simp] theorem State.setQueue_resetAsserted (s : State) (v : List SegIndex) : (s.setQueue v).resetAsserted = s.resetAsserted := rfl
@[simp] theorem State.setQueue_port (s : State) (v : List SegIndex) : (s.setQueue v).port = s.port := rfl
@[simp] theorem State.setQueue_db (s : State) (v : List SegIndex) : (s.setQueue v).db = s.db := rfl
@[simp] theorem State.setQueue_poolSize (s : State) (v : List SegIndex) : (s.setQueue v).poolSize = s.poolSize := rfl

/-! ### `setSegment` -/

@[simp] theorem State.setSegment_frequency (s : State) (v : SegIndex) : (s.setSegment v).frequency = s.frequency := rfl
@[simp] theorem State.setSegment_phase (s : State) (v : SegIndex) : (s.setSegment v).phase = s.phase := rfl
@[simp] theorem State.setSegment_queue (s : State) (v : SegIndex) : (s.setSegment v).queue = s.queue := rfl
@[simp] theorem State.setSegment_segment (s : State) (v : SegIndex) : (s.setSegment v).segment = v := rfl
@[simp] theorem State.setSegment_segmentTime (s : State) (v : SegIndex) : (s.setSegment v).segmentTime = s.segmentTime := rfl
@[simp] theorem State.setSegment_segmentLength (s : State) (v : SegIndex) : (s.setSegment v).segmentLength = s.segmentLength := rfl
@[simp] theorem State.setSegment_oldSegment (s : State) (v : SegIndex) : (s.setSegment v).oldSegment = s.oldSegment := rfl
@[simp] theorem State.setSegment_oldSegmentTime (s : State) (v : SegIndex) : (s.setSegment v).oldSegmentTime = s.oldSegmentTime := rfl
@[simp] theorem State.setSegment_crossfade (s : State) (v : SegIndex) : (s.setSegment v).crossfade = s.crossfade := rfl
@[simp] theorem State.setSegment_crossfadeRamp (s : State) (v : SegIndex) : (s.setSegment v).crossfadeRamp = s.crossfadeRamp := rfl
@[simp] theorem State.setSegment_noteOns (s : State) (v : SegIndex) : (s.setSegment v).noteOns = s.noteOns := rfl
@[simp] theorem State.setSegment_noteOffs (s : State) (v : SegIndex) : (s.setSegment v).noteOffs = s.noteOffs := rfl
@[simp] theorem State.setSegment_nextGrain (s : State) (v : SegIndex) : (s.setSegment v).nextGrain = s.nextGrain := rfl
@[simp] theorem State.setSegment_pool (s : State) (v : SegIndex) : (s.setSegment v).pool = s.pool := rfl
@[simp] theorem State.setSegment_status (s : State) (v : SegIndex) : (s.setSegment v).status = s.status := rfl
@[simp] theorem State.setSegment_lasterr (s : State) (v : SegIndex) : (s.setSegment v).lasterr = s.lasterr := rfl
@[simp] theorem State.setSegment_sample (s : State) (v : SegIndex) : (s.setSegment v).sample = s.sample := rfl
@[simp] theorem State.setSegment_inputs (s : State) (v : SegIndex) : (s.setSegment v).inputs = s.inputs := rfl
@[simp] theorem State.setSegment_qdepth (s : State) (v : SegIndex) : (s.setSegment v).qdepth = s.qdepth := rfl
@[simp] theorem State.setSegment_resetAsserted (s : State) (v : SegIndex) : (s.setSegment v).resetAsserted = s.resetAsserted := rfl
@[simp] theorem State.setSegment_port (s : State) (v : SegIndex) : (s.setSegment v).port = s.port := rfl
@[simp] theorem State.setSegment_db (s : State) (v : SegIndex) : (s.setSegment v).db = s.db := rfl
@[simp] theorem State.setSegment_poolSize (s : State) (v : SegIndex) : (s.setSegment v).poolSize = s.poolSize := rfl

/-! ### `setSegmentTime` -/

@[simp] theorem State.setSegmentTime_frequency (s : State) (N : Numerics) (v : Rat) : (s.setSegmentTime N v).frequency = s.frequency := rfl
@[simp] theorem State.setSegmentTime_phase (s : State) (N : Numerics) (v : Rat) : (s.setSegmentTime N v).phase = s.phase := rfl
@[simp] theorem State.setSegmentTime_queue (s : State) (N : Numerics) (v : Rat) : (s.setSegmentTime N v).queue = s.queue := rfl
@[simp] theorem State.setSegmentTime_segment (s : State) (N : Numerics) (v : Rat) : (s.setSegmentTime N v).segment = s.segment := rfl
@[simp] theorem State.setSegmentTime_segmentTime (s : State) (N : Numerics) (v : Rat) : (s.setSegmentTime N v).segmentTime = N.q v := rfl
@[simp] theorem State.setSegmentTime_segmentLength (s : State) (N : Numerics) (v : Rat) : (s.setSegmentTime N v).segmentLength = s.segmentLength := rfl
@[simp] theorem State.setSegmentTime_oldSegment (s : State) (N : Numerics) (v : Rat) : (s.setSegmentTime N v).oldSegment = s.oldSegment := rfl
@[simp] theorem State.setSegmentTime_oldSegmentTime (s : State) (N : Numerics) (v : Rat) : (s.setSegmentTime N v).oldSegmentTime = s.oldSegmentTime := rfl
@[simp] theorem State.setSegmentTime_crossfade (s : State) (N : Numerics) (v : Rat) : (s.setSegmentTime N v).crossfade = s.crossfade := rfl
@[simp] theorem State.setSegmentTime_crossfadeRamp (s : State) (N : Numerics) (v : Rat) : (s.setSegmentTime N v).crossfadeRamp = s.crossfadeRamp := rfl
@[simp] theorem State.setSegmentTime_noteOns (s : State) (N : Numerics) (v : Rat) : (s.setSegmentTime N v).noteOns = s.noteOns := rfl
@[simp] theorem State.setSegmentTime_noteOffs (s : State) (N : Numerics) (v : Rat) : (s.setSegmentTime N v).noteOffs = s.noteOffs := rfl
@[simp] theorem State.setSegmentTime_nextGrain (s : State) (N : Numerics) (v : Rat) : (s.setSegmentTime N v).nextGrain = s.nextGrain := rfl
@[simp] theorem State.setSegmentTime_pool (s : State) (N : Numerics) (v : Rat) : (s.setSegmentTime N v).pool = s.pool := rfl
@[simp] theorem State.setSegmentTime_status (s : State) (N : Numerics) (v : Rat) : (s.setSegmentTime N v).status = s.status := rfl
@[simp] theorem State.setSegmentTime_lasterr (s : State) (N : Numerics) (v : Rat) : (s.setSegmentTime N v).lasterr = s.lasterr := rfl
@[simp] theorem State.setSegmentTime_sample (s : State) (N : Numerics) (v : Rat) : (s.setSegmentTime N v).sample = s.sample := rfl
@[simp] theorem State.setSegmentTime_inputs (s : State) (N : Numerics) (v : Rat) : (s.setSegmentTime N v).inputs = s.inputs := rfl
@[simp] theorem State.setSegmentTime_qdepth (s : State) (N : Numerics) (v : Rat) : (s.setSegmentTime N v).qdepth = s.qdepth := rfl
@[simp] theorem State.setSegmentTime_resetAsserted (s : State) (N : Numerics) (v : Rat) : (s.setSegmentTime N v).resetAsserted = s.resetAsserted := rfl
@[simp] theorem State.setSegmentTime_port (s : State) (N : Numerics) (v : Rat) : (s.setSegmentTime N v).port = s.port := rfl
@[simp] theorem State.setSegmentTime_db (s : State) (N : Numerics) (v : Rat) : (s.setSegmentTime N v).db = s.db := rfl
@[simp] theorem State.setSegmentTime_poolSize (s : State) (N : Numerics) (v : Rat) : (s.setSegmentTime N v).poolSize = s.poolSize := rfl

/-! ### `setSegmentLength` -/

@[simp] theorem State.setSegmentLength_frequency (s : State) (N : Numerics) (v : Rat) : (s.setSegmentLength N v).frequency = s.frequency := rfl
@[simp] theorem State.setSegmentLength_phase (s : State) (N : Numerics) (v : Rat) : (s.setSegmentLength N v).phase = s.phase := rfl
@[simp] theorem State.setSegmentLength_queue (s : State) (N : Numerics) (v : Rat) : (s.setSegmentLength N v).queue = s.queue := rfl
@[simp] theorem State.setSegmentLength_segment (s : State) (N : Numerics) (v : Rat) : (s.setSegmentLength N v).segment = s.segment := rfl
@[simp] theorem State.setSegmentLength_segmentTime (s : State) (N : Numerics) (v : Rat) : (s.setSegmentLength N v).segmentTime = s.segmentTime := rfl
@[simp] theorem State.setSegmentLength_segmentLength (s : State) (N : Numerics) (v : Rat) : (s.setSegmentLength N v).segmentLength = N.q v := rfl
@[simp] theorem State.setSegmentLength_oldSegment (s : State) (N : Numerics) (v : Rat) : (s.setSegmentLength N v).oldSegment = s.oldSegment := rfl
@[simp] theorem State.setSegmentLength_oldSegmentTime (s : State) (N : Numerics) (v : Rat) : (s.setSegmentLength N v).oldSegmentTime = s.oldSegmentTime := rfl
@[simp] theorem State.setSegmentLength_crossfade (s : State) (N : Numerics) (v : Rat) : (s.setSegmentLength N v).crossfade = s.crossfade := rfl
@[simp] theorem State.setSegmentLength_crossfadeRamp (s : State) (N : Numerics) (v : Rat) : (s.setSegmentLength N v).crossfadeRamp = s.crossfadeRamp := rfl
@[simp] theorem State.setSegmentLength_noteOns (s : State) (N : Numerics) (v : Rat) : (s.setSegmentLength N v).noteOns = s.noteOns := rfl
@[simp] theorem State.setSegmentLength_noteOffs (s : State) (N : Numerics) (v : Rat) : (s.setSegmentLength N v).noteOffs = s.noteOffs := rfl
@[simp] theorem State.setSegmentLength_nextGrain (s : State) (N : Numerics) (v : Rat) : (s.setSegmentLength N v).nextGrain = s.nextGrain := rfl
@[simp] theorem State.setSegmentLength_pool (s : State) (N : Numerics) (v : Rat) : (s.setSegmentLength N v).pool = s.pool := rfl
@[simp] theorem State.setSegmentLength_status (s : State) (N : Numerics) (v : Rat) : (s.setSegmentLength N v).status = s.status := rfl
@[simp] theorem State.setSegmentLength_lasterr (s : State) (N : Numerics) (v : Rat) : (s.setSegmentLength N v).lasterr = s.lasterr := rfl
@[simp] theorem State.setSegmentLength_sample (s : State) (N : Numerics) (v : Rat) : (s.setSegmentLength N v).sample = s.sample := rfl
@[simp] theorem State.setSegmentLength_inputs (s : State) (N : Numerics) (v : Rat) : (s.setSegmentLength N v).inputs = s.inputs := rfl
@[simp] theorem State.setSegmentLength_qdepth (s : State) (N : Numerics) (v : Rat) : (s.setSegmentLength N v).qdepth = s.qdepth := rfl
@[simp] theorem State.setSegmentLength_resetAsserted (s : State) (N : Numerics) (v : Rat) : (s.setSegmentLength N v).resetAsserted = s.resetAsserted := rfl
@[simp] theorem State.setSegmentLength_port (s : State) (N : Numerics) (v : Rat) : (s.setSegmentLength N v).port = s.port := rfl
@[simp] theorem State.setSegmentLength_db (s : State) (N : Numerics) (v : Rat) : (s.setSegmentLength N v).db = s.db := rfl
@[simp] theorem State.setSegmentLength_poolSize (s : State) (N : Numerics) (v : Rat) : (s.setSegmentLength N v).poolSize = s.poolSize := rfl

/-! ### `setOldSegment` -/

@[simp] theorem State.setOldSegment_frequency (s : State) (v : SegIndex) : (s.setOldSegment v).frequency = s.frequency := rfl
@[simp] theorem State.setOldSegment_phase (s : State) (v : SegIndex) : (s.setOldSegment v).phase = s.phase := rfl
@[simp] theorem State.setOldSegment_queue (s : State) (v : SegIndex) : (s.setOldSegment v).queue = s.queue := rfl
@[simp] theorem State.setOldSegment_segment (s : State) (v : SegIndex) : (s.setOldSegment v).segment = s.segment := rfl
@[simp] theorem State.setOldSegment_segmentTime (s : State) (v : SegIndex) : (s.setOldSegment v).segmentTime = s.segmentTime := rfl
@[simp] theorem State.setOldSegment_segmentLength (s : State) (v : SegIndex) : (s.setOldSegment v).segmentLength = s.segmentLength := rfl
@[simp] theorem State.setOldSegment_oldSegment (s : State) (v : SegIndex) : (s.setOldSegment v).oldSegment = v := rfl
@[simp] theorem State.setOldSegment_oldSegmentTime (s : State) (v : SegIndex) : (s.setOldSegment v).oldSegmentTime = s.oldSegmentTime := rfl
@[simp] theorem State.setOldSegment_crossfade (s : State) (v : SegIndex) : (s.setOldSegment v).crossfade = s.crossfade := rfl
@[simp] theorem State.setOldSegment_crossfadeRamp (s : State) (v : SegIndex) : (s.setOldSegment v).crossfadeRamp = s.crossfadeRamp := rfl
@[simp] theorem State.setOldSegment_noteOns (s : State) (v : SegIndex) : (s.setOldSegment v).noteOns = s.noteOns := rfl
@[simp] theorem State.setOldSegment_noteOffs (s : State) (v : SegIndex) : (s.setOldSegment v).noteOffs = s.noteOffs := rfl
@[simp] theorem State.setOldSegment_nextGrain (s : State) (v : SegIndex) : (s.setOldSegment v).nextGrain = s.nextGrain := rfl
@[simp] theorem State.setOldSegment_pool (s : State) (v : SegIndex) : (s.setOldSegment v).pool = s.pool := rfl
@[simp] theorem State.setOldSegment_status (s : State) (v : SegIndex) : (s.setOldSegment v).status = s.status := rfl
@[simp] theorem State.setOldSegment_lasterr (s : State) (v : SegIndex) : (s.setOldSegment v).lasterr = s.lasterr := rfl
@[simp] theorem State.setOldSegment_sample (s : State) (v : SegIndex) : (s.setOldSegment v).sample = s.sample := rfl
@[simp] theorem State.setOldSegment_inputs (s : State) (v : SegIndex) : (s.setOldSegment v).inputs = s.inputs := rfl
@[simp] theorem State.setOldSegment_qdepth (s : State) (v : SegIndex) : (s.setOldSegment v).qdepth = s.qdepth := rfl
@[simp] theorem State.setOldSegment_resetAsserted (s : State) (v : SegIndex) : (s.setOldSegment v).resetAsserted = s.resetAsserted := rfl
@[simp] theorem State.setOldSegment_port (s : State) (v : SegIndex) : (s.setOldSegment v).port = s.port := rfl
@[simp] theorem State.setOldSegment_db (s : State) (v : SegIndex) : (s.setOldSegment v).db = s.db := rfl
@[simp] theorem State.setOldSegment_poolSize (s : State) (v : SegIndex) : (s.setOldSegment v).poolSize = s.poolSize := rfl

/-! ### `setOldSegmentTime` -/

@[simp] theorem State.setOldSegmentTime_frequency (s : State) (N : Numerics) (v : Rat) : (s.setOldSegmentTime N v).frequency = s.frequency := rfl
@[simp] theorem State.setOldSegmentTime_phase (s : State) (N : Numerics) (v : Rat) : (s.setOldSegmentTime N v).phase = s.phase := rfl
@[simp] theorem State.setOldSegmentTime_queue (s : State) (N : Numerics) (v : Rat) : (s.setOldSegmentTime N v).queue = s.queue := rfl
@[simp] theorem State.setOldSegmentTime_segment (s : State) (N : Numerics) (v : Rat) : (s.setOldSegmentTime N v).segment = s.segment := rfl
@[simp] theorem State.setOldSegmentTime_segmentTime (s : State) (N : Numerics) (v : Rat) : (s.setOldSegmentTime N v).segmentTime = s.segmentTime := rfl
@[simp] theorem State.setOldSegmentTime_segmentLength (s : State) (N : Numerics) (v : Rat) : (s.setOldSegmentTime N v).segmentLength = s.segmentLength := rfl
@[simp] theorem State.setOldSegmentTime_oldSegment (s : State) (N : Numerics) (v : Rat) : (s.setOldSegmentTime N v).oldSegment = s.oldSegment := rfl
@[simp] theorem State.setOldSegmentTime_oldSegmentTime (s : State) (N : Numerics) (v : Rat) : (s.setOldSegmentTime N v).oldSegmentTime = N.q v := rfl
@[simp] theorem State.setOldSegmentTime_crossfade (s : State) (N : Numerics) (v : Rat) : (s.setOldSegmentTime N v).crossfade = s.crossfade := rfl
@[simp] theorem State.setOldSegmentTime_crossfadeRamp (s : State) (N : Numerics) (v : Rat) : (s.setOldSegmentTime N v).crossfadeRamp = s.crossfadeRamp := rfl
@[simp] theorem State.setOldSegmentTime_noteOns (s : State) (N : Numerics) (v : Rat) : (s.setOldSegmentTime N v).noteOns = s.noteOns := rfl
@[simp] theorem State.setOldSegmentTime_noteOffs (s : State) (N : Numerics) (v : Rat) : (s.setOldSegmentTime N v).noteOffs = s.noteOffs := rfl
@[simp] theorem State.setOldSegmentTime_nextGrain (s : State) (N : Numerics) (v : Rat) : (s.setOldSegmentTime N v).nextGrain = s.nextGrain := rfl
@[simp] theorem State.setOldSegmentTime_pool (s : State) (N : Numerics) (v : Rat) : (s.setOldSegmentTime N v).pool = s.pool := rfl
@[simp] theorem State.setOldSegmentTime_status (s : State) (N : Numerics) (v : Rat) : (s.setOldSegmentTime N v).status = s.status := rfl
@[simp] theorem State.setOldSegmentTime_lasterr (s : State) (N : Numerics) (v : Rat) : (s.setOldSegmentTime N v).lasterr = s.lasterr := rfl
@[simp] theorem State.setOldSegmentTime_sample (s : State) (N : Numerics) (v : Rat) : (s.setOldSegmentTime N v).sample = s.sample := rfl
@[simp] theorem State.setOldSegmentTime_inputs (s : State) (N : Numerics) (v : Rat) : (s.setOldSegmentTime N v).inputs = s.inputs := rfl
@[simp] theorem State.setOldSegmentTime_qdepth (s : State) (N : Numerics) (v : Rat) : (s.setOldSegmentTime N v).qdepth = s.qdepth := rfl
@[simp] theorem State.setOldSegmentTime_resetAsserted (s : State) (N : Numerics) (v : Rat) : (s.setOldSegmentTime N v).resetAsserted = s.resetAsserted := rfl
@[simp] theorem State.setOldSegmentTime_port (s : State) (N : Numerics) (v : Rat) : (s.setOldSegmentTime N v).port = s.port := rfl
@[simp] theorem State.setOldSegmentTime_db (s : State) (N : Numerics) (v : Rat) : (s.setOldSegmentTime N v).db = s.db := rfl
@[simp] theorem State.setOldSegmentTime_poolSize (s : State) (N : Numerics) (v : Rat) : (s.setOldSegmentTime N v).poolSize = s.poolSize := rfl

/-! ### `setCrossfade` -/

@[simp] theorem State.setCrossfade_frequency (s : State) (N : Numerics) (v : Rat) : (s.setCrossfade N v).frequency = s.frequency := rfl
@[simp] theorem State.setCrossfade_phase (s : State) (N : Numerics) (v : Rat) : (s.setCrossfade N v).phase = s.phase := rfl
@[simp] theorem State.setCrossfade_queue (s : State) (N : Numerics) (v : Rat) : (s.setCrossfade N v).queue = s.queue := rfl
@[simp] theorem State.setCrossfade_segment (s : State) (N : Numerics) (v : Rat) : (s.setCrossfade N v).segment = s.segment := rfl
@[simp] theorem State.setCrossfade_segmentTime (s : State) (N : Numerics) (v : Rat) : (s.setCrossfade N v).segmentTime = s.segmentTime := rfl
@[simp] theorem State.setCrossfade_segmentLength (s : State) (N : Numerics) (v : Rat) : (s.setCrossfade N v).segmentLength = s.segmentLength := rfl
@[simp] theorem State.setCrossfade_oldSegment (s : State) (N : Numerics) (v : Rat) : (s.setCrossfade N v).oldSegment = s.oldSegment := rfl
@[simp] theorem State.setCrossfade_oldSegmentTime (s : State) (N : Numerics) (v : Rat) : (s.setCrossfade N v).oldSegmentTime = s.oldSegmentTime := rfl
@[simp] theorem State.setCrossfade_crossfade (s : State) (N : Numerics) (v : Rat) : (s.setCrossfade N v).crossfade = N.q v := rfl
@[simp] theorem State.setCrossfade_crossfadeRamp (s : State) (N : Numerics) (v : Rat) : (s.setCrossfade N v).crossfadeRamp = s.crossfadeRamp := rfl
@[simp] theorem State.setCrossfade_noteOns (s : State) (N : Numerics) (v : Rat) : (s.setCrossfade N v).noteOns = s.noteOns := rfl
@[simp] theorem State.setCrossfade_noteOffs (s : State) (N : Numerics) (v : Rat) : (s.setCrossfade N v).noteOffs = s.noteOffs := rfl
@[simp] theorem State.setCrossfade_nextGrain (s : State) (N : Numerics) (v : Rat) : (s.setCrossfade N v).nextGrain = s.nextGrain := rfl
@[simp] theorem State.setCrossfade_pool (s : State) (N : Numerics) (v : Rat) : (s.setCrossfade N v).pool = s.pool := rfl
@[simp] theorem State.setCrossfade_status (s : State) (N : Numerics) (v : Rat) : (s.setCrossfade N v).status = s.status := rfl
@[simp] theorem State.setCrossfade_lasterr (s : State) (N : Numerics) (v : Rat) : (s.setCrossfade N v).lasterr = s.lasterr := rfl
@[simp] theorem State.setCrossfade_sample (s : State) (N : Numerics) (v : Rat) : (s.setCrossfade N v).sample = s.sample := rfl
@[simp] theorem State.setCrossfade_inputs (s : State) (N : Numerics) (v : Rat) : (s.setCrossfade N v).inputs = s.inputs := rfl
@[simp] theorem State.setCrossfade_qdepth (s : State) (N : Numerics) (v : Rat) : (s.setCrossfade N v).qdepth = s.qdepth := rfl
@[simp] theorem State.setCrossfade_resetAsserted (s : State) (N : Numerics) (v : Rat) : (s.setCrossfade N v).resetAsserted = s.resetAsserted := rfl
@[simp] theorem State.setCrossfade_port (s : State) (N : Numerics) (v : Rat) : (s.setCrossfade N v).port = s.port := rfl
@[simp] theorem State.setCrossfade_db (s : State) (N : Numerics) (v : Rat) : (s.setCrossfade N v).db = s.db := rfl
@[simp] theorem State.setCrossfade_poolSize (s : State) (N : Numerics) (v : Rat) : (s.setCrossfade N v).poolSize = s.poolSize := rfl

/-! ### `setCrossfadeRamp` -/

@[simp] theorem State.setCrossfadeRamp_frequency (s : State) (N : Numerics) (v : Rat) : (s.setCrossfadeRamp N v).frequency = s.frequency := rfl
@[simp] theorem State.setCrossfadeRamp_phase (s : State) (N : Numerics) (v : Rat) : (s.setCrossfadeRamp N v).phase = s.phase := rfl
@[simp] theorem State.setCrossfadeRamp_queue (s : State) (N : Numerics) (v : Rat) : (s.setCrossfadeRamp N v).queue = s.queue := rfl
@[simp] theorem State.setCrossfadeRamp_segment (s : State) (N : Numerics) (v : Rat) : (s.setCrossfadeRamp N v).segment = s.segment := rfl
@[simp] theorem State.setCrossfadeRamp_segmentTime (s : State) (N : Numerics) (v : Rat) : (s.setCrossfadeRamp N v).segmentTime = s.segmentTime := rfl
@[simp] theorem State.setCrossfadeRamp_segmentLength (s : State) (N : Numerics) (v : Rat) : (s.setCrossfadeRamp N v).segmentLength = s.segmentLength := rfl
@[simp] theorem State.setCrossfadeRamp_oldSegment (s : State) (N : Numerics) (v : Rat) : (s.setCrossfadeRamp N v).oldSegment = s.oldSegment := rfl
@[simp] theorem State.setCrossfadeRamp_oldSegmentTime (s : State) (N : Numerics) (v : Rat) : (s.setCrossfadeRamp N v).oldSegmentTime = s.oldSegmentTime := rfl
@[simp] theorem State.setCrossfadeRamp_crossfade (s : State) (N : Numerics) (v : Rat) : (s.setCrossfadeRamp N v).crossfade = s.crossfade := rfl
@[simp] theorem State.setCrossfadeRamp_crossfadeRamp (s : State) (N : Numerics) (v : Rat) : (s.setCrossfadeRamp N v).crossfadeRamp = N.q v := rfl
@[simp] theorem State.setCrossfadeRamp_noteOns (s : State) (N : Numerics) (v : Rat) : (s.setCrossfadeRamp N v).noteOns = s.noteOns := rfl
@[simp] theorem State.setCrossfadeRamp_noteOffs (s : State) (N : Numerics) (v : Rat) : (s.setCrossfadeRamp N v).noteOffs = s.noteOffs := rfl
@[simp] theorem State.setCrossfadeRamp_nextGrain (s : State) (N : Numerics) (v : Rat) : (s.setCrossfadeRamp N v).nextGrain = s.nextGrain := rfl
@[simp] theorem State.setCrossfadeRamp_pool (s : State) (N : Numerics) (v : Rat) : (s.setCrossfadeRamp N v).pool = s.pool := rfl
@[simp] theorem State.setCrossfadeRamp_status (s : State) (N : Numerics) (v : Rat) : (s.setCrossfadeRamp N v).status = s.status := rfl
@[simp] theorem State.setCrossfadeRamp_lasterr (s : State) (N : Numerics) (v : Rat) : (s.setCrossfadeRamp N v).lasterr = s.lasterr := rfl
@[simp] theorem State.setCrossfadeRamp_sample (s : State) (N : Numerics) (v : Rat) : (s.setCrossfadeRamp N v).sample = s.sample := rfl
@[simp] theorem State.setCrossfadeRamp_inputs (s : State) (N : Numerics) (v : Rat) : (s.setCrossfadeRamp N v).inputs = s.inputs := rfl
@[simp] theorem State.setCrossfadeRamp_qdepth (s : State) (N : Numerics) (v : Rat) : (s.setCrossfadeRamp N v).qdepth = s.qdepth := rfl
@[simp] theorem State.setCrossfadeRamp_resetAsserted (s : State) (N : Numerics) (v : Rat) : (s.setCrossfadeRamp N v).resetAsserted = s.resetAsserted := rfl
@[simp] theorem State.setCrossfadeRamp_port (s : State) (N : Numerics) (v : Rat) : (s.setCrossfadeRamp N v).port = s.port := rfl
@[simp] theorem State.setCrossfadeRamp_db (s : State) (N : Numerics) (v : Rat) : (s.setCrossfadeRamp N v).db = s.db := rfl
@[simp] theorem State.setCrossfadeRamp_poolSize (s : State) (N : Numerics) (v : Rat) : (s.setCrossfadeRamp N v).poolSize = s.poolSize := rfl

/-! ### `setNoteOns` -/

@[simp] theorem State.setNoteOns_frequency (s : State) (v : BitVec 32) : (s.setNoteOns v).frequency = s.frequency := rfl
@[simp] theorem State.setNoteOns_phase (s : State) (v : BitVec 32) : (s.setNoteOns v).phase = s.phase := rfl
@[simp] theorem State.setNoteOns_queue (s : State) (v : BitVec 32) : (s.setNoteOns v).queue = s.queue := rfl
@[simp] theorem State.setNoteOns_segment (s : State) (v : BitVec 32) : (s.setNoteOns v).segment = s.segment := rfl
@[simp] theorem State.setNoteOns_segmentTime (s : State) (v : BitVec 32) : (s.setNoteOns v).segmentTime = s.segmentTime := rfl
@[simp] theorem State.setNoteOns_segmentLength (s : State) (v : BitVec 32) : (s.setNoteOns v).segmentLength = s.segmentLength := rfl
@[simp] theorem State.setNoteOns_oldSegment (s : State) (v : BitVec 32) : (s.setNoteOns v).oldSegment = s.oldSegment := rfl
@[simp] theorem State.setNoteOns_oldSegmentTime (s : State) (v : BitVec 32) : (s.setNoteOns v).oldSegmentTime = s.oldSegmentTime := rfl
@[simp] theorem State.setNoteOns_crossfade (s : State) (v : BitVec 32) : (s.setNoteOns v).crossfade = s.crossfade := rfl
@[simp] theorem State.setNoteOns_crossfadeRamp (s : State) (v : BitVec 32) : (s.setNoteOns v).crossfadeRamp = s.crossfadeRamp := rfl
@[simp] theorem State.setNoteOns_noteOns (s : State) (v : BitVec 32) : (s.setNoteOns v).noteOns = v := rfl
@[simp] theorem State.setNoteOns_noteOffs (s : State) (v : BitVec 32) : (s.setNoteOns v).noteOffs = s.noteOffs := rfl
@[simp] theorem State.setNoteOns_nextGrain (s : State) (v : BitVec 32) : (s.setNoteOns v).nextGrain = s.nextGrain := rfl
@[simp] theorem State.setNoteOns_pool (s : State) (v : BitVec 32) : (s.setNoteOns v).pool = s.pool := rfl
@[simp] theorem State.setNoteOns_status (s : State) (v : BitVec 32) : (s.setNoteOns v).status = s.status := rfl
@[simp] theorem State.setNoteOns_lasterr (s : State) (v : BitVec 32) : (s.setNoteOns v).lasterr = s.lasterr := rfl
@[simp] theorem State.setNoteOns_sample (s : State) (v : BitVec 32) : (s.setNoteOns v).sample = s.sample := rfl
@[simp] theorem State.setNoteOns_inputs (s : State) (v : BitVec 32) : (s.setNoteOns v).inputs = s.inputs := rfl
@[simp] theorem State.setNoteOns_qdepth (s : State) (v : BitVec 32) : (s.setNoteOns v).qdepth = s.qdepth := rfl
@[simp] theorem State.setNoteOns_resetAsserted (s : State) (v : BitVec 32) : (s.setNoteOns v).resetAsserted = s.resetAsserted := rfl
@[simp] theorem State.setNoteOns_port (s : State) (v : BitVec 32) : (s.setNoteOns v).port = s.port := rfl
@[simp] theorem State.setNoteOns_db (s : State) (v : BitVec 32) : (s.setNoteOns v).db = s.db := rfl
@[simp] theorem State.setNoteOns_poolSize (s : State) (v : BitVec 32) : (s.setNoteOns v).poolSize = s.poolSize := rfl

/-! ### `setNoteOffs` -/

@[simp] theorem State.setNoteOffs_frequency (s : State) (v : BitVec 32) : (s.setNoteOffs v).frequency = s.frequency := rfl
@[simp] theorem State.setNoteOffs_phase (s : State) (v : BitVec 32) : (s.setNoteOffs v).phase = s.phase := rfl
@[simp] theorem State.setNoteOffs_queue (s : State) (v : BitVec 32) : (s.setNoteOffs v).queue = s.queue := rfl
@[simp] theorem State.setNoteOffs_segment (s : State) (v : BitVec 32) : (s.setNoteOffs v).segment = s.segment := rfl
@[simp] theorem State.setNoteOffs_segmentTime (s : State) (v : BitVec 32) : (s.setNoteOffs v).segmentTime = s.segmentTime := rfl
@[simp] theorem State.setNoteOffs_segmentLength (s : State) (v : BitVec 32) : (s.setNoteOffs v).segmentLength = s.segmentLength := rfl
@[simp] theorem State.setNoteOffs_oldSegment (s : State) (v : BitVec 32) : (s.setNoteOffs v).oldSegment = s.oldSegment := rfl
@[simp] theorem State.setNoteOffs_oldSegmentTime (s : State) (v : BitVec 32) : (s.setNoteOffs v).oldSegmentTime = s.oldSegmentTime := rfl
@[simp] theorem State.setNoteOffs_crossfade (s : State) (v : BitVec 32) : (s.setNoteOffs v).crossfade = s.crossfade := rfl
@[simp] theorem State.setNoteOffs_crossfadeRamp (s : State) (v : BitVec 32) : (s.setNoteOffs v).crossfadeRamp = s.crossfadeRamp := rfl
@[simp] theorem State.setNoteOffs_noteOns (s : State) (v : BitVec 32) : (s.setNoteOffs v).noteOns = s.noteOns := rfl
@[simp] theorem State.setNoteOffs_noteOffs (s : State) (v : BitVec 32) : (s.setNoteOffs v).noteOffs = v := rfl
@[simp] theorem State.setNoteOffs_nextGrain (s : State) (v : BitVec 32) : (s.setNoteOffs v).nextGrain = s.nextGrain := rfl
@[simp] theorem State.setNoteOffs_pool (s : State) (v : BitVec 32) : (s.setNoteOffs v).pool = s.pool := rfl
@[simp] theorem State.setNoteOffs_status (s : State) (v : BitVec 32) : (s.setNoteOffs v).status = s.status := rfl
@[simp] theorem State.setNoteOffs_lasterr (s : State) (v : BitVec 32) : (s.setNoteOffs v).lasterr = s.lasterr := rfl
@[simp] theorem State.setNoteOffs_sample (s : State) (v : BitVec 32) : (s.setNoteOffs v).sample = s.sample := rfl
@[simp] theorem State.setNoteOffs_inputs (s : State) (v : BitVec 32) : (s.setNoteOffs v).inputs = s.inputs := rfl
@[simp] theorem State.setNoteOffs_qdepth (s : State) (v : BitVec 32) : (s.setNoteOffs v).qdepth = s.qdepth := rfl
@[simp] theorem State.setNoteOffs_resetAsserted (s : State) (v : BitVec 32) : (s.setNoteOffs v).resetAsserted = s.resetAsserted := rfl
@[simp] theorem State.setNoteOffs_port (s : State) (v : BitVec 32) : (s.setNoteOffs v).port = s.port := rfl
@[simp] theorem State.setNoteOffs_db (s : State) (v : BitVec 32) : (s.setNoteOffs v).db = s.db := rfl
@[simp] theorem State.setNoteOffs_poolSize (s : State) (v : BitVec 32) : (s.setNoteOffs v).poolSize = s.poolSize := rfl

/-! ### `setNextGrain` -/

@[simp] theorem State.setNextGrain_frequency (s : State) (v : Nat) : (s.setNextGrain v).frequency = s.frequency := rfl
@[simp] theorem State.setNextGrain_phase (s : State) (v : Nat) : (s.setNextGrain v).phase = s.phase := rfl
@[simp] theorem State.setNextGrain_queue (s : State) (v : Nat) : (s.setNextGrain v).queue = s.queue := rfl
@[simp] theorem State.setNextGrain_segment (s : State) (v : Nat) : (s.setNextGrain v).segment = s.segment := rfl
@[simp] theorem State.setNextGrain_segmentTime (s : State) (v : Nat) : (s.setNextGrain v).segmentTime = s.segmentTime := rfl
@[simp] theorem State.setNextGrain_segmentLength (s : State) (v : Nat) : (s.setNextGrain v).segmentLength = s.segmentLength := rfl
@[simp] theorem State.setNextGrain_oldSegment (s : State) (v : Nat) : (s.setNextGrain v).oldSegment = s.oldSegment := rfl
@[simp] theorem State.setNextGrain_oldSegmentTime (s : State) (v : Nat) : (s.setNextGrain v).oldSegmentTime = s.oldSegmentTime := rfl
@[simp] theorem State.setNextGrain_crossfade (s : State) (v : Nat) : (s.setNextGrain v).crossfade = s.crossfade := rfl
@[simp] theorem State.setNextGrain_crossfadeRamp (s : State) (v : Nat) : (s.setNextGrain v).crossfadeRamp = s.crossfadeRamp := rfl
@[simp] theorem State.setNextGrain_noteOns (s : State) (v : Nat) : (s.setNextGrain v).noteOns = s.noteOns := rfl
@[simp] theorem State.setNextGrain_noteOffs (s : State) (v : Nat) : (s.setNextGrain v).noteOffs = s.noteOffs := rfl
@[simp] theorem State.setNextGrain_nextGrain (s : State) (v : Nat) : (s.setNextGrain v).nextGrain = v := rfl
@[simp] theorem State.setNextGrain_pool (s : State) (v : Nat) : (s.setNextGrain v).pool = s.pool := rfl
@[simp] theorem State.setNextGrain_status (s : State) (v : Nat) : (s.setNextGrain v).status = s.status := rfl
@[simp] theorem State.setNextGrain_lasterr (s : State) (v : Nat) : (s.setNextGrain v).lasterr = s.lasterr := rfl
@[simp] theorem State.setNextGrain_sample (s : State) (v : Nat) : (s.setNextGrain v).sample = s.sample := rfl
@[simp] theorem State.setNextGrain_inputs (s : State) (v : Nat) : (s.setNextGrain v).inputs = s.inputs := rfl
@[simp] theorem State.setNextGrain_qdepth (s : State) (v : Nat) : (s.setNextGrain v).qdepth = s.qdepth := rfl
@[simp] theorem State.setNextGrain_resetAsserted (s : State) (v : Nat) : (s.setNextGrain v).resetAsserted = s.resetAsserted := rfl
@[simp] theorem State.setNextGrain_port (s : State) (v : Nat) : (s.setNextGrain v).port = s.port := rfl
@[simp] theorem State.setNextGrain_db (s : State) (v : Nat) : (s.setNextGrain v).db = s.db := rfl
@[simp] theorem State.setNextGrain_poolSize (s : State) (v : Nat) : (s.setNextGrain v).poolSize = s.poolSize := rfl

/-! ### `setPool` -/

@[simp] theorem State.setPool_frequency (s : State) (v : List Grain) : (s.setPool v).frequency = s.frequency := rfl
@[simp] theorem State.setPool_phase (s : State) (v : List Grain) : (s.setPool v).phase = s.phase := rfl
@[simp] theorem State.setPool_queue (s : State) (v : List Grain) : (s.setPool v).queue = s.queue := rfl
@[simp] theorem State.setPool_segment (s : State) (v : List Grain) : (s.setPool v).segment = s.segment := rfl
@[simp] theorem State.setPool_segmentTime (s : State) (v : List Grain) : (s.setPool v).segmentTime = s.segmentTime := rfl
@[simp] theorem State.setPool_segmentLength (s : State) (v : List Grain) : (s.setPool v).segmentLength = s.segmentLength := rfl
@[simp] theorem State.setPool_oldSegment (s : State) (v : List Grain) : (s.setPool v).oldSegment = s.oldSegment := rfl
@[simp] theorem State.setPool_oldSegmentTime (s : State) (v : List Grain) : (s.setPool v).oldSegmentTime = s.oldSegmentTime := rfl
@[simp] theorem State.setPool_crossfade (s : State) (v : List Grain) : (s.setPool v).crossfade = s.crossfade := rfl
@[simp] theorem State.setPool_crossfadeRamp (s : State) (v : List Grain) : (s.setPool v).crossfadeRamp = s.crossfadeRamp := rfl
@[simp] theorem State.setPool_noteOns (s : State) (v : List Grain) : (s.setPool v).noteOns = s.noteOns := rfl
@[simp] theorem State.setPool_noteOffs (s : State) (v : List Grain) : (s.setPool v).noteOffs = s.noteOffs := rfl
@[simp] theorem State.setPool_nextGrain (s : State) (v : List Grain) : (s.setPool v).nextGrain = s.nextGrain := rfl
@[simp] theorem State.setPool_pool (s : State) (v : List Grain) : (s.setPool v).pool = v := rfl
@[simp] theorem State.setPool_status (s : State) (v : List Grain) : (s.setPool v).status = s.status := rfl
@[simp] theorem State.setPool_lasterr (s : State) (v : List Grain) : (s.setPool v).lasterr = s.lasterr := rfl
@[simp] theorem State.setPool_sample (s : State) (v : List Grain) : (s.setPool v).sample = s.sample := rfl
@[simp] theorem State.setPool_inputs (s : State) (v : List Grain) : (s.setPool v).inputs = s.inputs := rfl
@[simp] theorem State.setPool_qdepth (s : State) (v : List Grain) : (s.setPool v).qdepth = s.qdepth := rfl
@[simp] theorem State.setPool_resetAsserted (s : State) (v : List Grain) : (s.setPool v).resetAsserted = s.resetAsserted := rfl
@[simp] theorem State.setPool_port (s : State) (v : List Grain) : (s.setPool v).port = s.port := rfl
@[simp] theorem State.setPool_db (s : State) (v : List Grain) : (s.setPool v).db = s.db := rfl
@[simp] theorem State.setPool_poolSize (s : State) (v : List Grain) : (s.setPool v).poolSize = v.length := rfl

/-! ### `setStatus` -/

@[simp] theorem State.setStatus_frequency (s : State) (v : BitVec 8) : (s.setStatus v).frequency = s.frequency := rfl
@[simp] theorem State.setStatus_phase (s : State) (v : BitVec 8) : (s.setStatus v).phase = s.phase := rfl
@[simp] theorem State.setStatus_queue (s : State) (v : BitVec 8) : (s.setStatus v).queue = s.queue := rfl
@[simp] theorem State.setStatus_segment (s : State) (v : BitVec 8) : (s.setStatus v).segment = s.segment := rfl
@[simp] theorem State.setStatus_segmentTime (s : State) (v : BitVec 8) : (s.setStatus v).segmentTime = s.segmentTime := rfl
@[simp] theorem State.setStatus_segmentLength (s : State) (v : BitVec 8) : (s.setStatus v).segmentLength = s.segmentLength := rfl
@[simp] theorem State.setStatus_oldSegment (s : State) (v : BitVec 8) : (s.setStatus v).oldSegment = s.oldSegment := rfl
@[simp] theorem State.setStatus_oldSegmentTime (s : State) (v : BitVec 8) : (s.setStatus v).oldSegmentTime = s.oldSegmentTime := rfl
@[simp] theorem State.setStatus_crossfade (s : State) (v : BitVec 8) : (s.setStatus v).crossfade = s.crossfade := rfl
@[simp] theorem State.setStatus_crossfadeRamp (s : State) (v : BitVec 8) : (s.setStatus v).crossfadeRamp = s.crossfadeRamp := rfl
@[simp] theorem State.setStatus_noteOns (s : State) (v : BitVec 8) : (s.setStatus v).noteOns = s.noteOns := rfl
@[simp] theorem State.setStatus_noteOffs (s : State) (v : BitVec 8) : (s.setStatus v).noteOffs = s.noteOffs := rfl
@[simp] theorem State.setStatus_nextGrain (s : State) (v : BitVec 8) : (s.setStatus v).nextGrain = s.nextGrain := rfl
@[simp] theorem State.setStatus_pool (s : State) (v : BitVec 8) : (s.setStatus v).pool = s.pool := rfl
@[simp] theorem State.setStatus_status (s : State) (v : BitVec 8) : (s.setStatus v).status = v := rfl
@[simp] theorem State.setStatus_lasterr (s : State) (v : BitVec 8) : (s.setStatus v).lasterr = s.lasterr := rfl
@[simp] theorem State.setStatus_sample (s : State) (v : BitVec 8) : (s.setStatus v).sample = s.sample := rfl
@[simp] theorem State.setStatus_inputs (s : State) (v : BitVec 8) : (s.setStatus v).inputs = s.inputs := rfl
@[simp] theorem State.setStatus_qdepth (s : State) (v : BitVec 8) : (s.setStatus v).qdepth = s.qdepth := rfl
@[simp] theorem State.setStatus_resetAsserted (s : State) (v : BitVec 8) : (s.setStatus v).resetAsserted = s.resetAsserted := rfl
@[simp] theorem State.setStatus_port (s : State) (v : BitVec 8) : (s.setStatus v).port = s.port := rfl
@[simp] theorem State.setStatus_db (s : State) (v : BitVec 8) : (s.setStatus v).db = s.db := rfl
@[simp] theorem State.setStatus_poolSize (s : State) (v : BitVec 8) : (s.setStatus v).poolSize = s.poolSize := rfl

/-! ### `setLasterr` -/

@[simp] theorem State.setLasterr_frequency (s : State) (v : BitVec 44) : (s.setLasterr v).frequency = s.frequency := rfl
@[simp] theorem State.setLasterr_phase (s : State) (v : BitVec 44) : (s.setLasterr v).phase = s.phase := rfl
@[simp] theorem State.setLasterr_queue (s : State) (v : BitVec 44) : (s.setLasterr v).queue = s.queue := rfl
@[simp] theorem State.setLasterr_segment (s : State) (v : BitVec 44) : (s.setLasterr v).segment = s.segment := rfl
@[simp] theorem State.setLasterr_segmentTime (s : State) (v : BitVec 44) : (s.setLasterr v).segmentTime = s.segmentTime := rfl
@[simp] theorem State.setLasterr_segmentLength (s : State) (v : BitVec 44) : (s.setLasterr v).segmentLength = s.segmentLength := rfl
@[simp] theorem State.setLasterr_oldSegment (s : State) (v : BitVec 44) : (s.setLasterr v).oldSegment = s.oldSegment := rfl
@[simp] theorem State.setLasterr_oldSegmentTime (s : State) (v : BitVec 44) : (s.setLasterr v).oldSegmentTime = s.oldSegmentTime := rfl
@[simp] theorem State.setLasterr_crossfade (s : State) (v : BitVec 44) : (s.setLasterr v).crossfade = s.crossfade := rfl
@[simp] theorem State.setLasterr_crossfadeRamp (s : State) (v : BitVec 44) : (s.setLasterr v).crossfadeRamp = s.crossfadeRamp := rfl
@[simp] theorem State.setLasterr_noteOns (s : State) (v : BitVec 44) : (s.setLasterr v).noteOns = s.noteOns := rfl
@[simp] theorem State.setLasterr_noteOffs (s : State) (v : BitVec 44) : (s.setLasterr v).noteOffs = s.noteOffs := rfl
@[simp] theorem State.setLasterr_nextGrain (s : State) (v : BitVec 44) : (s.setLasterr v).nextGrain = s.nextGrain := rfl
@[simp] theorem State.setLasterr_pool (s : State) (v : BitVec 44) : (s.setLasterr v).pool = s.pool := rfl
@[simp] theorem State.setLasterr_status (s : State) (v : BitVec 44) : (s.setLasterr v).status = s.status := rfl
@[simp] theorem State.setLasterr_lasterr (s : State) (v : BitVec 44) : (s.setLasterr v).lasterr = v := rfl
@[simp] theorem State.setLasterr_sample (s : State) (v : BitVec 44) : (s.setLasterr v).sample = s.sample := rfl
@[simp] theorem State.setLasterr_inputs (s : State) (v : BitVec 44) : (s.setLasterr v).inputs = s.inputs := rfl
@[simp] theorem State.setLasterr_qdepth (s : State) (v : BitVec 44) : (s.setLasterr v).qdepth = s.qdepth := rfl
@[simp] theorem State.setLasterr_resetAsserted (s : State) (v : BitVec 44) : (s.setLasterr v).resetAsserted = s.resetAsserted := rfl
@[simp] theorem State.setLasterr_port (s : State) (v : BitVec 44) : (s.setLasterr v).port = s.port := rfl
@[simp] theorem State.setLasterr_db (s : State) (v : BitVec 44) : (s.setLasterr v).db = s.db := rfl
@[simp] theorem State.setLasterr_poolSize (s : State) (v : BitVec 44) : (s.setLasterr v).poolSize = s.poolSize := rfl

/-! ### `setSample` -/

@[simp] theorem State.setSample_frequency (s : State) (v : BitVec 32) : (s.setSample v).frequency = s.frequency := rfl
@[simp] theorem State.setSample_phase (s : State) (v : BitVec 32) : (s.setSample v).phase = s.phase := rfl
@[simp] theorem State.setSample_queue (s : State) (v : BitVec 32) : (s.setSample v).queue = s.queue := rfl
@[simp] theorem State.setSample_segment (s : State) (v : BitVec 32) : (s.setSample v).segment = s.segment := rfl
@[simp] theorem State.setSample_segmentTime (s : State) (v : BitVec 32) : (s.setSample v).segmentTime = s.segmentTime := rfl
@[simp] theorem State.setSample_segmentLength (s : State) (v : BitVec 32) : (s.setSample v).segmentLength = s.segmentLength := rfl
@[simp] theorem State.setSample_oldSegment (s : State) (v : BitVec 32) : (s.setSample v).oldSegment = s.oldSegment := rfl
@[simp] theorem State.setSample_oldSegmentTime (s : State) (v : BitVec 32) : (s.setSample v).oldSegmentTime = s.oldSegmentTime := rfl
@[simp] theorem State.setSample_crossfade (s : State) (v : BitVec 32) : (s.setSample v).crossfade = s.crossfade := rfl
@[simp] theorem State.setSample_crossfadeRamp (s : State) (v : BitVec 32) : (s.setSample v).crossfadeRamp = s.crossfadeRamp := rfl
@[simp] theorem State.setSample_noteOns (s : State) (v : BitVec 32) : (s.setSample v).noteOns = s.noteOns := rfl
@[simp] theorem State.setSample_noteOffs (s : State) (v : BitVec 32) : (s.setSample v).noteOffs = s.noteOffs := rfl
@[simp] theorem State.setSample_nextGrain (s : State) (v : BitVec 32) : (s.setSample v).nextGrain = s.nextGrain := rfl
@[simp] theorem State.setSample_pool (s : State) (v : BitVec 32) : (s.setSample v).pool = s.pool := rfl
@[simp] theorem State.setSample_status (s : State) (v : BitVec 32) : (s.setSample v).status = s.status := rfl
@[simp] theorem State.setSample_lasterr (s : State) (v : BitVec 32) : (s.setSample v).lasterr = s.lasterr := rfl
@[simp] theorem State.setSample_sample (s : State) (v : BitVec 32) : (s.setSample v).sample = v := rfl
@[simp] theorem State.setSample_inputs (s : State) (v : BitVec 32) : (s.setSample v).inputs = s.inputs := rfl
@[simp] theorem State.setSample_qdepth (s : State) (v : BitVec 32) : (s.setSample v).qdepth = s.qdepth := rfl
@[simp] theorem State.setSample_resetAsserted (s : State) (v : BitVec 32) : (s.setSample v).resetAsserted = s.resetAsserted := rfl
@[simp] theorem State.setSample_port (s : State) (v : BitVec 32) : (s.setSample v).port = s.port := rfl
@[simp] theorem State.setSample_db (s : State) (v : BitVec 32) : (s.setSample v).db = s.db := rfl
@[simp] theorem State.setSample_poolSize (s : State) (v : BitVec 32) : (s.setSample v).poolSize = s.poolSize := rfl

/-! ### `setPort` -/

@[simp] theorem State.setPort_frequency (s : State) (v : List Input) : (s.setPort v).frequency = s.frequency := rfl
@[simp] theorem State.setPort_phase (s : State) (v : List Input) : (s.setPort v).phase = s.phase := rfl
@[simp] theorem State.setPort_queue (s : State) (v : List Input) : (s.setPort v).queue = s.queue := rfl
@[simp] theorem State.setPort_segment (s : State) (v : List Input) : (s.setPort v).segment = s.segment := rfl
@[simp] theorem State.setPort_segmentTime (s : State) (v : List Input) : (s.setPort v).segmentTime = s.segmentTime := rfl
@[simp] theorem State.setPort_segmentLength (s : State) (v : List Input) : (s.setPort v).segmentLength = s.segmentLength := rfl
@[simp] theorem State.setPort_oldSegment (s : State) (v : List Input) : (s.setPort v).oldSegment = s.oldSegment := rfl
@[simp] theorem State.setPort_oldSegmentTime (s : State) (v : List Input) : (s.setPort v).oldSegmentTime = s.oldSegmentTime := rfl
@[simp] theorem State.setPort_crossfade (s : State) (v : List Input) : (s.setPort v).crossfade = s.crossfade := rfl
@[simp] theorem State.setPort_crossfadeRamp (s : State) (v : List Input) : (s.setPort v).crossfadeRamp = s.crossfadeRamp := rfl
@[simp] theorem State.setPort_noteOns (s : State) (v : List Input) : (s.setPort v).noteOns = s.noteOns := rfl
@[simp] theorem State.setPort_noteOffs (s : State) (v : List Input) : (s.setPort v).noteOffs = s.noteOffs := rfl
@[simp] theorem State.setPort_nextGrain (s : State) (v : List Input) : (s.setPort v).nextGrain = s.nextGrain := rfl
@[simp] theorem State.setPort_pool (s : State) (v : List Input) : (s.setPort v).pool = s.pool := rfl
@[simp] theorem State.setPort_status (s : State) (v : List Input) : (s.setPort v).status = s.status := rfl
@[simp] theorem State.setPort_lasterr (s : State) (v : List Input) : (s.setPort v).lasterr = s.lasterr := rfl
@[simp] theorem State.setPort_sample (s : State) (v : List Input) : (s.setPort v).sample = s.sample := rfl
@[simp] theorem State.setPort_inputs (s : State) (v : List Input) : (s.setPort v).inputs = s.inputs := rfl
@[simp] theorem State.setPort_qdepth (s : State) (v : List Input) : (s.setPort v).qdepth = s.qdepth := rfl
@[simp] theorem State.setPort_resetAsserted (s : State) (v : List Input) : (s.setPort v).resetAsserted = s.resetAsserted := rfl
@[simp] theorem State.setPort_port (s : State) (v : List Input) : (s.setPort v).port = v := rfl
@[simp] theorem State.setPort_db (s : State) (v : List Input) : (s.setPort v).db = s.db := rfl
@[simp] theorem State.setPort_poolSize (s : State) (v : List Input) : (s.setPort v).poolSize = s.poolSize := rfl

/-! ### `setResetAsserted` -/

@[simp] theorem State.setResetAsserted_frequency (s : State) (v : Bool) : (s.setResetAsserted v).frequency = s.frequency := rfl
@[simp] theorem State.setResetAsserted_phase (s : State) (v : Bool) : (s.setResetAsserted v).phase = s.phase := rfl
@[simp] theorem State.setResetAsserted_queue (s : State) (v : Bool) : (s.setResetAsserted v).queue = s.queue := rfl
@[simp] theorem State.setResetAsserted_segment (s : State) (v : Bool) : (s.setResetAsserted v).segment = s.segment := rfl
@[simp] theorem State.setResetAsserted_segmentTime (s : State) (v : Bool) : (s.setResetAsserted v).segmentTime = s.segmentTime := rfl
@[simp] theorem State.setResetAsserted_segmentLength (s : State) (v : Bool) : (s.setResetAsserted v).segmentLength = s.segmentLength := rfl
@[simp] theorem State.setResetAsserted_oldSegment (s : State) (v : Bool) : (s.setResetAsserted v).oldSegment = s.oldSegment := rfl
@[simp] theorem State.setResetAsserted_oldSegmentTime (s : State) (v : Bool) : (s.setResetAsserted v).oldSegmentTime = s.oldSegmentTime := rfl
@[simp] theorem State.setResetAsserted_crossfade (s : State) (v : Bool) : (s.setResetAsserted v).crossfade = s.crossfade := rfl
@[simp] theorem State.setResetAsserted_crossfadeRamp (s : State) (v : Bool) : (s.setResetAsserted v).crossfadeRamp = s.crossfadeRamp := rfl
@[simp] theorem State.setResetAsserted_noteOns (s : State) (v : Bool) : (s.setResetAsserted v).noteOns = s.noteOns := rfl
@[simp] theorem State.setResetAsserted_noteOffs (s : State) (v : Bool) : (s.setResetAsserted v).noteOffs = s.noteOffs := rfl
@[simp] theorem State.setResetAsserted_nextGrain (s : State) (v : Bool) : (s.setResetAsserted v).nextGrain = s.nextGrain := rfl
@[simp] theorem State.setResetAsserted_pool (s : State) (v : Bool) : (s.setResetAsserted v).pool = s.pool := rfl
@[simp] theorem State.setResetAsserted_status (s : State) (v : Bool) : (s.setResetAsserted v).status = s.status := rfl
@[simp] theorem State.setResetAsserted_lasterr (s : State) (v : Bool) : (s.setResetAsserted v).lasterr = s.lasterr := rfl
@[simp] theorem State.setResetAsserted_sample (s : State) (v : Bool) : (s.setResetAsserted v).sample = s.sample := rfl
@[simp] theorem State.setResetAsserted_inputs (s : State) (v : Bool) : (s.setResetAsserted v).inputs = s.inputs := rfl
@[simp] theorem State.setResetAsserted_qdepth (s : State) (v : Bool) : (s.setResetAsserted v).qdepth = s.qdepth := rfl
@[simp] theorem State.setResetAsserted_resetAsserted (s : State) (v : Bool) : (s.setResetAsserted v).resetAsserted = v := rfl
@[simp] theorem State.setResetAsserted_port (s : State) (v : Bool) : (s.setResetAsserted v).port = s.port := rfl
@[simp] theorem State.setResetAsserted_db (s : State) (v : Bool) : (s.setResetAsserted v).db = s.db := rfl
@[simp] theorem State.setResetAsserted_poolSize (s : State) (v : Bool) : (s.setResetAsserted v).poolSize = s.poolSize := rfl

/-! ### `raise` -/

@[simp] theorem State.raise_frequency (s : State) (e : ErrorCause) (cmd : Command) : (s.raise e cmd).frequency = s.frequency := rfl
@[simp] theorem State.raise_phase (s : State) (e : ErrorCause) (cmd : Command) : (s.raise e cmd).phase = s.phase := rfl
@[simp] theorem State.raise_queue (s : State) (e : ErrorCause) (cmd : Command) : (s.raise e cmd).queue = s.queue := rfl
@[simp] theorem State.raise_segment (s : State) (e : ErrorCause) (cmd : Command) : (s.raise e cmd).segment = s.segment := rfl
@[simp] theorem State.raise_segmentTime (s : State) (e : ErrorCause) (cmd : Command) : (s.raise e cmd).segmentTime = s.segmentTime := rfl
@[simp] theorem State.raise_segmentLength (s : State) (e : ErrorCause) (cmd : Command) : (s.raise e cmd).segmentLength = s.segmentLength := rfl
@[simp] theorem State.raise_oldSegment (s : State) (e : ErrorCause) (cmd : Command) : (s.raise e cmd).oldSegment = s.oldSegment := rfl
@[simp] theorem State.raise_oldSegmentTime (s : State) (e : ErrorCause) (cmd : Command) : (s.raise e cmd).oldSegmentTime = s.oldSegmentTime := rfl
@[simp] theorem State.raise_crossfade (s : State) (e : ErrorCause) (cmd : Command) : (s.raise e cmd).crossfade = s.crossfade := rfl
@[simp] theorem State.raise_crossfadeRamp (s : State) (e : ErrorCause) (cmd : Command) : (s.raise e cmd).crossfadeRamp = s.crossfadeRamp := rfl
@[simp] theorem State.raise_noteOns (s : State) (e : ErrorCause) (cmd : Command) : (s.raise e cmd).noteOns = s.noteOns := rfl
@[simp] theorem State.raise_noteOffs (s : State) (e : ErrorCause) (cmd : Command) : (s.raise e cmd).noteOffs = s.noteOffs := rfl
@[simp] theorem State.raise_nextGrain (s : State) (e : ErrorCause) (cmd : Command) : (s.raise e cmd).nextGrain = s.nextGrain := rfl
@[simp] theorem State.raise_pool (s : State) (e : ErrorCause) (cmd : Command) : (s.raise e cmd).pool = s.pool := rfl
@[simp] theorem State.raise_status (s : State) (e : ErrorCause) (cmd : Command) : (s.raise e cmd).status = statusSet s.status e := rfl
@[simp] theorem State.raise_lasterr (s : State) (e : ErrorCause) (cmd : Command) : (s.raise e cmd).lasterr = lasterrRecord e cmd := rfl
@[simp] theorem State.raise_sample (s : State) (e : ErrorCause) (cmd : Command) : (s.raise e cmd).sample = s.sample := rfl
@[simp] theorem State.raise_inputs (s : State) (e : ErrorCause) (cmd : Command) : (s.raise e cmd).inputs = s.inputs := rfl
@[simp] theorem State.raise_qdepth (s : State) (e : ErrorCause) (cmd : Command) : (s.raise e cmd).qdepth = s.qdepth := rfl
@[simp] theorem State.raise_resetAsserted (s : State) (e : ErrorCause) (cmd : Command) : (s.raise e cmd).resetAsserted = s.resetAsserted := rfl
@[simp] theorem State.raise_port (s : State) (e : ErrorCause) (cmd : Command) : (s.raise e cmd).port = s.port := rfl
@[simp] theorem State.raise_db (s : State) (e : ErrorCause) (cmd : Command) : (s.raise e cmd).db = s.db := rfl
@[simp] theorem State.raise_poolSize (s : State) (e : ErrorCause) (cmd : Command) : (s.raise e cmd).poolSize = s.poolSize := rfl

/-! ### Views -/

@[simp] theorem State.emit_eq (s : State) (v : Int) : s.emit v = s.setSample (BitVec.ofInt 32 v) := rfl

theorem State.raise_eq (s : State) (e : ErrorCause) (cmd : Command) :
    s.raise e cmd = { s with status := statusSet s.status e, lasterr := lasterrRecord e cmd } := rfl

theorem State.db_of_valid {s : State} (h : s.inputs.db.valid = true) : s.db = s.inputs.db := by
  simp [State.db, Database.seen, h]

theorem State.db_of_invalid {s : State} (h : s.inputs.db.valid = false) : s.db = Database.zeroed := by
  simp [State.db, Database.seen, h]

end Sys2Proof.Machine
end

