-- ==== Sys2Proof/Laws/Sequencer.lean ====
section
/-! SUPPORT. Once for each operation of the sequencer: everything it can do, and which registers it can write. -/

namespace Sys2Proof.Machine

/-- The registers the sequencer writes; all others are as before. -/
def State.sameButSequencer (s t : State) : Prop :=
  t = { s with
    queue := t.queue, segment := t.segment, segmentTime := t.segmentTime, segmentLength := t.segmentLength,
    oldSegment := t.oldSegment, oldSegmentTime := t.oldSegmentTime, crossfade := t.crossfade,
    crossfadeRamp := t.crossfadeRamp, noteOns := t.noteOns, noteOffs := t.noteOffs }

theorem State.sameButSequencer_refl (s : State) : s.sameButSequencer s := rfl

theorem State.sameButSequencer_trans {s t u : State} (h : s.sameButSequencer t) (k : t.sameButSequencer u) :
    s.sameButSequencer u := by
  unfold State.sameButSequencer at *
  rw [k, h]

/-! ### The crossfade registers -/

theorem State.startCrossfade_of_gap {s : State} {N : Numerics} {prev : SegIndex} (h : prev = gapToken) :
    s.startCrossfade N prev = (s.setCrossfade N 0).setCrossfadeRamp N 0 := by
  simp [State.startCrossfade, h]

theorem State.startCrossfade_of_segment {s : State} {N : Numerics} {prev : SegIndex} (h : prev ≠ gapToken) :
    s.startCrossfade N prev = (s.setCrossfade N 1).setCrossfadeRamp N s.fullRamp := by
  simp [State.startCrossfade, h]

/-- `fullRamp` reads `FS` only. -/
theorem State.fullRamp_congr {s t : State} (h : t.inputs = s.inputs) : t.fullRamp = s.fullRamp := by
  simp [State.fullRamp, h]

theorem State.db_congr {s t : State} (h : t.inputs = s.inputs) : t.db = s.db := by simp [State.db, h]

/-- `NEWSEG` with a popped entry, register by register (R160). -/
theorem State.enterSegment_eq (s : State) (N : Numerics) (n : SegIndex) (rest : List SegIndex) (frames : Nat) :
    s.enterSegment N n rest frames =
      { s with
        queue := rest, segment := n, segmentTime := N.q 0, segmentLength := N.q ((frames : Rat) / s.db.f0),
        oldSegment := s.segment, oldSegmentTime := N.q s.segmentTime,
        crossfade := N.q (if s.segment = gapToken then 0 else 1),
        crossfadeRamp := N.q (if s.segment = gapToken then 0 else s.fullRamp) } := by
  simp only [State.enterSegment]
  by_cases h : s.segment = gapToken
  · rw [State.startCrossfade_of_gap h]
    simp [State.setQueue, State.setOldSegment, State.setOldSegmentTime, State.setSegment, State.setSegmentTime,
      State.setSegmentLength, State.setCrossfade, State.setCrossfadeRamp, h]
  · rw [State.startCrossfade_of_segment h]
    simp [State.setQueue, State.setOldSegment, State.setOldSegmentTime, State.setSegment, State.setSegmentTime,
      State.setSegmentLength, State.setCrossfade, State.setCrossfadeRamp, h, State.fullRamp]

/-- `NEWSEG` on an empty queue, register by register (R160). -/
theorem State.goIdle_eq (s : State) (N : Numerics) :
    s.goIdle N = { s with segment := gapToken, segmentLength := N.q 0 } := rfl

/-- Everything `NEWSEG` can do (R160). -/
theorem newSeg_cases {N : Numerics} {s t : State} (h : newSeg N s = .next t) :
    (s.queue = [] ∧ t = s.goIdle N) ∨
    (∃ n rest frames, s.queue = n :: rest ∧ s.db.numFrames n = .next frames ∧ t = s.enterSegment N n rest frames) := by
  unfold newSeg at h
  split at h
  · rename_i hq
    exact .inl ⟨hq, (Result.next_inj h).symm⟩
  · rename_i n rest hq
    obtain ⟨frames, hf, ht⟩ := Result.andThen_eq_next.mp h
    exact .inr ⟨n, rest, frames, hq, hf, (Result.next_inj ht).symm⟩

theorem newSeg_frame {N : Numerics} {s t : State} (h : newSeg N s = .next t) :
    s.sameButSequencer t ∧ t.noteOns = s.noteOns ∧ t.noteOffs = s.noteOffs := by
  rcases newSeg_cases h with ⟨_, rfl⟩ | ⟨n, rest, frames, _, _, rfl⟩
  · exact ⟨rfl, rfl, rfl⟩
  · rw [State.enterSegment_eq]; exact ⟨rfl, rfl, rfl⟩

/-- Everything step 2 can do (R152). -/
theorem consumeNoteOn_cases {N : Numerics} {s t : State} (h : consumeNoteOn N s = .next t) :
    (s.segment ≠ gapToken ∧ t = s) ∨
    (s.segment = gapToken ∧ newSeg N (s.setNoteOns (s.noteOns - 1)) = .next t) := by
  unfold consumeNoteOn at h
  split at h
  · rename_i hs; exact .inr ⟨hs, h⟩
  · rename_i hs; exact .inl ⟨hs, (Result.next_inj h).symm⟩

/-- Everything step 3 can do (R153). -/
theorem consumeNoteOff_cases {N : Numerics} {s t : State} (h : consumeNoteOff N s = .next t) :
    ((s.segment = gapToken ∨ s.noteOffs = 0 ∨ s.db.isLong s.segment = .next false) ∧ t = s) ∨
    (s.segment ≠ gapToken ∧ s.noteOffs ≠ 0 ∧ s.db.isLong s.segment = .next true ∧
      newSeg N (s.setNoteOffs (s.noteOffs - 1)) = .next t) := by
  unfold consumeNoteOff at h
  split at h
  · rename_i hs
    exact .inl ⟨hs.imp_right .inl, (Result.next_inj h).symm⟩
  · rename_i hs
    push Not at hs
    obtain ⟨long, hl, ht⟩ := Result.andThen_eq_next.mp h
    cases long with
    | false => exact .inl ⟨.inr (.inr hl), (Result.next_inj ht).symm⟩
    | true => exact .inr ⟨hs.1, hs.2, hl, ht⟩

theorem State.atBoundary_iff {s : State} :
    s.atBoundary = true ↔ s.segment ≠ gapToken ∧ s.segmentLength - Config.XL ≤ s.segmentTime := by
  simp [State.atBoundary]

/-- Everything step 4 can do (R154 to R156). -/
theorem boundaryStep_cases {N : Numerics} {s t : State} (h : boundaryStep N s = .next t) :
    (s.atBoundary = false ∧ t = s) ∨
    (s.atBoundary = true ∧ s.db.isLong s.segment = .next true ∧ t = s.setSegmentTime N 0) ∨
    (s.atBoundary = true ∧ s.db.isLong s.segment = .next false ∧ newSeg N s = .next t) := by
  unfold boundaryStep at h
  split at h
  · rename_i hb
    obtain ⟨long, hl, ht⟩ := Result.andThen_eq_next.mp h
    cases long with
    | false => exact .inr (.inr ⟨hb, hl, ht⟩)
    | true => exact .inr (.inl ⟨hb, hl, (Result.next_inj ht).symm⟩)
  · rename_i hb
    exact .inl ⟨by simpa using hb, (Result.next_inj h).symm⟩

theorem consumeNoteOn_frame {N : Numerics} {s t : State} (h : consumeNoteOn N s = .next t) :
    s.sameButSequencer t ∧ t.noteOffs = s.noteOffs := by
  rcases consumeNoteOn_cases h with ⟨_, rfl⟩ | ⟨_, h⟩
  · exact ⟨rfl, rfl⟩
  · obtain ⟨hf, _, hoff⟩ := newSeg_frame h
    exact ⟨State.sameButSequencer_trans (t := s.setNoteOns (s.noteOns - 1)) rfl hf, hoff⟩

theorem consumeNoteOff_frame {N : Numerics} {s t : State} (h : consumeNoteOff N s = .next t) :
    s.sameButSequencer t ∧ t.noteOns = s.noteOns := by
  rcases consumeNoteOff_cases h with ⟨_, rfl⟩ | ⟨_, _, _, h⟩
  · exact ⟨rfl, rfl⟩
  · obtain ⟨hf, hon, _⟩ := newSeg_frame h
    exact ⟨State.sameButSequencer_trans (t := s.setNoteOffs (s.noteOffs - 1)) rfl hf, hon⟩

theorem boundaryStep_frame {N : Numerics} {s t : State} (h : boundaryStep N s = .next t) :
    s.sameButSequencer t ∧ t.noteOns = s.noteOns ∧ t.noteOffs = s.noteOffs := by
  rcases boundaryStep_cases h with ⟨_, rfl⟩ | ⟨_, _, rfl⟩ | ⟨_, _, h⟩
  · exact ⟨rfl, rfl, rfl⟩
  · exact ⟨rfl, rfl, rfl⟩
  · exact newSeg_frame h

end Sys2Proof.Machine
end

