-- ==== Sys2Proof/Laws/Datapath.lean ====
section
/-! SUPPORT. Once for each operation of the datapath (the grain unit, step 5, step 6, step 7): everything it can do, and which
registers it can write. -/

namespace Sys2Proof.Machine

/-! ### The grain unit -/

theorem Database.frameOk_iff {db : Database} {off : WordAddr} : db.frameOk off = true ↔
    off.toNat + db.gl ≤ db.wtlen ∧
      ∃ d ∈ db.seg, d.offset.toNat ≤ off.toNat ∧ off.toNat + db.gl ≤ d.offset.toNat + d.numFrames * db.gl := by
  simp [Database.frameOk, Database.inSlice]

/-- `Grain.ok`, clause by clause. -/
theorem Grain.ok_iff {db : Database} {g : Grain} : g.ok db = true ↔
    (0 ≤ g.crossfadeMix ∧ g.crossfadeMix ≤ 1) ∧ g.readPosition ≤ db.gl ∧
      (g.active = true → g.readPosition < db.gl ∧ db.frameOk g.offset1 = true ∧
        (g.crossfadeMix ≠ 0 → db.frameOk g.offset2 = true)) := by
  cases ha : g.active <;>
    simp only [Grain.ok, ha, Bool.and_eq_true, Bool.or_eq_true, decide_eq_true_eq, beq_iff_eq, Bool.not_true, Bool.not_false,
      Bool.true_or, Bool.false_or, and_true, true_implies, false_implies, reduceCtorEq, ne_eq]
  all_goals tauto

/-- Everything `GRAIN.PLAY` can do (40_grain.md R130). -/
theorem grainPlay_cases {N : Numerics} {i : Nat} {off1 off2 : WordAddr} {mix : Rat} {s t : State}
    (h : grainPlay N i off1 off2 mix s = .next t) :
    i < s.poolSize ∧ t = s.setPool (s.pool.set i (armedGrain N off1 off2 mix)) := by
  unfold grainPlay at h
  split at h
  · rename_i hi; exact ⟨hi, (Result.next_inj h).symm⟩
  · cases h

/-- Everything an active slot's sample can be (R132). -/
theorem grainSample_cases {N : Numerics} {db : Database} {g : Grain} {y : Int} (h : grainSample N db g = .next y) :
    (g.crossfadeMix = 0 ∧ db.memRead (g.offset1.toNat + g.readPosition) = .next y) ∨
    (g.crossfadeMix ≠ 0 ∧ ∃ s1 s2, db.memRead (g.offset1.toNat + g.readPosition) = .next s1 ∧
      db.memRead (g.offset2.toNat + g.readPosition) = .next s2 ∧ y = grainMix N s1 s2 g.crossfadeMix) := by
  unfold grainSample at h
  obtain ⟨s1, h1, h⟩ := Result.andThen_eq_next.mp h
  split at h
  · rename_i hm
    cases h
    exact .inl ⟨hm, h1⟩
  · rename_i hm
    obtain ⟨s2, h2, h⟩ := Result.andThen_eq_next.mp h
    exact .inr ⟨hm, s1, s2, h1, h2, (Result.next_inj h).symm⟩

/-- Everything `GRAIN.PROCESS` can do (R132). -/
theorem grainProcess_cases {N : Numerics} {db : Database} {g g' : Grain} {y : Int}
    (h : grainProcess N db g = .next (y, g')) :
    (g.active = false ∧ y = 0 ∧ g' = g) ∨
    (g.active = true ∧ grainSample N db g = .next y ∧ g' = g.advance db.gl) := by
  unfold grainProcess at h
  split at h
  · rename_i ha
    obtain ⟨v, hv, h⟩ := Result.andThen_eq_next.mp h
    cases h
    exact .inr ⟨ha, hv, rfl⟩
  · rename_i ha
    cases h
    exact .inl ⟨by simpa using ha, rfl, rfl⟩

/-! ### Step 5 -/

/-- Everything arming the next slot can do (42_phase_addrgen.md R187). -/
theorem armNext_cases {N : Numerics} {off1 off2 : WordAddr} {mix : Rat} {s t : State}
    (h : armNext N off1 off2 mix s = .next t) :
    s.nextGrain < s.poolSize ∧
      t = { s with
        pool := s.pool.set s.nextGrain (armedGrain N off1 off2 mix), nextGrain := (s.nextGrain + 1) % s.poolSize } := by
  unfold armNext at h
  obtain ⟨u, hu, h⟩ := Result.andThen_eq_next.mp h
  obtain ⟨hi, rfl⟩ := grainPlay_cases hu
  refine ⟨hi, (Result.next_inj h).symm.trans ?_⟩
  simp [State.setNextGrain, State.setPool, State.poolSize]

/-- Everything a trigger can do (R183, R187). -/
theorem trigger_cases {N : Numerics} {s t : State} (h : trigger N s = .next t) :
    (s.segment = gapToken ∧ t = s) ∨
    (s.segment ≠ gapToken ∧ ∃ off1, s.db.frameAddr s.segment s.segmentTime = .next off1 ∧
      ((s.crossfade = 0 ∧ armNext N off1 off1 0 s = .next t) ∨
       (s.crossfade ≠ 0 ∧ ∃ off2, s.db.frameAddr s.oldSegment s.oldSegmentTime = .next off2 ∧
          armNext N off1 off2 s.crossfade s = .next t))) := by
  unfold trigger at h
  split at h
  · rename_i hs; exact .inl ⟨hs, (Result.next_inj h).symm⟩
  · rename_i hs
    obtain ⟨off1, h1, h⟩ := Result.andThen_eq_next.mp h
    refine .inr ⟨hs, off1, h1, ?_⟩
    split at h
    · rename_i hc; exact .inl ⟨hc, h⟩
    · rename_i hc
      obtain ⟨off2, h2, h⟩ := Result.andThen_eq_next.mp h
      exact .inr ⟨hc, off2, h2, h⟩

/-- The registers a trigger writes; all others are as before. -/
theorem trigger_frame {N : Numerics} {s t : State} (h : trigger N s = .next t) :
    t = { s with pool := t.pool, nextGrain := t.nextGrain } ∧ t.pool.length = s.pool.length := by
  rcases trigger_cases h with ⟨_, rfl⟩ | ⟨_, off1, _, ⟨_, h⟩ | ⟨_, off2, _, h⟩⟩
  · exact ⟨rfl, rfl⟩
  · obtain ⟨_, rfl⟩ := armNext_cases h; exact ⟨rfl, by simp⟩
  · obtain ⟨_, rfl⟩ := armNext_cases h; exact ⟨rfl, by simp⟩

/-- Everything step 5 can do (R180, R181). -/
theorem phaseStep_cases {N : Numerics} {s t : State} (h : phaseStep N s = .next t) :
    ((s.advancePhase N).phase < 1 ∧ t = s.advancePhase N) ∨
    (1 ≤ (s.advancePhase N).phase ∧
      trigger N ((s.advancePhase N).setPhase N ((s.advancePhase N).phase - 1)) = .next t) := by
  simp only [phaseStep] at h
  split at h
  · rename_i hp; exact .inr ⟨hp, h⟩
  · rename_i hp; exact .inl ⟨not_le.mp hp, (Result.next_inj h).symm⟩

/-- The registers step 5 writes; all others are as before. -/
theorem phaseStep_frame {N : Numerics} {s t : State} (h : phaseStep N s = .next t) :
    t = { s with phase := t.phase, pool := t.pool, nextGrain := t.nextGrain } ∧ t.pool.length = s.pool.length := by
  rcases phaseStep_cases h with ⟨_, rfl⟩ | ⟨_, h⟩
  · exact ⟨rfl, rfl⟩
  · obtain ⟨hf, hl⟩ := trigger_frame h
    refine ⟨?_, hl⟩
    rw [hf]
    rfl

/-! ### Step 6 -/

/-- Step 6, register by register (43_envelope_mixer.md R200, R202). -/
theorem State.timeStep_eq (s : State) (N : Numerics) :
    s.timeStep N =
      { s with
        segmentTime := N.q (s.segmentTime + s.period), oldSegmentTime := N.q (s.oldSegmentTime + s.period),
        crossfade := N.q (if s.crossfade + s.crossfadeRamp ≤ 0 then 0 else s.crossfade + s.crossfadeRamp),
        crossfadeRamp := if s.crossfade + s.crossfadeRamp ≤ 0 then N.q 0 else s.crossfadeRamp } := by
  by_cases h : s.crossfade + s.crossfadeRamp ≤ 0
  · have h' : (s.advanceClocks N).crossfade + (s.advanceClocks N).crossfadeRamp ≤ 0 := h
    rw [State.timeStep, State.decayCrossfade, if_pos h', if_pos h, if_pos h]
    rfl
  · have h' : ¬ (s.advanceClocks N).crossfade + (s.advanceClocks N).crossfadeRamp ≤ 0 := h
    rw [State.timeStep, State.decayCrossfade, if_neg h', if_neg h, if_neg h]
    rfl

/-! ### Step 7 -/

/-- Everything mixing a pool can do (R205): nothing for no slot; the first slot's sample and the sum of the rest. -/
theorem mixPool_cons {N : Numerics} {db : Database} {g : Grain} {gs : List Grain} {acc : Int} {out : List Grain}
    (h : mixPool N db (g :: gs) = .next (acc, out)) :
    ∃ y g' acc' gs', grainProcess N db g = .next (y, g') ∧ mixPool N db gs = .next (acc', gs') ∧
      acc = y + acc' ∧ out = g' :: gs' := by
  simp only [mixPool] at h
  obtain ⟨⟨y, g'⟩, h1, h⟩ := Result.andThen_eq_next.mp h
  obtain ⟨⟨acc', gs'⟩, h2, h⟩ := Result.andThen_eq_next.mp h
  cases h
  exact ⟨y, g', acc', gs', h1, h2, rfl, rfl⟩

theorem mixPool_length {N : Numerics} {db : Database} {gs out : List Grain} {acc : Int}
    (h : mixPool N db gs = .next (acc, out)) : out.length = gs.length := by
  induction gs generalizing acc out with
  | nil => cases h; rfl
  | cons g gs ih =>
    obtain ⟨_, _, _, _, _, h2, _, rfl⟩ := mixPool_cons h
    simp [ih h2]

/-- Everything step 7 can do (R205). -/
theorem mixStep_cases {N : Numerics} {s t : State} (h : mixStep N s = .next t) :
    ∃ acc out, mixPool N s.db s.pool = .next (acc, out) ∧ out.length = s.pool.length ∧
      t = { s with pool := out, sample := BitVec.ofInt 32 acc } := by
  unfold mixStep at h
  obtain ⟨⟨acc, out⟩, hm, h⟩ := Result.andThen_eq_next.mp h
  exact ⟨acc, out, hm, mixPool_length hm, (Result.next_inj h).symm⟩

/-! ### The whole tick -/

/-- The part of a `TICK` after the early exits: the six operations in order (41_tick_sequencer.md R150, R159). -/
theorem tickActive_cases {N : Numerics} {s t : State} (h : tickActive N s = .next t) :
    s.divisorsOk = true ∧ ∃ s2 s3 s4 s5, consumeNoteOn N s = .next s2 ∧ consumeNoteOff N s2 = .next s3 ∧
      boundaryStep N s3 = .next s4 ∧ phaseStep N s4 = .next s5 ∧ mixStep N (s5.timeStep N) = .next t := by
  unfold tickActive at h
  split at h
  · rename_i hd
    obtain ⟨s2, h2, h⟩ := Result.andThen_eq_next.mp h
    obtain ⟨s3, h3, h⟩ := Result.andThen_eq_next.mp h
    obtain ⟨s4, h4, h⟩ := Result.andThen_eq_next.mp h
    obtain ⟨s5, h5, h⟩ := Result.andThen_eq_next.mp h
    exact ⟨hd, s2, s3, s4, s5, h2, h3, h4, h5, h⟩
  · cases h

/-- When a `TICK` is not ended early (R150 to R152, R157). -/
theorem State.tickRuns_iff {s : State} :
    s.tickRuns = true ↔ s.inputs.db.valid = true ∧ (s.segment = gapToken → s.noteOns ≠ 0 ∧ s.queue ≠ []) := by
  simp [State.tickRuns]; intro _; tauto

/-- Everything a `TICK` can do (R150 to R152, R157). -/
theorem tick_cases {N : Numerics} {cmd : Command} {s t : State} (h : tick N cmd s = .next t) :
    (s.inputs.db.valid = false ∧ t = (s.raise .E_NODB cmd).emit 0) ∨
    (s.inputs.db.valid = true ∧ s.segment = gapToken ∧ (s.noteOns = 0 ∨ s.queue = []) ∧ t = s.emit 0) ∨
    (s.inputs.db.valid = true ∧ (s.segment = gapToken → s.noteOns ≠ 0 ∧ s.queue ≠ []) ∧ tickActive N s = .next t) := by
  unfold tick at h
  split at h
  · rename_i hv; exact .inl ⟨hv, (Result.next_inj h).symm⟩
  · rename_i hv
    have hv : s.inputs.db.valid = true := by simpa using hv
    split at h
    · rename_i hd; exact .inr (.inl ⟨hv, hd.1, .inl hd.2, (Result.next_inj h).symm⟩)
    · rename_i hd
      split at h
      · rename_i hq; exact .inr (.inl ⟨hv, hq.1, .inr hq.2, (Result.next_inj h).symm⟩)
      · rename_i hq
        exact .inr (.inr ⟨hv, fun hs => ⟨fun h0 => hd ⟨hs, h0⟩, fun h0 => hq ⟨hs, h0⟩⟩, h⟩)

end Sys2Proof.Machine
end

