-- ==== Sys2Proof/Laws/Decode.lean ====
section
/-! SUPPORT. The two fields of a command word and the word made of them (30_encoding.md R102). -/

namespace Sys2Proof

/-- The bits of a word: `ARG` below bit 32, `OP` from there on. -/
theorem getLsbD_mkCommand (op : Opcode) (arg : Arg) (i : Nat) :
    (mkCommand op arg).getLsbD i = if i < 32 then arg.getLsbD i else op.getLsbD (i - 32) := by
  unfold mkCommand
  exact BitVec.getLsbD_append

theorem opcodeOf_mkCommand (op : Opcode) (arg : Arg) : opcodeOf (mkCommand op arg) = op := by
  apply BitVec.eq_of_getLsbD_eq
  intro i hi
  simp [opcodeOf, getLsbD_mkCommand, hi]

theorem argOf_mkCommand (op : Opcode) (arg : Arg) : argOf (mkCommand op arg) = arg := by
  apply BitVec.eq_of_getLsbD_eq
  intro i hi
  simp [argOf, getLsbD_mkCommand, hi]

theorem mkCommand_opcodeOf_argOf (w : Command) : mkCommand (opcodeOf w) (argOf w) = w := by
  apply BitVec.eq_of_getLsbD_eq
  intro i hi
  by_cases h : i < 32
  · simp [opcodeOf, argOf, getLsbD_mkCommand, h]
  · have h1 : 32 + (i - 32) = i := by omega
    have h2 : i - 32 < 8 := by omega
    simp [opcodeOf, argOf, getLsbD_mkCommand, h, h1, h2]

/-- A mask that looks at the opcode alone: the row test of spec/opcode_table.json is a test of `OP`. -/
theorem mkCommand_and (op m : Opcode) (arg : Arg) : mkCommand op arg &&& mkCommand m 0 = mkCommand (op &&& m) 0 := by
  apply BitVec.eq_of_getLsbD_eq
  intro i hi
  by_cases h : i < 32 <;> simp [getLsbD_mkCommand, h]

theorem mkCommand_inj {op op' : Opcode} {arg arg' : Arg} (h : mkCommand op arg = mkCommand op' arg') :
    op = op' ∧ arg = arg' :=
  ⟨by rw [← opcodeOf_mkCommand op arg, h, opcodeOf_mkCommand], by rw [← argOf_mkCommand op arg, h, argOf_mkCommand]⟩

/-- The row test on a word made of its fields. -/
theorem accepts_mkCommand (mn : Mnemonic) (mt mk op : Opcode) (arg : Arg) :
    OpcodeRow.accepts ⟨mn, mkCommand mt 0, mkCommand mk 0⟩ (mkCommand op arg) = (op &&& mk == mt) := by
  simp only [OpcodeRow.accepts, mkCommand_and, Bool.beq_eq_decide_eq]
  exact decide_eq_decide.mpr ⟨fun h => (mkCommand_inj h).1, fun h => by rw [h]⟩

end Sys2Proof
end

