-- ==== Sys2Proof/Laws/Loader.lean ====
section
/-! SUPPORT. What the parts of the voice file loader answer (20_memory.md R74 to R77). -/

namespace Sys2Proof.Machine

/-- The single pass packs the segments contiguously, as long as the total fits a word address (R67, R77). -/
theorem packedFrom_placeSegments (gl : Nat) :
    ∀ (off : Nat) (rs : List SegRecord), off + totalSamples gl (placeSegments gl off rs) < 2 ^ 32 →
      packedFrom gl off (placeSegments gl off rs) = true := by
  intro off rs
  induction rs generalizing off with
  | nil => intro _; rfl
  | cons r rs ih =>
    intro h
    simp only [placeSegments, totalSamples] at h
    simp only [placeSegments, packedFrom, ih (off + r.numFrames * gl) (by omega), Bool.and_true, decide_eq_true_eq,
      BitVec.toNat_ofNat]
    exact Nat.mod_eq_of_lt (by omega)

theorem placeSegments_length (gl off : Nat) (rs : List SegRecord) : (placeSegments gl off rs).length = rs.length := by
  induction rs generalizing off with
  | nil => rfl
  | cons r rs ih => simp [placeSegments, ih]

/-- Placing the records changes no `numFrames` and no `isLong`. -/
theorem mem_placeSegments {gl off : Nat} {rs : List SegRecord} {d : SegDesc} (h : d ∈ placeSegments gl off rs) :
    ∃ r ∈ rs, d.numFrames = r.numFrames ∧ d.isLong = r.isLong := by
  induction rs generalizing off with
  | nil => simp [placeSegments] at h
  | cons r rs ih =>
    simp only [placeSegments, List.mem_cons] at h
    rcases h with rfl | h
    · exact ⟨r, by simp, rfl, rfl⟩
    · obtain ⟨q, hq, h⟩ := ih h
      exact ⟨q, by simp [hq], h⟩

/-- A record the loader accepts has a frame at least (R75). -/
theorem takeSegFields_numFrames {name : ByteName} {bs rest : List Byte} {r : SegRecord}
    (h : takeSegFields name bs = some (r, rest)) : 1 ≤ r.numFrames := by
  unfold takeSegFields at h
  split at h
  · cases h
  · split at h
    · cases h
    · split at h
      · rename_i hf
        cases h
        have := hf.1
        simp only
        omega
      · cases h

theorem takeSegments_numFrames {k : Nat} {bs rest : List Byte} {rs : List SegRecord}
    (h : takeSegments k bs = some (rs, rest)) : ∀ r ∈ rs, 1 ≤ r.numFrames := by
  induction k generalizing bs rs with
  | zero => cases h
  | succ k ih =>
    unfold takeSegments at h
    split at h
    · cases h
    · cases h; simp
    · split at h
      · cases h
      · rename_i r rest2 hf
        split at h
        · rename_i records rest3 hrec
          cases h
          intro x hx
          rcases List.mem_cons.mp hx with rfl | hx
          · exact takeSegFields_numFrames hf
          · exact ih hrec x hx
        · cases h

/-- Everything building a database can answer (R76, R278). -/
theorem buildDatabase_cases {rate grain : Int} {records : List SegRecord} {wave : List Byte} {db : Database}
    (h : buildDatabase rate grain records wave = some db) :
    1 ≤ rate ∧ 1 ≤ grain ∧ records.length ≤ 2 ^ 31 - 1 ∧ db.wtlen < 2 ^ 32 ∧ wave.length = 2 * db.wtlen ∧
      db = { valid := true, dbsr := rate.toNat, gl := grain.toNat, nseg := records.length,
             wtlen := totalSamples grain.toNat (placeSegments grain.toNat 0 records),
             seg := placeSegments grain.toNat 0 records, wt := Memory.ofBytes 0 wave } := by
  unfold buildDatabase at h
  dsimp only at h
  split at h
  · rename_i hc
    obtain ⟨h1, h2, h3, h4, h5⟩ := hc
    cases h
    exact ⟨h1, h2, h3, h4, h5, rfl⟩
  · cases h

end Sys2Proof.Machine
end

