-- ==== Sys2Proof/Laws/PerInstr.lean ====
section
/-! SUPPORT. Per-instruction family `TableRow`: the word of every well-formed instruction belongs to a row of
spec/opcode_table.json with the instruction's mnemonic. One lemma per constructor of `Instr`. -/

namespace Sys2Proof.Laws.TableRow

/-- The word of the instruction matches the table's row for its mnemonic. -/
def Statement (i : Instr) : Prop :=
  i.wellFormed = true → ∃ r ∈ opcodeTable, r.mnemonic = i.mnemonic ∧ r.accepts (encode i) = true

/-- A row whose opcode test the word passes. -/
theorem of_row {i : Instr} (mn : Mnemonic) (mt mk op : Opcode) (arg : Arg)
    (hrow : OpcodeRow.mk mn (mkCommand mt 0) (mkCommand mk 0) ∈ opcodeTable) (hname : i.mnemonic = mn)
    (hword : encode i = mkCommand op arg) (htest : (op &&& mk == mt) = true) :
    ∃ r ∈ opcodeTable, r.mnemonic = i.mnemonic ∧ r.accepts (encode i) = true :=
  ⟨_, hrow, hname.symm, by rw [hword, accepts_mkCommand]; exact htest⟩

theorem tick (arg : Arg) : Statement (.tick arg) := fun _ => of_row .TICK 0x00 0xFF 0x00 arg (by decide) rfl rfl rfl
theorem setfreq (arg : Arg) : Statement (.setfreq arg) := fun _ => of_row .SETFREQ 0x01 0xFF 0x01 arg (by decide) rfl rfl rfl
theorem queue (arg : Arg) : Statement (.queue arg) := fun _ => of_row .QUEUE 0x02 0xFF 0x02 arg (by decide) rfl rfl rfl
theorem noteon (arg : Arg) : Statement (.noteon arg) := fun _ => of_row .NOTEON 0x03 0xFF 0x03 arg (by decide) rfl rfl rfl
theorem noteoff (arg : Arg) : Statement (.noteoff arg) := fun _ => of_row .NOTEOFF 0x04 0xFF 0x04 arg (by decide) rfl rfl rfl
theorem clrerr (arg : Arg) : Statement (.clrerr arg) := fun _ => of_row .CLRERR 0x05 0xFF 0x05 arg (by decide) rfl rfl rfl
theorem setfshift (arg : Arg) : Statement (.setfshift arg) := fun _ => of_row .SETFSHIFT 0x06 0xFF 0x06 arg (by decide) rfl rfl rfl
theorem setpspeed (arg : Arg) : Statement (.setpspeed arg) := fun _ => of_row .SETPSPEED 0x07 0xFF 0x07 arg (by decide) rfl rfl rfl
theorem illegal80 (op : Opcode) (arg : Arg) : Statement (.illegal80 op arg) :=
  fun h => of_row .ILLEGAL 0x80 0x80 op arg (by decide) rfl rfl h
theorem illegal40 (op : Opcode) (arg : Arg) : Statement (.illegal40 op arg) :=
  fun h => of_row .ILLEGAL 0x40 0xC0 op arg (by decide) rfl rfl h
theorem illegal20 (op : Opcode) (arg : Arg) : Statement (.illegal20 op arg) :=
  fun h => of_row .ILLEGAL 0x20 0xE0 op arg (by decide) rfl rfl h
theorem illegal10 (op : Opcode) (arg : Arg) : Statement (.illegal10 op arg) :=
  fun h => of_row .ILLEGAL 0x10 0xF0 op arg (by decide) rfl rfl h
theorem illegal08 (op : Opcode) (arg : Arg) : Statement (.illegal08 op arg) :=
  fun h => of_row .ILLEGAL 0x08 0xF8 op arg (by decide) rfl rfl h

end Sys2Proof.Laws.TableRow
end

