-- ==== Sys2Proof/Laws/Step.lean ====
section
/-! SUPPORT. Everything a control command and a step of the machine can do, for this hardware and for every value of the
numeric parameters. -/

namespace Sys2Proof.Machine

/-- Everything `QUEUE` can do (44_control_commands.md R221). -/
theorem execQueue_cases {arg : Arg} {s t : State} (h : execQueue arg s = .next t) :
    ((indexOperand arg < -1 ∨ (s.db.nseg : Int) ≤ indexOperand arg) ∧ t = s.raise .E_IDX (encode (.queue arg))) ∨
    (-1 ≤ indexOperand arg ∧ indexOperand arg < (s.db.nseg : Int) ∧ s.queueFull = true ∧
      t = s.raise .E_QOVF (encode (.queue arg))) ∨
    (-1 ≤ indexOperand arg ∧ indexOperand arg < (s.db.nseg : Int) ∧ s.queueFull = false ∧
      t = s.setQueue (s.queue ++ [arg])) := by
  unfold execQueue at h
  split at h
  · rename_i hr; exact .inl ⟨hr, (Result.next_inj h).symm⟩
  · rename_i hr
    push Not at hr
    split at h
    · rename_i hf; exact .inr (.inl ⟨hr.1, hr.2, hf, (Result.next_inj h).symm⟩)
    · rename_i hf; exact .inr (.inr ⟨hr.1, hr.2, by simpa using hf, (Result.next_inj h).symm⟩)

/-- Everything `NOTEON` can do (R222). -/
theorem execNoteon_cases {arg : Arg} {s t : State} (h : execNoteon arg s = .next t) :
    (s.noteOns = BitVec.allOnes 32 ∧ t = s.raise .E_CNTOVF (encode (.noteon arg))) ∨
    (s.noteOns ≠ BitVec.allOnes 32 ∧ t = s.setNoteOns (s.noteOns + 1)) := by
  unfold execNoteon at h
  split at h
  · rename_i hn; exact .inl ⟨hn, (Result.next_inj h).symm⟩
  · rename_i hn; exact .inr ⟨hn, (Result.next_inj h).symm⟩

/-- Everything `NOTEOFF` can do (R223). -/
theorem execNoteoff_cases {arg : Arg} {s t : State} (h : execNoteoff arg s = .next t) :
    (s.noteOffs = BitVec.allOnes 32 ∧ t = s.raise .E_CNTOVF (encode (.noteoff arg))) ∨
    (s.noteOffs ≠ BitVec.allOnes 32 ∧ t = s.setNoteOffs (s.noteOffs + 1)) := by
  unfold execNoteoff at h
  split at h
  · rename_i hn; exact .inl ⟨hn, (Result.next_inj h).symm⟩
  · rename_i hn; exact .inr ⟨hn, (Result.next_inj h).symm⟩

/-- The operand of `SETFREQ` lies in `[0, 65536)` (30_encoding.md R109). -/
theorem freqOperand_range (arg : Arg) : 0 ≤ freqOperand arg ∧ freqOperand arg < 65536 := by
  have h : (arg.toNat : Rat) < 4294967296 := by exact_mod_cast arg.isLt
  unfold freqOperand
  exact ⟨by positivity, by linarith⟩

/-! ### What `LASTERR` records (10_state.md R43) -/

/-- The bits of a record: the command word below bit 40, the code, then `valid`. -/
theorem getLsbD_lasterrRecord (e : ErrorCause) (cmd : Command) (i : Nat) :
    (lasterrRecord e cmd).getLsbD i =
      if i < 40 then cmd.getLsbD i else if i - 40 < 3 then e.code.getLsbD (i - 40) else (1#1).getLsbD (i - 40 - 3) := by
  have h : (lasterrRecord e cmd).getLsbD i = if i < 40 then cmd.getLsbD i else (1#1 ++ e.code).getLsbD (i - 40) := by
    unfold lasterrRecord
    exact BitVec.getLsbD_append
  rw [h, BitVec.getLsbD_append]

theorem lasterrValid_record (e : ErrorCause) (cmd : Command) : lasterrValid (lasterrRecord e cmd) = true := by
  rw [lasterrValid, getLsbD_lasterrRecord]; rfl

theorem lasterrCode_record (e : ErrorCause) (cmd : Command) : lasterrCode (lasterrRecord e cmd) = e.code := by
  apply BitVec.eq_of_getLsbD_eq
  intro i hi
  simp [lasterrCode, getLsbD_lasterrRecord, hi]

theorem lasterrCmd_record (e : ErrorCause) (cmd : Command) : lasterrCmd (lasterrRecord e cmd) = cmd := by
  apply BitVec.eq_of_getLsbD_eq
  intro i hi
  simp [lasterrCmd, getLsbD_lasterrRecord, hi]

/-! ### This hardware's machine is the parametric one at its numerics (00_scope.md R6, 10_state.md R46) -/

theorem execWith_hardware : execWith hardwareNumerics = exec := by
  funext i s
  cases i <;> rfl

theorem stepWith_hardware : stepWith hardwareNumerics = step := by
  funext s
  rw [stepWith, execWith_hardware, step]

theorem coreWith_hardware : coreWith hardwareNumerics = Sys2Proof.core := by
  rw [coreWith, stepWith_hardware, Sys2Proof.core]

theorem runWith_hardware : State.runWith hardwareNumerics = State.run := by
  funext k s
  have h : ∀ f, f = step → (Host.Core.mk State Fault Refusal f State.reset).run k s = Sys2Proof.core.run k s := by
    rintro _ rfl
    rfl
  exact h _ stepWith_hardware

/-- Everything a control command (any instruction but `TICK`) can do: it raises, or writes one of its four registers. -/
theorem execWith_control_cases {N : Numerics} {i : Instr} {s t : State} (hi : ∀ arg, i ≠ .tick arg)
    (h : execWith N i s = .next t) :
    (∃ e cmd, t = s.raise e cmd) ∨ (∃ arg, t = s.setFrequency N (freqOperand arg)) ∨
    (∃ arg, s.db.validIndex arg = true ∧ s.queueFull = false ∧ t = s.setQueue (s.queue ++ [arg])) ∨
    (∃ n, t = s.setNoteOns n) ∨ (∃ n, t = s.setNoteOffs n) ∨ (∃ mask, t = s.clearErrors mask) := by
  cases i with
  | tick arg => exact absurd rfl (hi arg)
  | setfreq arg => exact .inr (.inl ⟨_, (Result.next_inj h).symm⟩)
  | queue arg =>
    rcases execQueue_cases h with ⟨_, rfl⟩ | ⟨_, _, _, rfl⟩ | ⟨hlo, hhi, hf, rfl⟩
    · exact .inl ⟨_, _, rfl⟩
    · exact .inl ⟨_, _, rfl⟩
    · refine .inr (.inr (.inl ⟨arg, ?_, hf, rfl⟩))
      rw [Database.validIndex_iff]
      by_cases hneg : arg.toInt = -1
      · exact .inl (by apply BitVec.eq_of_toInt_eq; simpa [gapToken] using hneg)
      · refine .inr ?_
        unfold indexOperand at hlo hhi
        have := BitVec.toInt_eq_toNat_cond arg
        split at this <;> omega
  | noteon arg =>
    rcases execNoteon_cases h with ⟨_, rfl⟩ | ⟨_, rfl⟩
    · exact .inl ⟨_, _, rfl⟩
    · exact .inr (.inr (.inr (.inl ⟨_, rfl⟩)))
  | noteoff arg =>
    rcases execNoteoff_cases h with ⟨_, rfl⟩ | ⟨_, rfl⟩
    · exact .inl ⟨_, _, rfl⟩
    · exact .inr (.inr (.inr (.inr (.inl ⟨_, rfl⟩))))
  | clrerr arg => exact .inr (.inr (.inr (.inr (.inr ⟨_, (Result.next_inj h).symm⟩))))
  | setfshift arg => exact .inl ⟨_, _, (Result.next_inj h).symm⟩
  | setpspeed arg => exact .inl ⟨_, _, (Result.next_inj h).symm⟩
  | illegal80 op arg => exact .inl ⟨_, _, (Result.next_inj h).symm⟩
  | illegal40 op arg => exact .inl ⟨_, _, (Result.next_inj h).symm⟩
  | illegal20 op arg => exact .inl ⟨_, _, (Result.next_inj h).symm⟩
  | illegal10 op arg => exact .inl ⟨_, _, (Result.next_inj h).symm⟩
  | illegal08 op arg => exact .inl ⟨_, _, (Result.next_inj h).symm⟩

/-- Everything a control command of this hardware can do. -/
theorem exec_control_cases {i : Instr} {s t : State} (hi : ∀ arg, i ≠ .tick arg) (h : exec i s = .next t) :
    (∃ e cmd, t = s.raise e cmd) ∨ (∃ arg, t = s.setFrequency hardwareNumerics (freqOperand arg)) ∨
    (∃ arg, s.db.validIndex arg = true ∧ s.queueFull = false ∧ t = s.setQueue (s.queue ++ [arg])) ∨
    (∃ n, t = s.setNoteOns n) ∨ (∃ n, t = s.setNoteOffs n) ∨ (∃ mask, t = s.clearErrors mask) := by
  rw [← execWith_hardware] at h
  exact execWith_control_cases hi h

/-! ### The reset input (70_reset_and_hazards.md R270) -/

@[simp] theorem State.resetWith_poolSize (pool : Nat) (qdepth : Option Nat) (inputs : ConfigInputs) :
    (State.resetWith pool qdepth inputs).poolSize = pool := List.length_replicate

theorem resetState_eq (inputs : ConfigInputs) (s : State) :
    resetState inputs s = { State.resetWith s.poolSize s.qdepth inputs with port := s.port } := rfl

theorem holdReset_eq (inputs : ConfigInputs) (s : State) :
    holdReset inputs s = { State.resetWith s.poolSize s.qdepth inputs with resetAsserted := true, port := s.port } := rfl

@[simp] theorem holdReset_poolSize (inputs : ConfigInputs) (s : State) : (holdReset inputs s).poolSize = s.poolSize :=
  State.resetWith_poolSize s.poolSize s.qdepth inputs

@[simp] theorem holdReset_inputs (inputs : ConfigInputs) (s : State) : (holdReset inputs s).inputs = inputs := rfl
@[simp] theorem holdReset_qdepth (inputs : ConfigInputs) (s : State) : (holdReset inputs s).qdepth = s.qdepth := rfl
@[simp] theorem holdReset_resetAsserted (inputs : ConfigInputs) (s : State) : (holdReset inputs s).resetAsserted = true := rfl
@[simp] theorem holdReset_port (inputs : ConfigInputs) (s : State) : (holdReset inputs s).port = s.port := rfl

/-- Only the size of the pool, the capacity of the queue and the port outlive an assertion of reset. -/
@[simp] theorem holdReset_holdReset (inputs old : ConfigInputs) (s : State) :
    holdReset inputs (holdReset old s) = holdReset inputs s := by
  rw [holdReset_eq inputs (holdReset old s), holdReset_poolSize, holdReset_qdepth, holdReset_port, ← holdReset_eq]

theorem holdReset_setPort (inputs : ConfigInputs) (s : State) (p : List Input) :
    holdReset inputs (s.setPort p) = (holdReset inputs s).setPort p := rfl

/-- Everything a step can do, for any meaning of the instructions: nothing is presented, a command is performed or falls to
reset, reset is asserted, the inputs are driven, or reset is released. -/
theorem stepBy_cases {meaning : Instr → State → Result State} {s t : State} (h : stepBy meaning s = .next t) :
    (s.port = [] ∧ t = s) ∨
    (∃ w rest, s.port = .command w :: rest ∧ s.resetAsserted = false ∧ meaning (decode w) (s.setPort rest) = .next t) ∨
    (∃ w rest, s.port = .command w :: rest ∧ s.resetAsserted = true ∧ t = s.setPort rest) ∨
    (∃ rest, s.port = .assertReset :: rest ∧ t = holdReset s.inputs (s.setPort rest)) ∨
    (∃ inputs rest, s.port = .configure inputs :: rest ∧ s.resetAsserted = true ∧ t = holdReset inputs (s.setPort rest)) ∨
    (∃ rest, s.port = .configure s.inputs :: rest ∧ s.resetAsserted = false ∧ t = s.setPort rest) ∨
    (∃ rest, s.port = .releaseReset :: rest ∧ s.resetAsserted = true ∧ t = resetState s.inputs (s.setPort rest)) ∨
    (∃ rest, s.port = .releaseReset :: rest ∧ s.resetAsserted = false ∧ t = s.setPort rest) := by
  unfold stepBy takeInput at h
  cases hp : s.port with
  | nil => rw [hp] at h; exact .inl ⟨rfl, (Result.next_inj h).symm⟩
  | cons x rest =>
    rw [hp] at h
    refine .inr ?_
    cases hr : s.resetAsserted <;> cases x <;>
      simp only [acceptCommand, driveConfiguration, releaseReset, assertReset, State.setPort_resetAsserted, hr,
        if_true, Bool.false_eq_true, if_false] at h
    case false.command w => exact .inl ⟨w, rest, rfl, rfl, h⟩
    case false.assertReset => exact .inr (.inr (.inl ⟨rest, rfl, (Result.next_inj h).symm⟩))
    case false.configure inputs =>
      split at h
      · rename_i hi
        rw [State.setPort_inputs] at hi
        subst hi
        exact .inr (.inr (.inr (.inr (.inl ⟨rest, rfl, rfl, (Result.next_inj h).symm⟩))))
      · cases h
    case false.releaseReset => exact .inr (.inr (.inr (.inr (.inr (.inr ⟨rest, rfl, rfl, (Result.next_inj h).symm⟩)))))
    case true.command w => exact .inr (.inl ⟨w, rest, rfl, rfl, (Result.next_inj h).symm⟩)
    case true.assertReset => exact .inr (.inr (.inl ⟨rest, rfl, (Result.next_inj h).symm⟩))
    case true.configure inputs => exact .inr (.inr (.inr (.inl ⟨inputs, rest, rfl, rfl, (Result.next_inj h).symm⟩)))
    case true.releaseReset =>
      exact .inr (.inr (.inr (.inr (.inr (.inl ⟨rest, rfl, rfl, (Result.next_inj h).symm⟩)))))

/-- A step with a command presented and reset not asserted performs the command. -/
theorem stepBy_command {meaning : Instr → State → Result State} {s : State} {w : Command} {rest : List Input}
    (hp : s.port = .command w :: rest) (hr : s.resetAsserted = false) :
    stepBy meaning s = meaning (decode w) (s.setPort rest) := by
  simp [stepBy, takeInput, hp, acceptCommand, hr]

end Sys2Proof.Machine
end

