-- ==== Sys2Proof/Tests/Slice0.lean ====
section
/-! SUPPORT. Tests. Expected words and values are the spec's own (95_test_vectors.md; the rule is named where it is another
file). `test_…` checks a value; `witness_…` shows a state and operands that meet all hypotheses of the obligation it names. -/

namespace Sys2Proof.Tests

set_option Elab.async false

open Sys2Proof Sys2Proof.Machine

/-! ### Helpers -/

/-- The value an operation answers, if it gives one. -/
def nextOf {α : Type} (r : Result α) : Option α :=
  match r with
  | .next a => some a
  | .fault _ => none
  | .refused _ => none

theorem exists_next {α : Type} {r : Result α} (h : (nextOf r).isSome = true) : ∃ a, r = .next a := by
  cases r with
  | next a => exact ⟨a, rfl⟩
  | fault e => simp [nextOf] at h
  | refused e => simp [nextOf] at h

/-- The segment table of TDB1 (section 2.1). -/
def tdb1Segments : List SegDesc := [⟨5, true, 0⟩, ⟨4, false, 20⟩, ⟨1, false, 36⟩]

/-- The bytes of TDB1's wavetable: file bytes 0x38 to 0x87 of section 2.2. -/
def tdb1Wave : List Byte :=
  [0xE8, 0x03, 0x4C, 0x04, 0xB0, 0x04, 0x14, 0x05, 0xD0, 0x07, 0x34, 0x08, 0x98, 0x08, 0xFC, 0x08,
   0xB8, 0x0B, 0x1C, 0x0C, 0x80, 0x0C, 0xE4, 0x0C, 0xA0, 0x0F, 0x04, 0x10, 0x68, 0x10, 0xCC, 0x10,
   0x88, 0x13, 0xEC, 0x13, 0x50, 0x14, 0xB4, 0x14, 0x0C, 0xFE, 0x05, 0xFE, 0xFE, 0xFD, 0xF7, 0xFD,
   0x18, 0xFC, 0x11, 0xFC, 0x0A, 0xFC, 0x03, 0xFC, 0x24, 0xFA, 0x1D, 0xFA, 0x16, 0xFA, 0x0F, 0xFA,
   0x30, 0xF8, 0x29, 0xF8, 0x22, 0xF8, 0x1B, 0xF8, 0xFF, 0x7F, 0x00, 0x80, 0x01, 0x00, 0xFF, 0xFF]

/-- The bytes of TDB1's file before the wavetable: file bytes 0x00 to 0x37 of section 2.2. -/
def tdb1Head : List Byte :=
  [0x4F, 0x44, 0x44, 0x56, 0x4F, 0x49, 0x43, 0x45, 0x53, 0x00, 0x00, 0x00, 0x64, 0x00, 0x00, 0x00,
   0x04, 0x00, 0x00, 0x00, 0x61, 0x00, 0x62, 0x00, 0x00, 0x41, 0x00, 0x05, 0x00, 0x00, 0x00, 0x01,
   0x00, 0x00, 0x00, 0x42, 0x00, 0x04, 0x00, 0x00, 0x00, 0x00, 0x00, 0x00, 0x00, 0x43, 0x00, 0x01,
   0x00, 0x00, 0x00, 0x00, 0x00, 0x00, 0x00, 0x00]

/-- TDB1 as the block sees it. -/
def tdb1 : Database :=
  { valid := true, dbsr := 100, gl := 4, nseg := 3, wtlen := 40, seg := tdb1Segments, wt := Memory.ofBytes 0 tdb1Wave }

/-- The inputs of the vectors: TDB1 at `FS = 100`. -/
def tdb1Inputs : ConfigInputs := ⟨100, tdb1⟩

/-- The start state of section 3: reset released with TDB1, `FS = 100`, `POOL = 4`, `QDEPTH = 256`. -/
def idle : State := State.resetWith 4 (some 256) tdb1Inputs

/-- No database. -/
def silent : State := State.resetWith 4 (some 2) ⟨100, Database.zeroed⟩

/-- Idle, with a note-on pending and these entries queued: the next `TICK` runs. -/
def ready (q : List SegIndex) : State := { idle with queue := q, noteOns := 1, frequency := 100 }

/-- A long segment (TDB1's "A") at a time, these entries queued. -/
def inLong (t : Rat) (q : List SegIndex) : State :=
  { idle with segment := 0, segmentTime := t, segmentLength := 1 / 10, oldSegmentTime := t, queue := q, frequency := 100 }

/-- A short segment (TDB1's "B") at a time, one tick into the crossfade from "A". -/
def inFade (t : Rat) (q : List SegIndex) : State :=
  { idle with
    segment := 1, segmentTime := t, segmentLength := 2 / 25, oldSegment := 0, oldSegmentTime := 1 / 25,
    crossfade := 2 / 3, crossfadeRamp := -1 / 3, queue := q, frequency := 100 }

/-! ### Well-formedness: each check refuses an ill-formed term -/

theorem test_wellFormed_refuses_illegal80 : (Instr.illegal80 0x7F#8 0).wellFormed = false := by decide
theorem test_wellFormed_refuses_illegal40 : (Instr.illegal40 0x80#8 0).wellFormed = false := by decide
theorem test_wellFormed_refuses_illegal20 : (Instr.illegal20 0x40#8 0).wellFormed = false := by decide
theorem test_wellFormed_refuses_illegal10 : (Instr.illegal10 0x20#8 0).wellFormed = false := by decide
theorem test_wellFormed_refuses_illegal08 : (Instr.illegal08 0x07#8 0).wellFormed = false := by decide

/-! ### Decoding: words written out from the spec -/

theorem test_decode_tick : decode 0x00FFFFFFFF#40 = .tick 0xFFFFFFFF#32 := by decide
theorem test_decode_setfreq : decode 0x010105A148#40 = .setfreq 0x0105A148#32 := by decide
theorem test_decode_queue : decode 0x02FFFFFFFE#40 = .queue 0xFFFFFFFE#32 := by decide
theorem test_decode_noteon : decode 0x03DEADBEEF#40 = .noteon 0xDEADBEEF#32 := by decide
theorem test_decode_noteoff : decode 0x0400000000#40 = .noteoff 0#32 := by decide
theorem test_decode_clrerr : decode 0x0500000240#40 = .clrerr 0x240#32 := by decide
theorem test_decode_setfshift : decode 0x0600000000#40 = .setfshift 0#32 := by decide
theorem test_decode_setpspeed : decode 0x0700000000#40 = .setpspeed 0#32 := by decide
theorem test_decode_illegal08 :
    decode 0x0800000000#40 = .illegal08 0x08#8 0 ∧ decode 0x09DEADBEEF#40 = .illegal08 0x09#8 0xDEADBEEF#32 ∧
      decode 0x0F00000000#40 = .illegal08 0x0F#8 0 := by decide
theorem test_decode_illegal10 :
    decode 0x1000000000#40 = .illegal10 0x10#8 0 ∧ decode 0x1F00000000#40 = .illegal10 0x1F#8 0 := by decide
theorem test_decode_illegal20 :
    decode 0x2000000000#40 = .illegal20 0x20#8 0 ∧ decode 0x3F00000000#40 = .illegal20 0x3F#8 0 := by decide
theorem test_decode_illegal40 :
    decode 0x4000000000#40 = .illegal40 0x40#8 0 ∧ decode 0x7F00000000#40 = .illegal40 0x7F#8 0 := by decide
theorem test_decode_illegal80 :
    decode 0x8000000000#40 = .illegal80 0x80#8 0 ∧ decode 0xFF00000000#40 = .illegal80 0xFF#8 0 := by decide
theorem test_encode_words :
    encode (.queue 1#32) = 0x0200000001#40 ∧ encode (.clrerr 0x101#32) = 0x0500000101#40 ∧
      encode (.illegal08 0x09#8 0xDEADBEEF#32) = 0x09DEADBEEF#40 := by decide
theorem test_table_word :
    decodeTableWord 40 0x0101B80000 = some (.setfreq 0x01B80000#32) ∧ decodeTableWord 48 0 = none := by decide
theorem test_assembler :
    assembleLine ['q', 'u', 'e', 'u', 'e', ' ', '-', '2'] = some [0x02FFFFFFFE#40] ∧
      AsmLine.words (.note [0, 1]) = some [0x0200000000#40, 0x0200000001#40, 0x0300000000#40] ∧
      AsmLine.words .clrall = some [0x05000001FF#40] := by decide
theorem test_assembler_setfreq : AsmLine.words (.setfreq (26163 / 100)) = some [0x010105A148#40] := by decide +kernel

/-! ### The memory and the loader (section 2.2) -/

theorem test_loader : loadedDatabase (tdb1Head ++ tdb1Wave) = tdb1 := by decide +kernel
theorem test_loader_failures :
    loadVoiceFile (0x4E#8 :: (tdb1Head ++ tdb1Wave).tail) = none ∧ loadVoiceFile ((tdb1Head ++ tdb1Wave).take 135) = none ∧
      loadVoiceFile ((tdb1Head ++ tdb1Wave).set 0x1F 0x02#8) = none := by decide +kernel
theorem test_samples :
    nextOf (tdb1.memRead 20) = some (-500) ∧ nextOf (tdb1.memRead 37) = some (-32768) ∧ nextOf (tdb1.memRead 40) = none := by
  decide +kernel
theorem test_memory_wf : Memory.wf tdb1.wt = true := by decide +kernel

/-! ### One step for each command -/

/-- V-SQ4, its third tick. -/
theorem test_tick_starts_a_note :
    let after := nextOf (exec (.tick 0) { ready [0#32] with frequency := 200 })
    (after.map fun t => (t.sample.toInt, t.phase, t.noteOns, t.nextGrain)) = some (1000, 1, 0, 1) ∧
    (after.map fun t => (t.segment.toInt, t.segmentTime, t.segmentLength)) = some (0, 1 / 100, 1 / 10) := by decide +kernel

/-- Program P3: three transitions in one tick. -/
theorem test_tick_three_transitions :
    let after := nextOf (exec (.tick 0) { ready [0#32, 2#32, 1#32] with noteOffs := 1 })
    (after.map fun t => (t.sample.toInt, t.segment.toInt, t.oldSegment.toInt, t.queue)) = some (32767, 1, 2, []) ∧
    (after.map fun t => (t.oldSegmentTime, t.crossfade, t.crossfadeRamp)) = some (1 / 100, 2 / 3, -1 / 3) ∧
    (after.map fun t => t.pool.head?) = some (some ⟨true, 1, 20#32, 36#32, 1⟩) := by decide +kernel

theorem test_setfreq : ((nextOf (exec (.setfreq 0x01B80000#32) idle)).map fun t => t.frequency) = some 440 := by
  decide +kernel

/-- V-CC2: the range check comes before the capacity check; a gap token needs room too. -/
theorem test_queue_full :
    let full := { idle with queue := [0#32, 1#32], qdepth := some 2 }
    ((nextOf (exec (.queue 7#32) full)).map fun t => (t.status, t.lasterr, t.live)) =
      some (0x02#8, 0x90200000007#44, 0x24#8) ∧
    ((nextOf (exec (.queue 0xFFFFFFFF#32) full)).map fun t => (t.status, t.lasterr, t.queue.length)) =
      some (0x04#8, 0xA02FFFFFFFF#44, 2) := by decide +kernel

/-- P4 and R221 at the ends of the range: -2 and `NSEG` are out, -1 and `NSEG - 1` are in. -/
theorem test_queue_range :
    ((nextOf (exec (.queue 0xFFFFFFFE#32) idle)).map fun t => (t.status, t.queue)) = some (0x02#8, []) ∧
    ((nextOf (exec (.queue 3#32) idle)).map fun t => (t.status, t.queue)) = some (0x02#8, []) ∧
    ((nextOf (exec (.queue 0xFFFFFFFF#32) idle)).map fun t => (t.status, t.queue)) = some (0, [gapToken]) ∧
    ((nextOf (exec (.queue 2#32) idle)).map fun t => (t.status, t.queue)) = some (0, [2#32]) := by decide +kernel

/-- V-CC4. -/
theorem test_noteon :
    ((nextOf (exec (.noteon 0) { idle with noteOns := 0xFFFFFFFE#32 })).map fun t => (t.noteOns, t.status)) =
      some (0xFFFFFFFF#32, 0) ∧
    ((nextOf (exec (.noteon 0) { idle with noteOns := 0xFFFFFFFF#32 })).map fun t => (t.noteOns, t.status, t.lasterr)) =
      some (0xFFFFFFFF#32, 0x08#8, 0xB0300000000#44) := by decide +kernel

theorem test_noteoff :
    ((nextOf (exec (.noteoff 0) { idle with noteOffs := 0 })).map fun t => (t.noteOffs, t.status)) = some (1, 0) ∧
    ((nextOf (exec (.noteoff 0) { idle with noteOffs := 0xFFFFFFFF#32 })).map fun t => (t.noteOffs, t.lasterr)) =
      some (0xFFFFFFFF#32, 0xB0400000000#44) := by decide +kernel

/-- P4, its two `clrerr` lines. -/
theorem test_clrerr :
    let flagged := { idle with status := 0x23#8, lasterr := 0x902FFFFFFFE#44 }
    ((nextOf (exec (.clrerr 0x003#32) flagged)).map fun t => (t.status, t.lasterr)) =
      some (0x20#8, 0x902FFFFFFFE#44) ∧
    ((nextOf (exec (.clrerr 0x100#32) flagged)).map fun t => (t.status, t.lasterr)) = some (0x23#8, 0) := by
  decide +kernel

theorem test_setfshift :
    ((nextOf (exec (.setfshift 0) idle)).map fun t => (t.status, t.lasterr)) = some (0x20#8, 0xD0600000000#44) := by
  decide +kernel
theorem test_setpspeed :
    ((nextOf (exec (.setpspeed 0) idle)).map fun t => (t.status, t.lasterr)) = some (0x20#8, 0xD0700000000#44) := by
  decide +kernel
theorem test_illegal08 :
    ((nextOf (exec (decode 0x09DEADBEEF#40) idle)).map fun t => (t.status, t.lasterr)) =
      some (0x01#8, 0x809DEADBEEF#44) := by decide +kernel
theorem test_illegal10 :
    ((nextOf (exec (decode 0x1F00000001#40) idle)).map fun t => t.lasterr) = some 0x81F00000001#44 := by decide +kernel
theorem test_illegal20 :
    ((nextOf (exec (decode 0x2000000001#40) idle)).map fun t => t.lasterr) = some 0x82000000001#44 := by decide +kernel
theorem test_illegal40 :
    ((nextOf (exec (decode 0x7F00000001#40) idle)).map fun t => t.lasterr) = some 0x87F00000001#44 := by decide +kernel
theorem test_illegal80 :
    ((nextOf (exec (decode 0xFF00000001#40) idle)).map fun t => t.lasterr) = some 0x8FF00000001#44 := by decide +kernel

/-! ### The grain unit (section 3.2) and the crossfade (V-EM1, V-PH4) -/

/-- V-GR3, V-GR4, V-GR7. -/
theorem test_grain_mix :
    nextOf (grainSample hardwareNumerics tdb1 ⟨true, 0, 20#32, 8#32, 2 / 3⟩) = some 1833 ∧
    nextOf (grainSample hardwareNumerics tdb1 ⟨true, 3, 36#32, 36#32, 1 / 2⟩) = some (-1) ∧
    nextOf (grainSample hardwareNumerics tdb1 ⟨true, 0, 36#32, 20#32, 1⟩) = some (-500) := by decide +kernel

/-- V-GR5, V-GR6: the rounding is toward zero. -/
theorem test_mix_truncates :
    grainMix hardwareNumerics (-1) 0 (1 / 3) = 0 ∧ grainMix hardwareNumerics (-32768) 32767 (1 / 2) = 0 := by
  decide +kernel

/-- Program P2, tick 5: the trigger during a crossfade. -/
theorem test_trigger_two_source :
    ((nextOf (trigger hardwareNumerics (inFade (1 / 100) []))).map fun t => (t.nextGrain, t.pool.head?)) =
      some (1, some ⟨true, 0, 20#32, 8#32, 2 / 3⟩) := by decide +kernel

/-- S5 and V-RS1. -/
theorem test_reset_live : State.reset.live = 0x02#8 ∧ idle.live = 0x22#8 := by decide +kernel

/-! ### States that meet the invariant -/

theorem inputs_ok : tdb1Inputs.wellFormed = true := by decide +kernel
theorem tdb1_wellFormed : tdb1.wellFormed = true := by decide +kernel

/-- The clauses of the invariant that a finite check decides, as one, for a block out of reset. -/
theorem engineInv_of {s : State} (h1 : s.inputs.wellFormed = true)
    (h2 : s.resetAsserted = false ∧ portOk false s.inputs s.port = true)
    (h3 : s.queue.all s.db.validIndex = true) (h4 : s.pool.all (Grain.ok s.db) = true)
    (h5 : (1 ≤ s.poolSize ∧ s.poolSize ≤ Config.poolMax ∧ s.nextGrain < s.poolSize ∧ s.queueFits = true) ∧
      (0 ≤ s.frequency ∧ s.frequency < 65536 ∧ 0 ≤ s.phase) ∧
      (0 ≤ s.segmentTime ∧ 0 ≤ s.oldSegmentTime ∧ 0 ≤ s.segmentLength))
    (h6 : (s.db.validIndex s.segment = true ∧ s.db.validIndex s.oldSegment = true) ∧
      (0 ≤ s.crossfade ∧ s.crossfade ≤ 1) ∧ (s.crossfade = 0 ∨ s.oldSegment ≠ gapToken) ∧
      (s.crossfadeRamp = 0 ∨ s.crossfadeRamp = s.fullRamp) ∧ (s.crossfade ≠ 0 ∨ s.crossfadeRamp = 0) ∧
      (s.segment ≠ gapToken ∨ s.segmentLength = 0))
    (h7 : s.status = 0 ∧ s.lasterr = 0) : EngineInv s where
  pool_size := ⟨h5.1.1, h5.1.2.1⟩
  port_ok := by rw [h2.1]; exact h2.2
  held h := by rw [h2.1] at h; cases h
  running _ :=
    { inputs_ok := h1
      frequency_range := ⟨h5.2.1.1, h5.2.1.2.1⟩
      phase_nonneg := h5.2.1.2.2
      segmentTime_nonneg := h5.2.2.1
      oldSegmentTime_nonneg := h5.2.2.2.1
      segmentLength_nonneg := h5.2.2.2.2
      queue_fits := h5.1.2.2.2
      queue_valid := List.all_eq_true.mp h3
      segment_valid := h6.1.1
      oldSegment_valid := h6.1.2
      crossfade_range := h6.2.1
      crossfade_old := fun h => h6.2.2.1.resolve_left h
      ramp_values := h6.2.2.2.1
      ramp_cleared := fun h => h6.2.2.2.2.1.resolve_left fun hn => hn h
      idle_length := fun h => h6.2.2.2.2.2.resolve_left fun hn => hn h
      nextGrain_range := h5.1.2.2.1
      grains_ok := List.all_eq_true.mp h4
      status_reserved := by rw [h7.1]; rfl
      lasterr_valid := fun _ => h7.2
      lasterr_code := by rw [h7.2]; decide }

theorem inv_idle : EngineInv idle := by apply engineInv_of <;> decide +kernel
theorem inv_silent : EngineInv silent := by apply engineInv_of <;> decide +kernel
theorem inv_ready : EngineInv (ready [0#32, 1#32]) := by apply engineInv_of <;> decide +kernel
theorem inv_inLong : EngineInv (inLong (3 / 100) [1#32]) := by apply engineInv_of <;> decide +kernel
theorem inv_inFade : EngineInv (inFade (1 / 100) []) := by apply engineInv_of <;> decide +kernel

/-- A running state with a `TICK`, then a reset that loads another database, presented at the port. -/
def running : State :=
  (inFade (1 / 100) []).setPort [.command 0#40, .assertReset, .configure ⟨0, tdb1⟩, .configure ⟨44100, tdb1⟩, .releaseReset]

theorem inv_running : EngineInv running := by apply engineInv_of <;> decide +kernel

/-- A block with reset asserted: a command, other inputs and the release presented. -/
def held : State :=
  holdReset tdb1Inputs { idle with port := [.command 0x0200000000#40, .configure ⟨44100, tdb1⟩, .releaseReset] }

theorem inv_held : EngineInv held where
  pool_size := by decide +kernel
  port_ok := by decide +kernel
  running h := by cases h
  held _ := by decide +kernel

/-- R270: a step of a running block on the assertion of reset, then one on a command, then one on the release. -/
theorem test_reset_holds :
    ((nextOf (step (running.setPort running.port.tail))).map fun t => (t.segment, t.resetAsserted, t.inputs.fs)) =
      some (-1, true, 100) ∧
    ((nextOf (step held)).map fun t => (t.queue, t.resetAsserted)) = some ([], true) ∧
    ((nextOf (step (held.setPort [.releaseReset]))).map fun t => (t.resetAsserted, t.inputs.fs)) = some (false, 100) := by
  decide +kernel

/-! ### Witnesses for the hypotheses of the obligations -/

theorem witness_DecodeEncodeAgree :
    (Instr.tick 0xFFFFFFFF#32).wellFormed = true ∧ (Instr.illegal08 0x08#8 0).wellFormed = true ∧
      (Instr.illegal08 0x0F#8 0).wellFormed = true ∧ (Instr.illegal10 0x1F#8 0).wellFormed = true ∧
      (Instr.illegal20 0x20#8 0).wellFormed = true ∧ (Instr.illegal40 0x7F#8 0).wellFormed = true ∧
      (Instr.illegal80 0xFF#8 0).wellFormed = true := by decide

theorem witness_DecodeFollowsOpcodeMap : 8 ≤ (0x08#8 : Opcode).toNat ∧ 8 ≤ (0xFF#8 : Opcode).toNat := by decide

theorem witness_IgnoredBitsHaveNoEffect :
    8 ≤ (0x08#8 : Opcode).toNat ∧ (0xFFFFFE01#32 : Arg) &&& 0x1FF#32 = 0x001#32 &&& 0x1FF#32 ∧
      (∃ t, exec (.tick 1) silent = .next t) ∧ (∃ t, exec (.noteon 1) idle = .next t) :=
  ⟨by decide, by decide, exists_next (by decide +kernel), exists_next (by decide +kernel)⟩

theorem witness_FirstTickAfterResetIsSilent :
    (some 256 : Option Nat) ≠ some 0 ∧ (none : Option Nat) ≠ some 0 ∧ tdb1Inputs.db.valid = true := by decide

theorem witness_SilentUntilNoteonAndQueue :
    (∀ w ∈ [0x0200000000#40, 0x0000000000#40], opcodeOf w ≠ 0x03#8) ∧
    (∀ w ∈ [0x0300000000#40, 0x0000000000#40], opcodeOf w ≠ 0x02#8) := by
  simp only [List.forall_mem_cons, List.not_mem_nil, false_implies, implies_true, and_true]
  decide

/-- A state and a port for every clause. -/
theorem witness_ResetHoldsThenRestarts :
    ((inFade 0 []).setPort [.assertReset, .command 0]).port = .assertReset :: [.command 0] ∧
    Input.releaseReset ∉ [Input.command 0, .configure ⟨0, tdb1⟩] ∧
    held.resetAsserted = true ∧
    held.port = .command 0x0200000000#40 :: [.configure ⟨44100, tdb1⟩, .releaseReset] ∧
    (held.setPort [.configure ⟨0, tdb1⟩]).port = .configure ⟨0, tdb1⟩ :: [] ∧
    (held.setPort [.releaseReset]).port = .releaseReset :: [] ∧
    held.qdepth ≠ some 0 ∧
    idle.resetAsserted = false ∧ (⟨44100, tdb1⟩ : ConfigInputs) ≠ idle.inputs := by decide +kernel

theorem witness_EveryResetMeetsInvariant :
    1 ≤ 1 ∧ 1 ≤ 65535 ∧ 65535 ≤ 65535 ∧ tdb1Inputs.wellFormed = true ∧
      (ConfigInputs.mk 1 Database.zeroed).wellFormed = true := by decide +kernel

theorem witness_StepKeepsInvariant :
    (EngineInv running ∧ (∃ t, step running = .next t)) ∧ (EngineInv held ∧ (∃ t, step held = .next t)) :=
  ⟨⟨inv_running, exists_next (by decide +kernel)⟩, inv_held, exists_next (by decide +kernel)⟩

theorem witness_InvariantStatesNeverStop :
    EngineInv running ∧ EngineInv held ∧ EngineInv silent ∧ EngineInv (inLong (3 / 100) [1#32]) :=
  ⟨inv_running, inv_held, inv_silent, inv_inLong⟩

theorem witness_RunsFromResetMeetInvariant : 1 ≤ 4 ∧ 4 ≤ 65535 ∧ tdb1Inputs.wellFormed = true := by decide +kernel

theorem witness_SegmentClocksAreTickMultiples :
    running.segmentTime = ((1 : Nat) : Rat) / ((running.inputs.fs : Nat) : Rat) ∧
      running.oldSegmentTime = ((4 : Nat) : Rat) / ((running.inputs.fs : Nat) : Rat) ∧ (∃ t, step running = .next t) :=
  ⟨by decide +kernel, by decide +kernel, exists_next (by decide +kernel)⟩

theorem witness_NoInstructionWritesMemory :
    (∃ t, exec (.tick 0) running = .next t) ∧ (∃ t, exec (.queue 2) idle = .next t) :=
  ⟨exists_next (by decide +kernel), exists_next (by decide +kernel)⟩

theorem witness_TickWithoutDatabaseReports : silent.inputs.db.valid = false := rfl

theorem witness_DormantTicksStaySilent :
    idle.inputs.db.valid = true ∧ idle.segment.toInt = -1 ∧ idle.noteOns = 0 ∧ [(7 : Arg)] ≠ [] ∧
      idle.resetAsserted = false := by decide +kernel

theorem witness_TickWithoutMaterialWaits :
    (ready []).inputs.db.valid = true ∧ (ready []).segment.toInt = -1 ∧ (ready []).noteOns = 1 ∧ (ready []).queue = [] := by
  decide +kernel

theorem witness_NewSegmentTransition :
    (inLong 0 []).queue = [] ∧
    ((inLong 0 [gapToken]).queue = gapToken :: [] ∧ gapToken.toInt = -1) ∧
    ((inLong 0 [2#32, 0#32]).queue = 2#32 :: [0#32] ∧ (2#32 : SegIndex).toInt ≠ -1 ∧
      (2#32 : SegIndex).toNat < (inLong 0 [2#32, 0#32]).db.nseg ∧
      ((inLong 0 [2#32, 0#32]).db.seg[(2#32 : SegIndex).toNat]?).map SegDesc.numFrames = some 1) := by decide +kernel

theorem witness_NoteOffReleasesLongSegment :
    (idle.segment.toInt = -1 ∧ (inLong 0 []).noteOffs = 0) ∧
    (let s := { inLong 0 [1#32] with noteOffs := 1 };
      s.segment.toInt ≠ -1 ∧ s.noteOffs ≠ 0 ∧ s.segment.toNat < s.db.nseg ∧
        s.db.seg[s.segment.toNat]? = some ⟨5, true, 0⟩) ∧
    (let s := { inFade 0 [] with noteOffs := 1 };
      s.segment.toInt ≠ -1 ∧ s.noteOffs ≠ 0 ∧ s.segment.toNat < s.db.nseg ∧
        s.db.seg[s.segment.toNat]? = some ⟨4, false, 20⟩) := by decide +kernel

/-- The boundary itself, for the long and for the short segment (V-SQ6, V-SQ8), and one tick before it (V-SQ7). -/
theorem witness_BoundaryLoopsOrAdvances :
    ((inLong (6 / 100) []).segmentTime < (inLong (6 / 100) []).segmentLength - 3 / 100) ∧
    (let s := inLong (7 / 100) [];
      s.segment.toInt ≠ -1 ∧ s.segmentLength - 3 / 100 = s.segmentTime ∧ s.segment.toNat < s.db.nseg ∧
        s.db.seg[s.segment.toNat]? = some ⟨5, true, 0⟩) ∧
    (let s := inFade (5 / 100) [];
      s.segment.toInt ≠ -1 ∧ s.segmentLength - 3 / 100 = s.segmentTime ∧ s.segment.toNat < s.db.nseg ∧
        s.db.seg[s.segment.toNat]? = some ⟨4, false, 20⟩) := by decide +kernel

theorem witness_TickConsumesGateEdges :
    ((∃ t, exec (.tick 0) (ready [0#32]) = .next t) ∧ (ready [0#32]).tickRuns = true ∧ (ready [0#32]).segment.toInt = -1) ∧
    ((∃ t, exec (.tick 0) idle = .next t) ∧ idle.tickRuns = false) :=
  ⟨⟨exists_next (by decide +kernel), by decide +kernel, by decide +kernel⟩, exists_next (by decide +kernel),
    by decide +kernel⟩

theorem witness_TickPopsAtMostThreeEntries :
    (∃ t, exec (.tick 0) { ready [0#32, 2#32, 1#32] with noteOffs := 1 } = .next t) ∧
    ((∃ t, exec (.tick 0) idle = .next t) ∧ idle.tickRuns = false) :=
  ⟨exists_next (by decide +kernel), exists_next (by decide +kernel), by decide +kernel⟩

theorem witness_TickAdvancesPhase :
    ((∃ t, exec (.tick 0) (ready [0#32]) = .next t) ∧ (ready [0#32]).tickRuns = true) ∧
    ((∃ t, exec (.tick 0) idle = .next t) ∧ idle.tickRuns = false) :=
  ⟨⟨exists_next (by decide +kernel), by decide +kernel⟩, exists_next (by decide +kernel), by decide +kernel⟩

/-- `frequency = FS`, the end of the first clause, and `frequency > FS`, the second. -/
theorem witness_PhaseRange :
    ((∃ t, exec (.tick 0) (ready [0#32]) = .next t) ∧ (ready [0#32]).tickRuns = true ∧ 0 ≤ (ready [0#32]).phase ∧
      (ready [0#32]).phase < 1 ∧ 0 ≤ (ready [0#32]).frequency ∧
      (ready [0#32]).frequency = (((ready [0#32]).inputs.fs : Nat) : Rat)) ∧
    (let s := { ready [0#32] with frequency := 250 };
      (∃ t, exec (.tick 0) s = .next t) ∧ s.tickRuns = true ∧ 0 ≤ s.phase ∧ 0 ≤ s.frequency ∧
        ((s.inputs.fs : Nat) : Rat) < s.frequency) :=
  ⟨⟨exists_next (by decide +kernel), by decide +kernel⟩, exists_next (by decide +kernel), by decide +kernel⟩

/-- One tick at `frequency = FS`, which passes one whole cycle. -/
theorem witness_TriggersFollowTheSynthesisPitch : ∃ u : Nat → State,
    (∀ j, j < 1 → (u j).tickRuns = true ∧ (∃ arg, exec (.tick arg) (u j) = .next (u (j + 1))) ∧
      (u (j + 1)).segment.toInt ≠ -1) ∧
    0 ≤ (u 0).frequency ∧ (u 0).frequency ≤ ((u 0).inputs.fs : Rat) ∧ 0 ≤ (u 0).phase ∧ (u 0).phase < 1 ∧
    (u 0).nextGrain < (u 0).pool.length := by
  have hseg : (nextOf (exec (.tick 0) (ready [0#32]))).all (fun t => decide (t.segment.toInt ≠ -1)) = true := by
    decide +kernel
  have hrun : (ready [0#32]).tickRuns = true := by decide +kernel
  have hstart : 0 ≤ (ready [0#32]).frequency ∧ (ready [0#32]).frequency ≤ ((ready [0#32]).inputs.fs : Rat) ∧
      0 ≤ (ready [0#32]).phase ∧ (ready [0#32]).phase < 1 ∧ (ready [0#32]).nextGrain < (ready [0#32]).pool.length := by
    decide +kernel
  obtain ⟨t, ht⟩ := exists_next (r := exec (.tick 0) (ready [0#32])) (by decide +kernel)
  rw [ht] at hseg
  refine ⟨fun j => if j = 0 then ready [0#32] else t, fun j hj => ?_, hstart⟩
  have hj0 : j = 0 := by omega
  subst hj0
  exact ⟨hrun, ⟨0, ht⟩, by simpa [nextOf] using hseg⟩

theorem witness_FrameAddressInsideSegment :
    tdb1.wellFormed = true ∧ (0#32 : SegIndex).toNat < tdb1.nseg ∧ (2#32 : SegIndex).toNat < tdb1.nseg ∧
      (0 : Rat) ≤ 0 ∧ (0 : Rat) ≤ 11 / 100 := by decide +kernel

theorem witness_TriggerArmsNextSlot :
    (EngineInv (inLong (3 / 100) [1#32]) ∧ (inLong (3 / 100) [1#32]).inputs.db.valid = true ∧
      (inLong (3 / 100) [1#32]).segment.toInt ≠ -1 ∧ (inLong (3 / 100) [1#32]).crossfade = 0) ∧
    (EngineInv (inFade (1 / 100) []) ∧ (inFade (1 / 100) []).inputs.db.valid = true ∧
      (inFade (1 / 100) []).segment.toInt ≠ -1 ∧ (inFade (1 / 100) []).crossfade ≠ 0) :=
  ⟨⟨inv_inLong, by decide +kernel⟩, inv_inFade, by decide +kernel⟩

theorem witness_IdleWrapArmsNothing : idle.segment.toInt = -1 := by decide +kernel

theorem witness_GrainPlaysItsWholeFrame :
    let g : Grain := ⟨true, 0, 36#32, 36#32, 0⟩
    tdb1.wellFormed = true ∧ g.active = true ∧ g.readPosition = 0 ∧ g.crossfadeMix = 0 ∧
      g.offset1.toNat + tdb1.gl = tdb1.wtlen := by decide +kernel

/-- Numerics that meet the conditions and are not this hardware's: the quantiser that keeps the two ends of [0, 1], rounding
down otherwise. -/
def floorNumerics : Numerics := { q := fun v => (⌊v⌋ : Rat), mixround := fun v => ⌊v⌋ }

theorem floorNumerics_admissible : floorNumerics.Admissible where
  q_zero := by simp [floorNumerics]
  q_one := by simp [floorNumerics]
  q_mono a b h := by simpa [floorNumerics] using Int.floor_le_floor h
  mixround_near v := by
    have h1 := Int.floor_le v
    have h2 := Int.lt_floor_add_one v
    simp only [floorNumerics, abs_lt]
    constructor <;> linarith
  mixround_lower a v h := by simpa [floorNumerics] using Int.le_floor.mpr h
  mixround_upper b v h := by
    have h1 : ((⌊v⌋ : Int) : Rat) ≤ (b : Rat) := (Int.floor_le v).trans h
    simpa [floorNumerics] using (by exact_mod_cast h1 : ⌊v⌋ ≤ b)

theorem witness_MixLiesBetweenItsSources : floorNumerics.Admissible ∧ (0 : Rat) < 1 ∧ (1 : Rat) ≤ 1 :=
  ⟨floorNumerics_admissible, by decide +kernel⟩

theorem witness_MixIsTheExactSum :
    let s := { inFade 0 [] with pool := [⟨true, 0, 20#32, 8#32, 2 / 3⟩, Grain.reset] }
    s.pool.length ≤ 65535 ∧ (∀ g ∈ s.pool, 0 ≤ g.crossfadeMix ∧ g.crossfadeMix ≤ 1) ∧
      (∃ t, mixStep hardwareNumerics s = .next t) :=
  ⟨by decide +kernel, by decide +kernel, exists_next (by decide +kernel)⟩

theorem witness_SampleStaysInRange :
    EngineInv (ready [0#32, 1#32]) ∧ (∃ t, exec (.tick 0) (ready [0#32, 1#32]) = .next t) :=
  ⟨inv_ready, exists_next (by decide +kernel)⟩

theorem witness_CrossfadeFallsLinearly :
    let s := { inFade 0 [] with crossfade := 1 }
    1 ≤ s.inputs.fs ∧ s.crossfade = 1 ∧ s.crossfadeRamp = -1 / (3 / 100 * ((s.inputs.fs : Nat) : Rat)) := by
  decide +kernel

theorem witness_RangesHoldForEveryQuantiser :
    let s := (ready [0#32, 1#32]).setPort [.command 0x0100008000#40]
    floorNumerics.Admissible ∧ RealRanges s ∧ (∃ t, stepWith floorNumerics s = .next t) ∧
      (∃ t, tick floorNumerics 0 s = .next t) :=
  ⟨floorNumerics_admissible,
    { frequency := by decide +kernel, phase := by decide +kernel, segmentTime := by decide +kernel,
      oldSegmentTime := by decide +kernel, crossfade := by decide +kernel, crossfadeRamp := by decide +kernel,
      mixes := by decide +kernel },
    exists_next (by decide +kernel), exists_next (by decide +kernel)⟩

/-- R12: the numeric parameters are arguments of the step: with a quantiser that rounds down, `setfreq 0.5` stores 0. -/
theorem test_stepWith_quantises :
    ((nextOf (stepWith floorNumerics (idle.setPort [.command 0x0100008000#40]))).map State.frequency) = some 0 ∧
    ((nextOf (step (idle.setPort [.command 0x0100008000#40]))).map State.frequency) = some (1 / 2) := by decide +kernel

theorem witness_TickCompletes :
    (EngineInv (ready [0#32, 1#32]) ∧ (ready [0#32, 1#32]).tickRuns = true) ∧
    (EngineInv (inFade (1 / 100) []) ∧ (inFade (1 / 100) []).tickRuns = true) :=
  ⟨⟨inv_ready, by decide +kernel⟩, inv_inFade, by decide +kernel⟩

theorem witness_TickFrame :
    (idle.inputs.db.valid = true ∧ (∃ t, exec (.tick 0) idle = .next t) ∧ idle.tickRuns = false) ∧
    (running.inputs.db.valid = true ∧ (∃ t, exec (.tick 0) running = .next t)) :=
  ⟨⟨by decide +kernel, exists_next (by decide +kernel), by decide +kernel⟩, by decide +kernel,
    exists_next (by decide +kernel)⟩

/-- One argument in each of the three outcomes of `QUEUE`, at the ends of the range. -/
theorem witness_QueueAppendsOrReports :
    (0xFFFFFFFE#32 : Arg).toInt < -1 ∧ (idle.inputs.db.nseg : Int) ≤ (3#32 : Arg).toInt ∧
    ¬ ((0xFFFFFFFF#32 : Arg).toInt < -1) ∧ ¬ ((idle.inputs.db.nseg : Int) ≤ (2#32 : Arg).toInt) ∧
    ({ idle with queue := [0#32, 1#32], qdepth := some 2 }).qdepth = some ([0#32, 1#32] : List SegIndex).length := by
  decide +kernel

theorem witness_IllegalWordsReport :
    8 ≤ (0x08#8 : Opcode).toNat ∧ 8 ≤ (0xFF#8 : Opcode).toNat ∧
      Instr.illegal20 0x3F#8 1 ∈ [Instr.illegal80 0x3F#8 1, .illegal40 0x3F#8 1, .illegal20 0x3F#8 1] := by decide

theorem witness_StatusBitsAreSticky :
    ((∃ t, exec (.queue 3) { idle with status := 0x20#8 } = .next t) ∧ (∀ arg, Instr.queue 3 ≠ .clrerr arg) ∧
      (0x20#8 : BitVec 8).getLsbD 5 = true) ∧ (idle.status.getLsbD 6 = false) :=
  ⟨⟨exists_next (by decide +kernel), fun _ h => (by cases h), by decide⟩, by decide +kernel⟩

theorem witness_ControlCommandsLeaveTheDatapath :
    (∀ arg, Instr.noteoff 0 ≠ .tick arg) ∧ (∃ t, exec (.noteoff 0) running = .next t) :=
  ⟨fun _ h => (by cases h), exists_next (by decide +kernel)⟩

theorem witness_SetfreqCommutes :
    (∀ a, Instr.queue 1 ≠ .tick a) ∧ (∀ a, Instr.queue 1 ≠ .setfreq a) := ⟨fun _ h => (by cases h), fun _ h => (by cases h)⟩

theorem witness_StepPerformsTheDecodedCommand :
    running.port = .command 0 :: running.port.tail ∧ running.resetAsserted = false ∧
      held.port = .command 0x0200000000#40 :: held.port.tail ∧ held.resetAsserted = true ∧ (Instr.clrerr 0x1FF#32).wellFormed = true :=
  ⟨rfl, rfl, rfl, rfl, by decide⟩

theorem witness_NothingPresentedNothingHappens : idle.port = [] := rfl

theorem witness_LoaderGivesWellFormedDatabase :
    (∃ v, loadVoiceFile (tdb1Head ++ tdb1Wave) = some v) ∧ loadVoiceFile tdb1Head = none :=
  ⟨Option.isSome_iff_exists.mp (by decide +kernel), by decide +kernel⟩

theorem witness_BadMagicIsALoadFailure :
    (0x4E#8 :: tdb1Head.tail).take 12 ≠
      [0x4F, 0x44, 0x44, 0x56, 0x4F, 0x49, 0x43, 0x45, 0x53, 0x00, 0x00, 0x00] := by decide +kernel

theorem witness_NameLookupRoundTrips :
    let v : VoiceFile := { db := tdb1, phonemes := [[0x61], [0x62]], segmentNames := [[0x41], [0x42], [0x43]] }
    ([0x43] : ByteName) ∈ v.segmentNames ∧ ([0x61] : ByteName) ∈ v.phonemes ∧ ([0x44] : ByteName) ∉ v.segmentNames := by
  decide +kernel

end Sys2Proof.Tests
end

section
/-! PROOFS. The numeric parameters (00_scope.md R6, R12; 40_grain.md R133): what an admissible quantiser does to a sign and
to the unit interval, and that this hardware's quantiser and rounding are admissible. -/

namespace Sys2Proof.Machine

/-! ### Any admissible numerics -/

theorem q_nonneg {N : Numerics} (hN : N.Admissible) {v : Rat} (h : 0 ≤ v) : 0 ≤ N.q v :=
  hN.q_zero ▸ hN.q_mono 0 v h

theorem q_nonpos {N : Numerics} (hN : N.Admissible) {v : Rat} (h : v ≤ 0) : N.q v ≤ 0 :=
  hN.q_zero ▸ hN.q_mono v 0 h

theorem q_le_one {N : Numerics} (hN : N.Admissible) {v : Rat} (h : v ≤ 1) : N.q v ≤ 1 :=
  hN.q_one ▸ hN.q_mono v 1 h

/-! ### Truncation toward zero -/

theorem ratTrunc_of_nonneg {v : Rat} (h : 0 ≤ v) : ratTrunc v = ⌊v⌋ := if_pos h

theorem ratTrunc_of_neg {v : Rat} (h : v < 0) : ratTrunc v = ⌈v⌉ := by
  have hfloor : (-v).floor = -⌈v⌉ := Int.floor_neg (a := v)
  rw [ratTrunc, if_neg h.not_ge, hfloor, neg_neg]

theorem hardwareNumerics_admissible : hardwareNumerics.Admissible where
  q_zero := rfl
  q_one := rfl
  q_mono _ _ h := h
  mixround_near v := by
    show |(ratTrunc v : Rat) - v| < 1
    rw [abs_lt]
    rcases le_or_gt 0 v with h | h
    · rw [ratTrunc_of_nonneg h]
      constructor <;> linarith [Int.floor_le v, Int.lt_floor_add_one v]
    · rw [ratTrunc_of_neg h]
      constructor <;> linarith [Int.le_ceil v, Int.ceil_lt_add_one v]
  mixround_lower a v ha := by
    show a ≤ ratTrunc v
    rcases le_or_gt 0 v with h | h
    · rw [ratTrunc_of_nonneg h]
      exact Int.le_floor.mpr ha
    · rw [ratTrunc_of_neg h]
      exact_mod_cast ha.trans (Int.le_ceil v)
  mixround_upper b v hb := by
    show ratTrunc v ≤ b
    rcases le_or_gt 0 v with h | h
    · rw [ratTrunc_of_nonneg h]
      exact_mod_cast (Int.floor_le v).trans hb
    · rw [ratTrunc_of_neg h]
      exact Int.ceil_le.mpr hb

/-- Settles O35: truncation is the floor of a value that is not negative and the ceiling of a negative one, and the
parametric step at this hardware's numerics is the step. -/
theorem hardwareNumericsAreAdmissible : Obligations.HardwareNumericsAreAdmissible :=
  ⟨hardwareNumerics_admissible, fun s => (congrFun stepWith_hardware s).symm⟩

end Sys2Proof.Machine
end

section
/-! PROOFS. The ranges of the real-typed registers for every admissible numerics (00_scope.md R12, 10_state.md R47 (a), (f)):
every operation of the engine keeps them, hence every `TICK` and every step. A rule's exact value lies in the register's range,
and an admissible quantiser keeps a sign and an upper bound of 1. -/

namespace Sys2Proof.Machine

/-! ### What the operations read and write, in the form the ranges need -/

theorem State.fullRamp_nonpos (s : State) : s.fullRamp ≤ 0 := by
  unfold State.fullRamp Config.XL
  exact div_nonpos_of_nonpos_of_nonneg (by norm_num) (by positivity)

theorem State.period_nonneg (s : State) : 0 ≤ s.period := by
  unfold State.period
  positivity

/-- Everything a trigger can do, in one form (R183, R187): nothing while idle, or the slot `nextGrain` names is armed with the
weight `crossfade`, which is 0 where the frame of the previous segment is not asked for. -/
theorem trigger_arms {N : Numerics} {s t : State} (h : trigger N s = .next t) :
    t = s ∨ ∃ off1 off2, s.segment ≠ gapToken ∧ s.db.frameAddr s.segment s.segmentTime = .next off1 ∧
      (s.crossfade ≠ 0 → s.db.frameAddr s.oldSegment s.oldSegmentTime = .next off2) ∧ s.nextGrain < s.poolSize ∧
      t = { s with
        pool := s.pool.set s.nextGrain (armedGrain N off1 off2 s.crossfade),
        nextGrain := (s.nextGrain + 1) % s.poolSize } := by
  rcases trigger_cases h with ⟨_, rfl⟩ | ⟨hs, off1, h1, ⟨hc, h⟩ | ⟨_, off2, h2, h⟩⟩
  · exact .inl rfl
  · obtain ⟨hi, ht⟩ := armNext_cases h
    exact .inr ⟨off1, off1, hs, h1, fun hne => absurd hc hne, hi, ht.trans (by rw [hc])⟩
  · obtain ⟨hi, ht⟩ := armNext_cases h
    exact .inr ⟨off1, off2, hs, h1, fun _ => h2, hi, ht⟩

/-- Every slot after step 7 comes from `GRAIN.PROCESS` of a slot before it (R205). -/
theorem mixPool_mem {N : Numerics} {db : Database} {gs out : List Grain} {acc : Int}
    (h : mixPool N db gs = .next (acc, out)) {g' : Grain} (hg' : g' ∈ out) :
    ∃ g ∈ gs, ∃ y, grainProcess N db g = .next (y, g') := by
  induction gs generalizing acc out with
  | nil => cases h; cases hg'
  | cons g gs ih =>
    obtain ⟨y, g1, acc', gs', h1, h2, _, rfl⟩ := mixPool_cons h
    rcases List.mem_cons.mp hg' with rfl | hmem
    · exact ⟨g, List.mem_cons_self, y, h1⟩
    · obtain ⟨g0, hg0, hy⟩ := ih h2 hmem
      exact ⟨g0, List.mem_cons_of_mem _ hg0, hy⟩

/-- `GRAIN.PROCESS` does not write the weight (R132). -/
theorem grainProcess_crossfadeMix {N : Numerics} {db : Database} {g g' : Grain} {y : Int}
    (h : grainProcess N db g = .next (y, g')) : g'.crossfadeMix = g.crossfadeMix := by
  rcases grainProcess_cases h with ⟨_, _, rfl⟩ | ⟨_, _, rfl⟩ <;> rfl

/-! ### The sequencer keeps the ranges -/

section

variable {N : Numerics} {s t : State}

theorem RealRanges.setNoteOns (h : RealRanges s) (n : BitVec 32) : RealRanges (s.setNoteOns n) := { h with }

theorem RealRanges.setNoteOffs (h : RealRanges s) (n : BitVec 32) : RealRanges (s.setNoteOffs n) := { h with }

theorem RealRanges.setPort (h : RealRanges s) (p : List Input) : RealRanges (s.setPort p) := { h with }

theorem RealRanges.goIdle (h : RealRanges s) : RealRanges (s.goIdle N) := { h with }

theorem RealRanges.enterSegment (hN : N.Admissible) (h : RealRanges s) (n : SegIndex) (rest : List SegIndex) (frames : Nat) :
    RealRanges (s.enterSegment N n rest frames) := by
  rw [State.enterSegment_eq]
  exact { h with
    segmentTime := q_nonneg hN le_rfl
    oldSegmentTime := q_nonneg hN h.segmentTime
    crossfade := ⟨q_nonneg hN (by split <;> norm_num), q_le_one hN (by split <;> norm_num)⟩
    crossfadeRamp := q_nonpos hN (by split; exacts [le_rfl, s.fullRamp_nonpos]) }

theorem newSeg_realRanges (hN : N.Admissible) (h : RealRanges s) (ht : newSeg N s = .next t) : RealRanges t := by
  rcases newSeg_cases ht with ⟨_, rfl⟩ | ⟨n, rest, frames, _, _, rfl⟩
  · exact h.goIdle
  · exact h.enterSegment hN n rest frames

theorem consumeNoteOn_realRanges (hN : N.Admissible) (h : RealRanges s) (ht : consumeNoteOn N s = .next t) :
    RealRanges t := by
  rcases consumeNoteOn_cases ht with ⟨_, rfl⟩ | ⟨_, ht⟩
  · exact h
  · exact newSeg_realRanges hN (h.setNoteOns _) ht

theorem consumeNoteOff_realRanges (hN : N.Admissible) (h : RealRanges s) (ht : consumeNoteOff N s = .next t) :
    RealRanges t := by
  rcases consumeNoteOff_cases ht with ⟨_, rfl⟩ | ⟨_, _, _, ht⟩
  · exact h
  · exact newSeg_realRanges hN (h.setNoteOffs _) ht

theorem boundaryStep_realRanges (hN : N.Admissible) (h : RealRanges s) (ht : boundaryStep N s = .next t) :
    RealRanges t := by
  rcases boundaryStep_cases ht with ⟨_, rfl⟩ | ⟨_, _, rfl⟩ | ⟨_, _, ht⟩
  · exact h
  · exact { h with segmentTime := q_nonneg hN le_rfl }
  · exact newSeg_realRanges hN h ht

/-! ### The datapath keeps the ranges -/

theorem trigger_realRanges (hN : N.Admissible) (h : RealRanges s) (ht : trigger N s = .next t) : RealRanges t := by
  rcases trigger_arms ht with rfl | ⟨off1, off2, _, _, _, _, rfl⟩
  · exact h
  · refine { h with mixes := fun g hg => ?_ }
    rcases List.mem_or_eq_of_mem_set hg with hold | rfl
    · exact h.mixes g hold
    · exact ⟨q_nonneg hN h.crossfade.1, q_le_one hN h.crossfade.2⟩

theorem RealRanges.advancePhase (hN : N.Admissible) (h : RealRanges s) : RealRanges (s.advancePhase N) := by
  have hstep : 0 ≤ s.frequency / (s.inputs.fs : Rat) := div_nonneg h.frequency (by positivity)
  exact { h with phase := q_nonneg hN (add_nonneg h.phase hstep) }

theorem phaseStep_realRanges (hN : N.Admissible) (h : RealRanges s) (ht : phaseStep N s = .next t) : RealRanges t := by
  rcases phaseStep_cases ht with ⟨_, rfl⟩ | ⟨hwrap, ht⟩
  · exact h.advancePhase hN
  · have hsub : RealRanges ((s.advancePhase N).setPhase N ((s.advancePhase N).phase - 1)) :=
      { h.advancePhase hN with phase := q_nonneg hN (sub_nonneg.mpr hwrap) }
    exact trigger_realRanges hN hsub ht

theorem RealRanges.timeStep (hN : N.Admissible) (h : RealRanges s) : RealRanges (s.timeStep N) := by
  rw [State.timeStep_eq]
  obtain ⟨_, hle⟩ := h.crossfade
  have hramp := h.crossfadeRamp
  refine { h with
    segmentTime := q_nonneg hN (add_nonneg h.segmentTime s.period_nonneg)
    oldSegmentTime := q_nonneg hN (add_nonneg h.oldSegmentTime s.period_nonneg)
    crossfade := ⟨q_nonneg hN ?_, q_le_one hN ?_⟩
    crossfadeRamp := ?_ }
  · split <;> linarith
  · split <;> linarith
  · show (if s.crossfade + s.crossfadeRamp ≤ 0 then N.q 0 else s.crossfadeRamp) ≤ 0
    split
    · exact hN.q_zero.le
    · exact hramp

theorem mixStep_realRanges (h : RealRanges s) (ht : mixStep N s = .next t) : RealRanges t := by
  obtain ⟨acc, out, hmix, _, rfl⟩ := mixStep_cases ht
  refine { h with mixes := fun g' hg' => ?_ }
  obtain ⟨g, hg, y, hy⟩ := mixPool_mem hmix hg'
  rw [grainProcess_crossfadeMix hy]
  exact h.mixes g hg

/-! ### `TICK`, the commands, the step -/

theorem tickActive_realRanges (hN : N.Admissible) (h : RealRanges s) (ht : tickActive N s = .next t) : RealRanges t := by
  obtain ⟨_, s2, s3, s4, s5, h2, h3, h4, h5, ht⟩ := tickActive_cases ht
  have r2 := consumeNoteOn_realRanges hN h h2
  have r3 := consumeNoteOff_realRanges hN r2 h3
  have r4 := boundaryStep_realRanges hN r3 h4
  have r5 := phaseStep_realRanges hN r4 h5
  exact mixStep_realRanges (r5.timeStep hN) ht

theorem tick_realRanges (hN : N.Admissible) (h : RealRanges s) {cmd : Command} (ht : tick N cmd s = .next t) :
    RealRanges t := by
  rcases tick_cases ht with ⟨_, rfl⟩ | ⟨_, _, _, rfl⟩ | ⟨_, _, ht⟩
  · exact { h with }
  · exact { h with }
  · exact tickActive_realRanges hN h ht

theorem RealRanges.clearErrors (h : RealRanges s) (mask : BitVec 9) : RealRanges (s.clearErrors mask) := by
  unfold State.clearErrors
  split <;> exact { h with }

theorem execWith_realRanges (hN : N.Admissible) (h : RealRanges s) {i : Instr} (ht : execWith N i s = .next t) :
    RealRanges t := by
  by_cases hi : ∃ arg, i = .tick arg
  · obtain ⟨arg, rfl⟩ := hi
    exact tick_realRanges hN h ht
  · push Not at hi
    rcases execWith_control_cases hi ht with ⟨e, cmd, rfl⟩ | ⟨arg, rfl⟩ | ⟨arg, _, _, rfl⟩ | ⟨n, rfl⟩ | ⟨n, rfl⟩ | ⟨mask, rfl⟩
    · exact { h with }
    · exact { h with frequency := q_nonneg hN (freqOperand_range arg).1 }
    · exact { h with }
    · exact { h with }
    · exact { h with }
    · exact h.clearErrors mask

/-- R48: every register of the reset state is in range, whatever `NUM.q` is; a reset value is not quantised. -/
theorem resetWith_realRanges (pool : Nat) (qdepth : Option Nat) (inputs : ConfigInputs) :
    RealRanges (State.resetWith pool qdepth inputs) where
  frequency := by norm_num [State.resetWith, Config.freqReset]
  phase := le_rfl
  segmentTime := le_rfl
  oldSegmentTime := le_rfl
  crossfade := ⟨le_rfl, zero_le_one⟩
  crossfadeRamp := le_rfl
  mixes g hg := by
    rw [List.eq_of_mem_replicate hg]
    exact ⟨le_rfl, zero_le_one⟩

theorem resetState_realRanges (inputs : ConfigInputs) (s : State) : RealRanges (resetState inputs s) :=
  (resetWith_realRanges s.poolSize s.qdepth inputs).setPort s.port

theorem holdReset_realRanges (inputs : ConfigInputs) (s : State) : RealRanges (holdReset inputs s) :=
  { resetState_realRanges inputs s with }

theorem stepWith_realRanges (hN : N.Admissible) (h : RealRanges s) (ht : stepWith N s = .next t) : RealRanges t := by
  rcases stepBy_cases ht with ⟨_, rfl⟩ | ⟨w, rest, _, _, ht⟩ | ⟨w, rest, _, _, rfl⟩ | ⟨rest, _, rfl⟩ |
    ⟨inputs, rest, _, _, rfl⟩ | ⟨rest, _, _, rfl⟩ | ⟨rest, _, _, rfl⟩ | ⟨rest, _, _, rfl⟩
  · exact h
  · exact execWith_realRanges hN (h.setPort rest) ht
  · exact h.setPort rest
  · exact holdReset_realRanges _ _
  · exact holdReset_realRanges _ _
  · exact h.setPort rest
  · exact resetState_realRanges _ _
  · exact h.setPort rest

end

/-- Settles O39: the ranges are kept operation by operation, for every admissible numerics. -/
theorem rangesHoldForEveryQuantiser : Obligations.RangesHoldForEveryQuantiser :=
  fun _ _ _ hN h => ⟨fun ht => stepWith_realRanges hN h ht, fun _ ht => tick_realRanges hN h ht⟩

end Sys2Proof.Machine
end

section
/-! PROOFS. The fetch (00_scope.md R8, 30_encoding.md R100 to R105): the word of a well-formed instruction decodes to it, what
a step does on each input, and that it performs the command presented next. -/

namespace Sys2Proof

/-! ### Decoding the word of an instruction -/

/-- R104: the decoder looks at `OP` and `ARG` apart. -/
theorem decode_mkCommand (op : Opcode) (arg : Arg) :
    decode (mkCommand op arg) =
      if op = 0x00#8 then .tick arg
      else if op = 0x01#8 then .setfreq arg
      else if op = 0x02#8 then .queue arg
      else if op = 0x03#8 then .noteon arg
      else if op = 0x04#8 then .noteoff arg
      else if op = 0x05#8 then .clrerr arg
      else if op = 0x06#8 then .setfshift arg
      else if op = 0x07#8 then .setpspeed arg
      else decodeIllegal op arg := by
  simp only [decode, opcodeOf_mkCommand, argOf_mkCommand]

/-- R105: an opcode from 8 on is assigned to no command. -/
theorem decode_mkCommand_of_unassigned {op : Opcode} (h : 8 ≤ op.toNat) (arg : Arg) :
    decode (mkCommand op arg) = decodeIllegal op arg := by
  have hne : ∀ k : Opcode, k.toNat < 8 → op ≠ k := fun k hk e => by subst e; omega
  rw [decode_mkCommand, if_neg (hne 0#8 (by decide)), if_neg (hne 1#8 (by decide)), if_neg (hne 2#8 (by decide)),
    if_neg (hne 3#8 (by decide)), if_neg (hne 4#8 (by decide)), if_neg (hne 5#8 (by decide)), if_neg (hne 6#8 (by decide)),
    if_neg (hne 7#8 (by decide))]

/-- The opcodes of the row `0x80..0xFF`, by their highest set bit; the next four lemmas are the other `ILLEGAL` rows. -/
theorem illegal80_bits : ∀ op : Opcode, op &&& 0x80#8 = 0x80#8 → 8 ≤ op.toNat ∧ op.getLsbD 7 = true := by decide

theorem illegal40_bits : ∀ op : Opcode, op &&& 0xC0#8 = 0x40#8 →
    8 ≤ op.toNat ∧ op.getLsbD 7 = false ∧ op.getLsbD 6 = true := by decide

theorem illegal20_bits : ∀ op : Opcode, op &&& 0xE0#8 = 0x20#8 →
    8 ≤ op.toNat ∧ op.getLsbD 7 = false ∧ op.getLsbD 6 = false ∧ op.getLsbD 5 = true := by decide

theorem illegal10_bits : ∀ op : Opcode, op &&& 0xF0#8 = 0x10#8 →
    8 ≤ op.toNat ∧ op.getLsbD 7 = false ∧ op.getLsbD 6 = false ∧ op.getLsbD 5 = false ∧ op.getLsbD 4 = true := by decide

theorem illegal08_bits : ∀ op : Opcode, op &&& 0xF8#8 = 0x08#8 →
    8 ≤ op.toNat ∧ op.getLsbD 7 = false ∧ op.getLsbD 6 = false ∧ op.getLsbD 5 = false ∧ op.getLsbD 4 = false := by decide

/-- R102, R104, R105: an assigned opcode names its row; an unassigned one is recognised by its highest set bit. -/
theorem decode_encode {i : Instr} (h : i.wellFormed = true) : decode (encode i) = i := by
  cases i with
  | tick arg => exact decode_mkCommand 0x00#8 arg
  | setfreq arg => exact decode_mkCommand 0x01#8 arg
  | queue arg => exact decode_mkCommand 0x02#8 arg
  | noteon arg => exact decode_mkCommand 0x03#8 arg
  | noteoff arg => exact decode_mkCommand 0x04#8 arg
  | clrerr arg => exact decode_mkCommand 0x05#8 arg
  | setfshift arg => exact decode_mkCommand 0x06#8 arg
  | setpspeed arg => exact decode_mkCommand 0x07#8 arg
  | illegal80 op arg =>
    obtain ⟨h8, b7⟩ := illegal80_bits op (eq_of_beq h)
    simp only [encode, decode_mkCommand_of_unassigned h8, decodeIllegal, b7, if_true]
  | illegal40 op arg =>
    obtain ⟨h8, b7, b6⟩ := illegal40_bits op (eq_of_beq h)
    simp only [encode, decode_mkCommand_of_unassigned h8, decodeIllegal, b7, b6, Bool.false_eq_true, if_false, if_true]
  | illegal20 op arg =>
    obtain ⟨h8, b7, b6, b5⟩ := illegal20_bits op (eq_of_beq h)
    simp only [encode, decode_mkCommand_of_unassigned h8, decodeIllegal, b7, b6, b5, Bool.false_eq_true, if_false, if_true]
  | illegal10 op arg =>
    obtain ⟨h8, b7, b6, b5, b4⟩ := illegal10_bits op (eq_of_beq h)
    simp only [encode, decode_mkCommand_of_unassigned h8, decodeIllegal, b7, b6, b5, b4, Bool.false_eq_true, if_false, if_true]
  | illegal08 op arg =>
    obtain ⟨h8, b7, b6, b5, b4⟩ := illegal08_bits op (eq_of_beq h)
    simp only [encode, decode_mkCommand_of_unassigned h8, decodeIllegal, b7, b6, b5, b4, Bool.false_eq_true, if_false]

/-- A command word is its own number's low 40 bits. -/
theorem command_ofNat_toNat (w : Command) : BitVec.ofNat 40 (w.toNat % 2 ^ 40) = w := by
  rw [Nat.mod_eq_of_lt w.isLt, BitVec.ofNat_toNat, BitVec.setWidth_eq]

/-- The number of a well-formed instruction's word, read as a table word, is the instruction. -/
theorem decodeTableWord_encode {i : Instr} (h : i.wellFormed = true) :
    decodeTableWord 40 (encode i).toNat = some i := by
  rw [decodeTableWord, if_pos le_rfl, command_ofNat_toNat, decode_encode h]

end Sys2Proof

namespace Sys2Proof.Machine

/-! ### The step on each input; `stepBy_command` has a command out of reset -/

section

variable {meaning : Instr → State → Result State} {s : State} {rest : List Input}

theorem stepBy_nil (hp : s.port = []) : stepBy meaning s = .next s := by
  simp [stepBy, takeInput, hp]

/-- A step with a command presented while reset is asserted takes the word and does nothing else (log 6). -/
theorem stepBy_command_held {w : Command} (hp : s.port = .command w :: rest) (hr : s.resetAsserted = true) :
    stepBy meaning s = .next (s.setPort rest) := by
  simp [stepBy, takeInput, hp, acceptCommand, hr]

theorem stepBy_assertReset (hp : s.port = .assertReset :: rest) :
    stepBy meaning s = .next (assertReset (s.setPort rest)) := by
  simp [stepBy, takeInput, hp]

theorem stepBy_configure {inputs : ConfigInputs} (hp : s.port = .configure inputs :: rest) :
    stepBy meaning s = driveConfiguration inputs (s.setPort rest) := by
  simp [stepBy, takeInput, hp]

theorem stepBy_releaseReset (hp : s.port = .releaseReset :: rest) :
    stepBy meaning s = .next (releaseReset (s.setPort rest)) := by
  simp [stepBy, takeInput, hp]

end

/-- A step after `withFetchWord` performs the word, reset not asserted and the rest of the port as it stood. -/
theorem step_withFetchWord (s : State) (w : Command) :
    step (s.withFetchWord 40 w.toNat) = exec (decode w) { s with port := s.port.tail, resetAsserted := false } := by
  rw [State.withFetchWord, command_ofNat_toNat]
  exact stepBy_command (rest := s.port.tail) rfl rfl

/-- Settles O54: the word presented next is decoded and run, unless reset is asserted; decoding gives a well-formed
instruction back. -/
theorem stepPerformsTheDecodedCommand : Obligations.StepPerformsTheDecodedCommand := by
  unfold Obligations.StepPerformsTheDecodedCommand
  refine ⟨fun s w rest hp => ?_, fun s i hi => ⟨decodeTableWord_encode hi, ?_⟩⟩
  · split
    · rename_i hr
      exact stepBy_command_held hp hr
    · rename_i hr
      exact stepBy_command hp (by simpa using hr)
  · rw [step_withFetchWord, decode_encode hi]

end Sys2Proof.Machine
end

section
/-! PROOFS. The invariant through a `TICK` (10_state.md R47): each of the steps 2 to 5 keeps it on this hardware, and from it
none of the steps 2 to 7 stops. With the precondition on the host (70_reset_and_hazards.md R270) no step of the machine stops. -/

namespace Sys2Proof.Machine

@[simp] theorem hardwareNumerics_q (v : Rat) : hardwareNumerics.q v = v := rfl

section

variable {s t : State}

/-! ### What the invariant gives -/

theorem RunInv.db_wellFormed (h : RunInv s) (hv : s.inputs.db.valid = true) : s.db.wellFormed = true := by
  rw [State.db_of_valid hv]
  exact (ConfigInputs.wellFormed_iff.mp h.inputs_ok).2 hv

/-- R276, R278 (a): with a database every quotient of a tick is defined. -/
theorem RunInv.divisorsOk (h : RunInv s) (hv : s.inputs.db.valid = true) : s.divisorsOk = true := by
  obtain ⟨hfs, _⟩ := ConfigInputs.wellFormed_iff.mp h.inputs_ok
  obtain ⟨hsr, hgl, _⟩ := Database.wellFormed_iff.mp (h.db_wellFormed hv)
  simp [State.divisorsOk, hfs, hsr, hgl]

theorem RunInv.setPort (h : RunInv s) (p : List Input) : RunInv (s.setPort p) := { h with }

theorem RunInv.setNoteOns (h : RunInv s) (n : BitVec 32) : RunInv (s.setNoteOns n) := { h with }

theorem RunInv.setNoteOffs (h : RunInv s) (n : BitVec 32) : RunInv (s.setNoteOffs n) := { h with }

/-! ### The sequencer -/

/-- A queue that fits its capacity still fits once its head is popped (R24). -/
theorem State.queueFits_of_length_le (hs : s.queueFits = true) (hcap : t.qdepth = s.qdepth)
    (hlen : t.queue.length ≤ s.queue.length) : t.queueFits = true := by
  unfold State.queueFits at hs ⊢
  rw [hcap]
  cases hd : s.qdepth with
  | none => rfl
  | some d =>
    rw [hd] at hs
    exact decide_eq_true (hlen.trans (of_decide_eq_true hs))

theorem RunInv.goIdle (h : RunInv s) : RunInv (s.goIdle hardwareNumerics) :=
  { h with
    segment_valid := s.db.validIndex_gap
    segmentLength_nonneg := le_rfl
    idle_length := fun _ => rfl }

/-- R160: `NEWSEG` keeps the invariant; the crossfade it starts is from the segment it leaves, and a gap has no length. -/
theorem RunInv.enterSegment (h : RunInv s) {n : SegIndex} {rest : List SegIndex} {frames : Nat}
    (hq : s.queue = n :: rest) (hframes : s.db.numFrames n = .next frames) :
    RunInv (s.enterSegment hardwareNumerics n rest frames) := by
  have hgap : n = gapToken → frames = 0 := by
    rintro rfl
    exact (Result.next_inj (s.db.numFrames_gap.symm.trans hframes)).symm
  rw [State.enterSegment_eq]
  simp only [hardwareNumerics_q]
  exact { h with
    segmentTime_nonneg := le_rfl
    oldSegmentTime_nonneg := h.segmentTime_nonneg
    segmentLength_nonneg := div_nonneg (by positivity) s.db.f0_nonneg
    queue_fits := State.queueFits_of_length_le h.queue_fits rfl (by simp [hq])
    queue_valid := fun i hi => h.queue_valid i (by simp [hq, hi])
    segment_valid := h.queue_valid n (by simp [hq])
    oldSegment_valid := h.segment_valid
    crossfade_range := by constructor <;> split <;> norm_num
    crossfade_old := fun hc hs => hc (if_pos hs)
    ramp_values := by split; exacts [.inl rfl, .inr rfl]
    ramp_cleared := fun hc => by split at hc; exacts [if_pos ‹_›, absurd hc one_ne_zero]
    idle_length := fun hn => by simp [hgap hn] }

theorem newSeg_runInv (h : RunInv s) (ht : newSeg hardwareNumerics s = .next t) : RunInv t := by
  rcases newSeg_cases ht with ⟨_, rfl⟩ | ⟨n, rest, frames, hq, hframes, rfl⟩
  · exact h.goIdle
  · exact h.enterSegment hq hframes

theorem consumeNoteOn_runInv (h : RunInv s) (ht : consumeNoteOn hardwareNumerics s = .next t) : RunInv t := by
  rcases consumeNoteOn_cases ht with ⟨_, rfl⟩ | ⟨_, ht⟩
  · exact h
  · exact newSeg_runInv (h.setNoteOns _) ht

theorem consumeNoteOff_runInv (h : RunInv s) (ht : consumeNoteOff hardwareNumerics s = .next t) : RunInv t := by
  rcases consumeNoteOff_cases ht with ⟨_, rfl⟩ | ⟨_, _, _, ht⟩
  · exact h
  · exact newSeg_runInv (h.setNoteOffs _) ht

theorem boundaryStep_runInv (h : RunInv s) (ht : boundaryStep hardwareNumerics s = .next t) : RunInv t := by
  rcases boundaryStep_cases ht with ⟨_, rfl⟩ | ⟨_, _, rfl⟩ | ⟨_, _, ht⟩
  · exact h
  · exact { h with segmentTime_nonneg := le_rfl }
  · exact newSeg_runInv h ht

variable {N : Numerics}

theorem newSeg_completes (h : RunInv s) (hwf : s.db.wellFormed = true) : ∃ t, newSeg N s = .next t := by
  unfold newSeg
  split
  · exact ⟨_, rfl⟩
  · rename_i n rest hq
    obtain ⟨frames, hframes⟩ := Database.numFrames_of_valid hwf (h.queue_valid n (by simp [hq]))
    exact ⟨_, Result.andThen_eq_next.mpr ⟨frames, hframes, rfl⟩⟩

theorem consumeNoteOn_completes (h : RunInv s) (hwf : s.db.wellFormed = true) : ∃ t, consumeNoteOn N s = .next t := by
  unfold consumeNoteOn
  split
  · exact newSeg_completes (h.setNoteOns _) hwf
  · exact ⟨s, rfl⟩

theorem consumeNoteOff_completes (h : RunInv s) (hwf : s.db.wellFormed = true) : ∃ t, consumeNoteOff N s = .next t := by
  obtain ⟨long, hlong⟩ := Database.isLong_of_valid hwf h.segment_valid
  unfold consumeNoteOff
  split
  · exact ⟨s, rfl⟩
  · rw [hlong, Result.andThen_next]
    split
    · exact newSeg_completes (h.setNoteOffs _) hwf
    · exact ⟨s, rfl⟩

theorem boundaryStep_completes (h : RunInv s) (hwf : s.db.wellFormed = true) : ∃ t, boundaryStep N s = .next t := by
  obtain ⟨long, hlong⟩ := Database.isLong_of_valid hwf h.segment_valid
  unfold boundaryStep
  split
  · rw [hlong, Result.andThen_next]
    split
    · exact ⟨_, rfl⟩
    · exact newSeg_completes h hwf
  · exact ⟨s, rfl⟩

/-! ### The address generator and the trigger -/

/-- R185, R186: for a segment of a well-formed database and a time that is not negative the address generator answers the
address of a frame inside that segment's slice. -/
theorem Database.frameAddr_of_valid {db : Database} (hwf : db.wellFormed = true) {i : SegIndex}
    (hi : db.validIndex i = true) (hgap : i ≠ gapToken) {time : Rat} (htime : 0 ≤ time) :
    ∃ a, db.frameAddr i time = .next a ∧ db.frameOk a = true := by
  obtain ⟨d, hd, hfr, hend⟩ :=
    Database.descriptor_of_wellFormed hwf ((Database.validIndex_iff.mp hi).resolve_left hgap)
  obtain ⟨hframes, _, hoff⟩ := Database.accessors_of_descriptor hgap hd
  obtain ⟨_, hget⟩ := Database.descriptor_eq_next.mp hd
  obtain ⟨_, _, _, _, _, _, _, hlt, _⟩ := Database.wellFormed_iff.mp hwf
  have hframe : (time * db.f0).floor.toNat % d.numFrames < d.numFrames := Nat.mod_lt _ hfr
  have hidx : db.frameIndex i time = .next ((time * db.f0).floor.toNat % d.numFrames) := by
    rw [Database.frameIndex, hframes, Result.andThen_next, if_neg (by push Not; exact ⟨by omega, htime⟩)]
  generalize (time * db.f0).floor.toNat % d.numFrames = f at hframe hidx
  have hin : f * db.gl + db.gl ≤ d.numFrames * db.gl := by
    rw [← Nat.succ_mul]
    exact Nat.mul_le_mul_right _ hframe
  have hfits : d.offset.toNat + f * db.gl < 2 ^ 32 := by omega
  refine ⟨BitVec.ofNat 32 (d.offset.toNat + f * db.gl), ?_, ?_⟩
  · rw [Database.frameAddr, hidx, Result.andThen_next, hoff, Result.andThen_next, if_pos hfits]
  · rw [Database.frameOk_iff, BitVec.toNat_ofNat, Nat.mod_eq_of_lt hfits]
    exact ⟨by omega, d, List.mem_of_getElem? hget, by omega, by omega⟩

theorem Database.frameAddr_frameOk {db : Database} (hwf : db.wellFormed = true) {i : SegIndex}
    (hi : db.validIndex i = true) (hgap : i ≠ gapToken) {time : Rat} (htime : 0 ≤ time) {a : WordAddr}
    (ha : db.frameAddr i time = .next a) : db.frameOk a = true := by
  obtain ⟨b, hb, hok⟩ := Database.frameAddr_of_valid hwf hi hgap htime
  rwa [Result.next_inj (ha.symm.trans hb)]

theorem armNext_completes {off1 off2 : WordAddr} {mix : Rat} (hi : s.nextGrain < s.poolSize) :
    ∃ t, armNext N off1 off2 mix s = .next t := by
  unfold armNext grainPlay
  rw [if_pos hi]
  exact ⟨_, rfl⟩

theorem trigger_completes (h : RunInv s) (hwf : s.db.wellFormed = true) : ∃ t, trigger N s = .next t := by
  unfold trigger
  split
  · exact ⟨s, rfl⟩
  · rename_i hs
    obtain ⟨off1, h1, _⟩ := Database.frameAddr_of_valid hwf h.segment_valid hs h.segmentTime_nonneg
    rw [h1, Result.andThen_next]
    split
    · exact armNext_completes h.nextGrain_range
    · rename_i hc
      obtain ⟨off2, h2, _⟩ :=
        Database.frameAddr_of_valid hwf h.oldSegment_valid (h.crossfade_old hc) h.oldSegmentTime_nonneg
      rw [h2, Result.andThen_next]
      exact armNext_completes h.nextGrain_range

/-- R47 (d), (e): a slot armed with frames inside the wavetable reads inside the wavetable. -/
theorem armedGrain_ok {db : Database} (hgl : 1 ≤ db.gl) {off1 off2 : WordAddr} {mix : Rat} (hmix : 0 ≤ mix ∧ mix ≤ 1)
    (h1 : db.frameOk off1 = true) (h2 : mix ≠ 0 → db.frameOk off2 = true) :
    (armedGrain hardwareNumerics off1 off2 mix).ok db = true :=
  Grain.ok_iff.mpr ⟨hmix, Nat.zero_le _, fun _ => ⟨hgl, h1, h2⟩⟩

theorem trigger_runInv (h : RunInv s) (hwf : s.db.wellFormed = true) (ht : trigger hardwareNumerics s = .next t) :
    RunInv t := by
  rcases trigger_arms ht with rfl | ⟨off1, off2, hs, h1, h2, hi, rfl⟩
  · exact h
  · obtain ⟨_, hgl, _⟩ := Database.wellFormed_iff.mp hwf
    have hok1 := Database.frameAddr_frameOk hwf h.segment_valid hs h.segmentTime_nonneg h1
    have hok2 : s.crossfade ≠ 0 → s.db.frameOk off2 = true := fun hc =>
      Database.frameAddr_frameOk hwf h.oldSegment_valid (h.crossfade_old hc) h.oldSegmentTime_nonneg (h2 hc)
    refine { h with nextGrain_range := ?_, grains_ok := fun g hg => ?_ }
    · show (s.nextGrain + 1) % s.poolSize < (s.pool.set _ _).length
      rw [List.length_set]
      exact Nat.mod_lt _ (Nat.zero_lt_of_lt hi)
    · rcases List.mem_or_eq_of_mem_set hg with hold | rfl
      · exact h.grains_ok g hold
      · exact armedGrain_ok hgl h.crossfade_range hok1 hok2

/-! ### Step 5 -/

theorem RunInv.advancePhase (h : RunInv s) : RunInv (s.advancePhase hardwareNumerics) := by
  have hstep : 0 ≤ s.frequency / (s.inputs.fs : Rat) := div_nonneg h.frequency_range.1 (by positivity)
  exact { h with phase_nonneg := add_nonneg h.phase_nonneg hstep }

/-- The state the trigger of step 5 works on: one whole cycle taken off the phase (R181). -/
theorem RunInv.wrapPhase (h : RunInv s) (hwrap : 1 ≤ s.phase) : RunInv (s.setPhase hardwareNumerics (s.phase - 1)) :=
  { h with phase_nonneg := sub_nonneg.mpr hwrap }

theorem phaseStep_runInv (h : RunInv s) (hwf : s.db.wellFormed = true) (ht : phaseStep hardwareNumerics s = .next t) :
    RunInv t := by
  rcases phaseStep_cases ht with ⟨_, rfl⟩ | ⟨hwrap, ht⟩
  · exact h.advancePhase
  · exact trigger_runInv (h.advancePhase.wrapPhase hwrap) hwf ht

theorem phaseStep_completes (h : RunInv s) (hwf : s.db.wellFormed = true) :
    ∃ t, phaseStep hardwareNumerics s = .next t := by
  simp only [phaseStep]
  split
  · rename_i hwrap
    exact trigger_completes (h.advancePhase.wrapPhase hwrap) hwf
  · exact ⟨_, rfl⟩

/-! ### Step 7 -/

theorem grainSample_completes {db : Database} {g : Grain} (hwf : db.wellFormed = true) (hg : g.ok db = true)
    (ha : g.active = true) : ∃ y, grainSample N db g = .next y := by
  obtain ⟨_, _, hact⟩ := Grain.ok_iff.mp hg
  obtain ⟨hpos, h1, h2⟩ := hact ha
  have hread : ∀ off, db.frameOk off = true → ∃ v, db.memRead (off.toNat + g.readPosition) = .next v := fun off hoff =>
    Database.memRead_of_wellFormed hwf (by have := (Database.frameOk_iff.mp hoff).1; omega)
  obtain ⟨v1, hv1⟩ := hread _ h1
  unfold grainSample
  rw [hv1, Result.andThen_next]
  split
  · exact ⟨v1, rfl⟩
  · rename_i hmix
    obtain ⟨v2, hv2⟩ := hread _ (h2 hmix)
    exact ⟨_, Result.andThen_eq_next.mpr ⟨v2, hv2, rfl⟩⟩

theorem grainProcess_completes {db : Database} {g : Grain} (hwf : db.wellFormed = true) (hg : g.ok db = true) :
    ∃ r, grainProcess N db g = .next r := by
  unfold grainProcess
  split
  · rename_i ha
    obtain ⟨y, hy⟩ := grainSample_completes (N := N) hwf hg ha
    exact ⟨_, Result.andThen_eq_next.mpr ⟨y, hy, rfl⟩⟩
  · exact ⟨_, rfl⟩

theorem mixPool_completes {db : Database} (hwf : db.wellFormed = true) {gs : List Grain}
    (hgs : ∀ g ∈ gs, g.ok db = true) : ∃ r, mixPool N db gs = .next r := by
  induction gs with
  | nil => exact ⟨_, rfl⟩
  | cons g gs ih =>
    obtain ⟨one, h1⟩ := grainProcess_completes (N := N) hwf (hgs g List.mem_cons_self)
    obtain ⟨more, h2⟩ := ih fun g' hg' => hgs g' (List.mem_cons_of_mem g hg')
    exact ⟨_, Result.andThen_eq_next.mpr ⟨one, h1, Result.andThen_eq_next.mpr ⟨more, h2, rfl⟩⟩⟩

theorem mixStep_completes (hwf : s.db.wellFormed = true) (hgs : ∀ g ∈ s.pool, g.ok s.db = true) :
    ∃ t, mixStep N s = .next t := by
  obtain ⟨out, hout⟩ := mixPool_completes (N := N) hwf hgs
  exact ⟨_, Result.andThen_eq_next.mpr ⟨out, hout, rfl⟩⟩

/-- Step 6 writes no slot and no input. -/
theorem State.timeStep_frame (s : State) (N : Numerics) :
    (s.timeStep N).pool = s.pool ∧ (s.timeStep N).inputs = s.inputs := by
  rw [State.timeStep_eq]
  exact ⟨rfl, rfl⟩

/-! ### The whole tick -/

theorem State.sameButSequencer_inputs (h : s.sameButSequencer t) : t.inputs = s.inputs := by
  rw [h]

theorem phaseStep_inputs (h : phaseStep N s = .next t) : t.inputs = s.inputs := by
  rw [(phaseStep_frame h).1]

/-- R150: with a database none of the steps 2 to 7 stops. -/
theorem tickActive_completes (h : RunInv s) (hv : s.inputs.db.valid = true) :
    ∃ t, tickActive hardwareNumerics s = .next t := by
  have hwf := h.db_wellFormed hv
  obtain ⟨s2, h2⟩ := consumeNoteOn_completes (N := hardwareNumerics) h hwf
  have i2 := consumeNoteOn_runInv h h2
  have e2 : s2.db = s.db := State.db_congr (State.sameButSequencer_inputs (consumeNoteOn_frame h2).1)
  obtain ⟨s3, h3⟩ := consumeNoteOff_completes (N := hardwareNumerics) i2 (e2 ▸ hwf)
  have i3 := consumeNoteOff_runInv i2 h3
  have e3 : s3.db = s.db := (State.db_congr (State.sameButSequencer_inputs (consumeNoteOff_frame h3).1)).trans e2
  obtain ⟨s4, h4⟩ := boundaryStep_completes (N := hardwareNumerics) i3 (e3 ▸ hwf)
  have i4 := boundaryStep_runInv i3 h4
  have e4 : s4.db = s.db := (State.db_congr (State.sameButSequencer_inputs (boundaryStep_frame h4).1)).trans e3
  obtain ⟨s5, h5⟩ := phaseStep_completes i4 (e4 ▸ hwf)
  have i5 := phaseStep_runInv i4 (e4 ▸ hwf) h5
  have e5 : s5.db = s.db := (State.db_congr (phaseStep_inputs h5)).trans e4
  obtain ⟨hpool, hinputs⟩ := s5.timeStep_frame hardwareNumerics
  have e6 : (s5.timeStep hardwareNumerics).db = s5.db := State.db_congr hinputs
  obtain ⟨t, ht⟩ := mixStep_completes (N := hardwareNumerics) (s := s5.timeStep hardwareNumerics)
    (by rwa [e6, e5]) (by rw [e6, hpool]; exact i5.grains_ok)
  refine ⟨t, ?_⟩
  rw [tickActive, if_pos (h.divisorsOk hv), h2, Result.andThen_next, h3, Result.andThen_next, h4, Result.andThen_next, h5,
    Result.andThen_next, ht]

theorem tick_completes (h : RunInv s) (cmd : Command) : ∃ t, tick hardwareNumerics cmd s = .next t := by
  unfold tick
  split
  · exact ⟨_, rfl⟩
  · rename_i hv
    split
    · exact ⟨_, rfl⟩
    · split
      · exact ⟨_, rfl⟩
      · exact tickActive_completes h (by simpa using hv)

/-! ### Every command, every step -/

theorem execQueue_completes (arg : Arg) (s : State) : ∃ t, execQueue arg s = .next t := by
  unfold execQueue
  split
  · exact ⟨_, rfl⟩
  · split <;> exact ⟨_, rfl⟩

theorem execNoteon_completes (arg : Arg) (s : State) : ∃ t, execNoteon arg s = .next t := by
  unfold execNoteon
  split <;> exact ⟨_, rfl⟩

theorem execNoteoff_completes (arg : Arg) (s : State) : ∃ t, execNoteoff arg s = .next t := by
  unfold execNoteoff
  split <;> exact ⟨_, rfl⟩

/-- Only `TICK` can stop at all, and the invariant keeps it from stopping. -/
theorem exec_completes (h : RunInv s) (i : Instr) : ∃ t, exec i s = .next t := by
  cases i with
  | tick arg => exact tick_completes h (encode (.tick arg))
  | queue arg => exact execQueue_completes arg s
  | noteon arg => exact execNoteon_completes arg s
  | noteoff arg => exact execNoteoff_completes arg s
  | setfreq | clrerr | setfshift | setpspeed | illegal80 | illegal40 | illegal20 | illegal10 | illegal08 => exact ⟨_, rfl⟩

/-- R270: where the host keeps its inputs constant out of reset, driving them is no stop. -/
theorem driveConfiguration_completes {inputs : ConfigInputs} (h : s.resetAsserted = false → inputs = s.inputs) :
    ∃ t, driveConfiguration inputs s = .next t := by
  unfold driveConfiguration
  split
  · exact ⟨_, rfl⟩
  · rename_i hr
    exact ⟨s, if_pos (h (by simpa using hr))⟩

/-- The host's precondition on an input to be driven next (R270). -/
theorem portOk_configure {asserted : Bool} {inputs driven : ConfigInputs} {rest : List Input}
    (h : portOk asserted inputs (.configure driven :: rest) = true) : asserted = false → driven = inputs := by
  rintro rfl
  simp only [portOk, Bool.false_or, Bool.and_eq_true, decide_eq_true_eq] at h
  exact h.1

end

/-- Settles O15: by the input presented next; a command runs on a state that meets R47, or is lost to reset, and what the host
drives out of reset is what it drove before. -/
theorem invariantStatesNeverStop : Obligations.InvariantStatesNeverStop := by
  intro s h
  cases hp : s.port with
  | nil => exact ⟨s, stepBy_nil hp⟩
  | cons x rest =>
    cases x with
    | command w =>
      cases hr : s.resetAsserted with
      | false =>
        obtain ⟨t, ht⟩ := exec_completes ((h.running hr).setPort rest) (decode w)
        exact ⟨t, (stepBy_command hp hr).trans ht⟩
      | true => exact ⟨_, stepBy_command_held hp hr⟩
    | assertReset => exact ⟨_, stepBy_assertReset hp⟩
    | configure driven =>
      have hport := h.port_ok
      rw [hp] at hport
      obtain ⟨t, ht⟩ := driveConfiguration_completes (s := s.setPort rest) (portOk_configure hport)
      exact ⟨t, (stepBy_configure hp).trans ht⟩
    | releaseReset => exact ⟨_, stepBy_releaseReset hp⟩

end Sys2Proof.Machine
end

section
/-! PROOFS. The registers of the error reports (10_state.md R42, R43, 60_exceptions.md R241, R248, R252): the bits a report sets
and the bits `CLRERR` clears. -/

namespace Sys2Proof.Machine

/-- R248: the causes are numbered 0 to 5, so none has the number of a reserved bit. -/
theorem ErrorCause.code_le_five (e : ErrorCause) : e.code.toNat ≤ 5 := by cases e <;> decide

/-- R241: a report sets the cause's bit and no other. -/
theorem getLsbD_statusSet (status : BitVec 8) (e : ErrorCause) (k : Nat) :
    (statusSet status e).getLsbD k = (status.getLsbD k || decide (k = e.code.toNat)) := by
  have hcode := e.code_le_five
  have hbit : (1#8 <<< e.code.toNat).getLsbD k = decide (k = e.code.toNat) := by
    rw [BitVec.getLsbD_shiftLeft, BitVec.getLsbD_one, Bool.eq_iff_iff]
    simp
    omega
  rw [statusSet, BitVec.getLsbD_or, hbit]

/-- R224: `CLRERR` sets no bit. -/
theorem getLsbD_statusClear_of_clear {status : BitVec 8} (bits : BitVec 8) {k : Nat} (h : status.getLsbD k = false) :
    (statusClear status bits).getLsbD k = false := by
  rw [statusClear, BitVec.getLsbD_and, h, Bool.false_and]

/-- R42: no cause has the number of a reserved bit. -/
theorem getLsbD_statusSet_reserved (status : BitVec 8) (e : ErrorCause) {k : Nat} (hk : 6 ≤ k) :
    (statusSet status e).getLsbD k = status.getLsbD k := by
  have hne : k ≠ e.code.toNat := by have := e.code_le_five; omega
  rw [getLsbD_statusSet, decide_eq_false hne, Bool.or_false]

theorem getLsbD_reservedMask : ∀ k, k < 8 → (0xC0#8).getLsbD k = decide (6 ≤ k) := by decide

/-- R47 (i), as a mask and bit by bit. -/
theorem status_reserved_iff {status : BitVec 8} :
    status &&& 0xC0#8 = 0 ↔ ∀ k, 6 ≤ k → status.getLsbD k = false := by
  constructor
  · intro h k hk
    by_cases hw : k < 8
    · have hbit := congrArg (fun v => BitVec.getLsbD v k) h
      simpa [getLsbD_reservedMask k hw, hk] using hbit
    · exact BitVec.getLsbD_of_ge status k (not_lt.mp hw)
  · intro h
    refine BitVec.eq_of_getLsbD_eq fun k hw => ?_
    rw [BitVec.getLsbD_and, getLsbD_reservedMask k hw]
    by_cases hk : 6 ≤ k
    · simp [h k hk]
    · simp [hk]

/-- R43: an empty `LASTERR` has the code 0. -/
theorem lasterrCode_zero : lasterrCode 0 = 0 := by decide

theorem statusSet_keeps_reserved {status : BitVec 8} (h : status &&& 0xC0#8 = 0) (e : ErrorCause) :
    statusSet status e &&& 0xC0#8 = 0 :=
  status_reserved_iff.mpr fun k hk =>
    (getLsbD_statusSet_reserved status e hk).trans (status_reserved_iff.mp h k hk)

theorem statusClear_keeps_reserved {status : BitVec 8} (h : status &&& 0xC0#8 = 0) (bits : BitVec 8) :
    statusClear status bits &&& 0xC0#8 = 0 :=
  status_reserved_iff.mpr fun k hk => getLsbD_statusClear_of_clear bits (status_reserved_iff.mp h k hk)

/-- `CLRERR`, register by register (R224). -/
theorem State.clearErrors_eq (s : State) (mask : BitVec 9) :
    s.clearErrors mask =
      { s with
        status := statusClear s.status (maskStatusBits mask),
        lasterr := if maskClearsLasterr mask then 0 else s.lasterr } := by
  unfold State.clearErrors
  split <;> rfl

end Sys2Proof.Machine
end

section
/-! PROOFS. The frame of the commands (10_state.md R46): the registers a `TICK` does not write, and that no command writes the
inputs, a parameter, the reset level or the port. -/

namespace Sys2Proof.Machine

/-- What no command writes: the inputs, the two parameters, the reset level and the port (R46). -/
structure State.SameSetting (s t : State) : Prop where
  inputs : t.inputs = s.inputs
  qdepth : t.qdepth = s.qdepth
  resetAsserted : t.resetAsserted = s.resetAsserted
  port : t.port = s.port
  poolSize : t.poolSize = s.poolSize

/-- What the steps 2 to 7 of a `TICK` do not write: besides the setting, the pitch and the registers of the error reports. -/
structure State.SameButTick (s t : State) : Prop extends State.SameSetting s t where
  frequency : t.frequency = s.frequency
  status : t.status = s.status
  lasterr : t.lasterr = s.lasterr

section

variable {N : Numerics} {s t u : State}

theorem State.SameButTick.trans (h : s.SameButTick t) (k : t.SameButTick u) : s.SameButTick u where
  inputs := k.inputs.trans h.inputs
  qdepth := k.qdepth.trans h.qdepth
  resetAsserted := k.resetAsserted.trans h.resetAsserted
  port := k.port.trans h.port
  poolSize := k.poolSize.trans h.poolSize
  frequency := k.frequency.trans h.frequency
  status := k.status.trans h.status
  lasterr := k.lasterr.trans h.lasterr

theorem State.sameButSequencer.sameButTick (h : s.sameButSequencer t) : s.SameButTick t := by
  rw [h]
  exact ⟨⟨rfl, rfl, rfl, rfl, rfl⟩, rfl, rfl, rfl⟩

theorem phaseStep_sameButTick (h : phaseStep N s = .next t) : s.SameButTick t := by
  obtain ⟨hf, hsize⟩ := phaseStep_frame h
  rw [hf]
  exact ⟨⟨rfl, rfl, rfl, rfl, hsize⟩, rfl, rfl, rfl⟩

theorem State.timeStep_sameButTick (s : State) (N : Numerics) : s.SameButTick (s.timeStep N) := by
  rw [State.timeStep_eq]
  exact ⟨⟨rfl, rfl, rfl, rfl, rfl⟩, rfl, rfl, rfl⟩

theorem mixStep_sameButTick (h : mixStep N s = .next t) : s.SameButTick t := by
  obtain ⟨_, _, _, hsize, rfl⟩ := mixStep_cases h
  exact ⟨⟨rfl, rfl, rfl, rfl, hsize⟩, rfl, rfl, rfl⟩

theorem tickActive_sameButTick (h : tickActive N s = .next t) : s.SameButTick t := by
  obtain ⟨_, s2, s3, s4, s5, h2, h3, h4, h5, h7⟩ := tickActive_cases h
  have f2 := (consumeNoteOn_frame h2).1.sameButTick
  have f3 := (consumeNoteOff_frame h3).1.sameButTick
  have f4 := (boundaryStep_frame h4).1.sameButTick
  have f5 := phaseStep_sameButTick h5
  exact (((f2.trans f3).trans f4).trans f5).trans ((s5.timeStep_sameButTick N).trans (mixStep_sameButTick h7))

theorem tick_sameSetting {cmd : Command} (h : tick N cmd s = .next t) : s.SameSetting t := by
  rcases tick_cases h with ⟨_, rfl⟩ | ⟨_, _, _, rfl⟩ | ⟨_, _, h⟩
  · exact ⟨rfl, rfl, rfl, rfl, rfl⟩
  · exact ⟨rfl, rfl, rfl, rfl, rfl⟩
  · exact (tickActive_sameButTick h).toSameSetting

theorem State.clearErrors_sameSetting (s : State) (mask : BitVec 9) : s.SameSetting (s.clearErrors mask) := by
  rw [State.clearErrors_eq]
  exact ⟨rfl, rfl, rfl, rfl, rfl⟩

/-- Everything an instruction can do: run a `TICK`, or what a control command does. -/
theorem exec_cases {i : Instr} (h : exec i s = .next t) :
    (∃ cmd, tick hardwareNumerics cmd s = .next t) ∨
    (∃ e cmd, t = s.raise e cmd) ∨ (∃ arg, t = s.setFrequency hardwareNumerics (freqOperand arg)) ∨
    (∃ arg, s.db.validIndex arg = true ∧ s.queueFull = false ∧ t = s.setQueue (s.queue ++ [arg])) ∨
    (∃ n, t = s.setNoteOns n) ∨ (∃ n, t = s.setNoteOffs n) ∨ (∃ mask, t = s.clearErrors mask) := by
  by_cases hi : ∃ arg, i = .tick arg
  · obtain ⟨arg, rfl⟩ := hi
    exact .inl ⟨_, h⟩
  · push Not at hi
    exact .inr (exec_control_cases hi h)

/-- R46: no command writes the inputs, a parameter, the reset level or the port. -/
theorem exec_sameSetting {i : Instr} (h : exec i s = .next t) : s.SameSetting t := by
  rcases exec_cases h with ⟨cmd, h⟩ | ⟨e, cmd, rfl⟩ | ⟨arg, rfl⟩ | ⟨arg, _, _, rfl⟩ | ⟨n, rfl⟩ | ⟨n, rfl⟩ | ⟨mask, rfl⟩
  · exact tick_sameSetting h
  · exact ⟨rfl, rfl, rfl, rfl, rfl⟩
  · exact ⟨rfl, rfl, rfl, rfl, rfl⟩
  · exact ⟨rfl, rfl, rfl, rfl, rfl⟩
  · exact ⟨rfl, rfl, rfl, rfl, rfl⟩
  · exact ⟨rfl, rfl, rfl, rfl, rfl⟩
  · exact s.clearErrors_sameSetting mask

end

end Sys2Proof.Machine
end

section
/-! PROOFS. The state after reset (10_state.md R47, R48, 70_reset_and_hazards.md R270): its registers, that it meets the invariant
with well-formed inputs, and that the state held in reset meets it with any. -/

namespace Sys2Proof.Machine

/-- Settles O8: field by field; every slot of the pool is the reset slot. -/
theorem resetPutsEveryRegisterAtItsValue : Obligations.ResetPutsEveryRegisterAtItsValue := by
  intro pool qdepth inputs s
  have hpool : ∀ g ∈ s.pool,
      g.active = false ∧ g.readPosition = 0 ∧ g.offset1 = 0 ∧ g.offset2 = 0 ∧ g.crossfadeMix = 0 := by
    intro g hg
    rw [List.eq_of_mem_replicate hg]
    exact ⟨rfl, rfl, rfl, rfl, rfl⟩
  exact ⟨rfl, rfl, rfl, toInt_eq_neg_one_iff.mpr rfl, rfl, rfl, toInt_eq_neg_one_iff.mpr rfl, rfl, rfl, rfl, rfl, rfl, rfl,
    List.length_replicate, hpool, rfl, rfl, rfl, rfl, rfl, rfl⟩

theorem Grain.reset_ok (db : Database) : Grain.reset.ok db = true :=
  Grain.ok_iff.mpr ⟨⟨le_rfl, zero_le_one⟩, Nat.zero_le _, fun h => by cases h⟩

theorem State.resetWith_queueFits (pool : Nat) (qdepth : Option Nat) (inputs : ConfigInputs) :
    (State.resetWith pool qdepth inputs).queueFits = true := by
  cases qdepth with
  | none => rfl
  | some d => exact decide_eq_true (Nat.zero_le d)

section

variable {pool : Nat} {inputs : ConfigInputs}

theorem resetWith_runInv (qdepth : Option Nat) (hpool : 1 ≤ pool) (hin : inputs.wellFormed = true) :
    RunInv (State.resetWith pool qdepth inputs) where
  inputs_ok := hin
  frequency_range := by norm_num [State.resetWith, Config.freqReset]
  phase_nonneg := le_rfl
  segmentTime_nonneg := le_rfl
  oldSegmentTime_nonneg := le_rfl
  segmentLength_nonneg := le_rfl
  queue_fits := State.resetWith_queueFits pool qdepth inputs
  queue_valid _ hi := by cases hi
  segment_valid := Database.validIndex_gap _
  oldSegment_valid := Database.validIndex_gap _
  crossfade_range := ⟨le_rfl, zero_le_one⟩
  crossfade_old hc := absurd rfl hc
  ramp_values := .inl rfl
  ramp_cleared _ := rfl
  idle_length _ := rfl
  nextGrain_range := by rw [State.resetWith_poolSize]; exact hpool
  grains_ok g hg := by rw [List.eq_of_mem_replicate hg]; exact Grain.reset_ok _
  status_reserved := BitVec.zero_and
  lasterr_valid _ := rfl
  lasterr_code := by rw [State.resetWith, lasterrCode_zero]; decide

variable {s : State}

/-- R270: a state held in reset meets the invariant whatever inputs are driven, where the host presents what it may. -/
theorem holdReset_engineInv (hsize : 1 ≤ s.poolSize ∧ s.poolSize ≤ Config.poolMax) (hport : portOk true inputs s.port = true) :
    EngineInv (holdReset inputs s) where
  pool_size := by rwa [holdReset_poolSize]
  port_ok := hport
  running hr := by cases hr
  held _ := by rw [holdReset_inputs, holdReset_holdReset]

/-- R270: so does the state after the release, where the inputs it latches are well-formed. -/
theorem resetState_engineInv (hsize : 1 ≤ s.poolSize ∧ s.poolSize ≤ Config.poolMax) (hin : inputs.wellFormed = true)
    (hport : portOk false inputs s.port = true) : EngineInv (resetState inputs s) where
  pool_size := by
    have hlen : (resetState inputs s).poolSize = s.poolSize := State.resetWith_poolSize _ s.qdepth inputs
    rwa [hlen]
  port_ok := hport
  running _ := (resetWith_runInv s.qdepth hsize.1 hin).setPort s.port
  held hr := by cases hr

end

/-- Settles O13: both states are those of a block in reset, released and held, with nothing presented. -/
theorem everyResetMeetsInvariant : Obligations.EveryResetMeetsInvariant := by
  intro pool qdepth inputs hlo hhi
  have hsize : (State.resetWith pool qdepth inputs).poolSize = pool := State.resetWith_poolSize pool qdepth inputs
  have hbounds : 1 ≤ (State.resetWith pool qdepth inputs).poolSize ∧
      (State.resetWith pool qdepth inputs).poolSize ≤ Config.poolMax := by rw [hsize]; exact ⟨hlo, hhi⟩
  constructor
  · intro hin
    have hinv := resetState_engineInv hbounds hin rfl
    rwa [resetState_eq, hsize] at hinv
  · have hinv := holdReset_engineInv (inputs := inputs) hbounds rfl
    rwa [holdReset_eq, hsize] at hinv

/-- Settles O12: the inputs of log 2 are well-formed, for they have no database. -/
theorem resetMeetsInvariant : Obligations.ResetMeetsInvariant :=
  (everyResetMeetsInvariant Config.poolDefault Config.qdepthDefault ⟨Config.fsAtReset, Database.zeroed⟩
    (by decide) (by decide)).1 (by decide)

end Sys2Proof.Machine
end

section
/-! PROOFS. The invariant over every step and every run (10_state.md R47, 70_reset_and_hazards.md R270): the steps 6 and 7 of a
`TICK` keep it, hence every command; each input keeps it, where the host presents what it may. -/

namespace Sys2Proof.Machine

section

variable {N : Numerics} {s t : State}

/-! ### Steps 6 and 7 -/

/-- R31: the ramp never raises the crossfade. -/
theorem RunInv.ramp_nonpos (h : RunInv s) : s.crossfadeRamp ≤ 0 := by
  rcases h.ramp_values with hr | hr
  · exact hr.le
  · exact hr.trans_le s.fullRamp_nonpos

/-- R200, R202: step 6 keeps the invariant. A decay that reaches 0 clears the ramp; one that does not was begun above 0, since the
ramp is not positive. -/
theorem RunInv.timeStep (h : RunInv s) : RunInv (s.timeStep hardwareNumerics) := by
  have hramp := h.ramp_nonpos
  obtain ⟨_, hle⟩ := h.crossfade_range
  rw [State.timeStep_eq]
  simp only [hardwareNumerics_q]
  refine { h with
    segmentTime_nonneg := add_nonneg h.segmentTime_nonneg s.period_nonneg
    oldSegmentTime_nonneg := add_nonneg h.oldSegmentTime_nonneg s.period_nonneg
    crossfade_range := ?_
    crossfade_old := fun hc => h.crossfade_old fun h0 => ?_
    ramp_values := ?_
    ramp_cleared := fun hc => ?_ }
  · constructor <;> split <;> linarith
  · exact hc (if_pos (by linarith))
  · split
    · exact .inl rfl
    · exact h.ramp_values
  · by_cases hend : s.crossfade + s.crossfadeRamp ≤ 0
    · exact if_pos hend
    · exact absurd (hc.symm.trans (if_neg hend)).ge hend

/-- R132: a slot that has played one more sample still reads inside its frames, for it stops after the last. -/
theorem Grain.advance_ok {db : Database} {g : Grain} (hg : g.ok db = true) (ha : g.active = true) :
    (g.advance db.gl).ok db = true := by
  obtain ⟨hmix, _, hact⟩ := Grain.ok_iff.mp hg
  obtain ⟨hpos, h1, h2⟩ := hact ha
  refine Grain.ok_iff.mpr ⟨hmix, hpos, fun hgoes => ⟨?_, h1, h2⟩⟩
  exact lt_of_le_of_ne hpos (of_decide_eq_true hgoes)

theorem grainProcess_ok {db : Database} {g g' : Grain} {y : Int} (hg : g.ok db = true)
    (h : grainProcess N db g = .next (y, g')) : g'.ok db = true := by
  rcases grainProcess_cases h with ⟨_, _, rfl⟩ | ⟨ha, _, rfl⟩
  · exact hg
  · exact Grain.advance_ok hg ha

theorem mixStep_runInv (h : RunInv s) (ht : mixStep N s = .next t) : RunInv t := by
  obtain ⟨acc, out, hmix, hlen, rfl⟩ := mixStep_cases ht
  refine { h with nextGrain_range := h.nextGrain_range.trans_eq hlen.symm, grains_ok := fun g' hg' => ?_ }
  obtain ⟨g, hg, y, hy⟩ := mixPool_mem hmix hg'
  exact grainProcess_ok (h.grains_ok g hg) hy

/-! ### Every command -/

theorem tickActive_runInv (h : RunInv s) (hv : s.inputs.db.valid = true) (ht : tickActive hardwareNumerics s = .next t) :
    RunInv t := by
  obtain ⟨_, s2, s3, s4, s5, h2, h3, h4, h5, h7⟩ := tickActive_cases ht
  have i4 := boundaryStep_runInv (consumeNoteOff_runInv (consumeNoteOn_runInv h h2) h3) h4
  have f3 := (consumeNoteOn_frame h2).1.sameButTick.trans (consumeNoteOff_frame h3).1.sameButTick
  have f4 := f3.trans (boundaryStep_frame h4).1.sameButTick
  have hwf : s4.db.wellFormed = true := by
    rw [State.db_congr f4.inputs]
    exact h.db_wellFormed hv
  exact mixStep_runInv (phaseStep_runInv i4 hwf h5).timeStep h7

theorem RunInv.setSample (h : RunInv s) (v : BitVec 32) : RunInv (s.setSample v) := { h with }

/-- R241: a report keeps the invariant; it sets no reserved bit and records a code of R248. -/
theorem RunInv.raise (h : RunInv s) (e : ErrorCause) (cmd : Command) : RunInv (s.raise e cmd) :=
  { h with
    status_reserved := statusSet_keeps_reserved h.status_reserved e
    lasterr_valid := fun hv => absurd ((lasterrValid_record e cmd).symm.trans hv) (by decide)
    lasterr_code := by
      rw [State.raise_lasterr, lasterrCode_record]
      exact e.code_le_five }

theorem RunInv.clearErrors (h : RunInv s) (mask : BitVec 9) : RunInv (s.clearErrors mask) := by
  rw [State.clearErrors_eq]
  refine { h with
    status_reserved := statusClear_keeps_reserved h.status_reserved _
    lasterr_valid := fun hv => ?_
    lasterr_code := ?_ }
  · by_cases hm : maskClearsLasterr mask = true
    · exact if_pos hm
    · rw [if_neg hm] at hv ⊢
      exact h.lasterr_valid hv
  · split
    · rw [lasterrCode_zero]; decide
    · exact h.lasterr_code

/-- R24, R221: an entry appended to a queue that is not full fits, and a valid one keeps all entries valid. -/
theorem State.queueFits_append (hfits : s.queueFits = true) (hfull : s.queueFull = false) (i : SegIndex) :
    (s.setQueue (s.queue ++ [i])).queueFits = true := by
  unfold State.queueFits State.queueFull at *
  rw [State.setQueue_qdepth]
  cases hd : s.qdepth with
  | none => rfl
  | some d =>
    rw [hd] at hfits hfull
    simp at hfits hfull ⊢
    omega

theorem RunInv.appendQueue (h : RunInv s) {i : SegIndex} (hi : s.db.validIndex i = true) (hfull : s.queueFull = false) :
    RunInv (s.setQueue (s.queue ++ [i])) :=
  { h with
    queue_fits := State.queueFits_append h.queue_fits hfull i
    queue_valid := fun j hj => by
      rcases List.mem_append.mp hj with hold | hnew
      · exact h.queue_valid j hold
      · rw [List.mem_singleton.mp hnew]
        exact hi }

theorem tick_runInv (h : RunInv s) {cmd : Command} (ht : tick hardwareNumerics cmd s = .next t) : RunInv t := by
  rcases tick_cases ht with ⟨_, rfl⟩ | ⟨_, _, _, rfl⟩ | ⟨hv, _, ht⟩
  · exact (h.raise .E_NODB cmd).setSample 0
  · exact h.setSample 0
  · exact tickActive_runInv h hv ht

/-- R47: every command keeps the invariant of a block that runs. -/
theorem exec_runInv (h : RunInv s) {i : Instr} (ht : exec i s = .next t) : RunInv t := by
  rcases exec_cases ht with ⟨cmd, ht⟩ | ⟨e, cmd, rfl⟩ | ⟨arg, rfl⟩ | ⟨arg, hok, hfull, rfl⟩ | ⟨n, rfl⟩ | ⟨n, rfl⟩ | ⟨mask, rfl⟩
  · exact tick_runInv h ht
  · exact h.raise e cmd
  · exact { h with frequency_range := freqOperand_range arg }
  · exact h.appendQueue hok hfull
  · exact h.setNoteOns n
  · exact h.setNoteOffs n
  · exact h.clearErrors mask

/-! ### Every input -/

/-- An input taken from the port, with no other effect, keeps the invariant where the host may present the rest. -/
theorem EngineInv.setPort (h : EngineInv s) {rest : List Input} (hport : portOk s.resetAsserted s.inputs rest = true) :
    EngineInv (s.setPort rest) where
  pool_size := h.pool_size
  port_ok := hport
  running hr := (h.running hr).setPort rest
  held hr := congrArg (State.setPort · rest) (h.held hr)

theorem exec_engineInv (h : EngineInv s) (hr : s.resetAsserted = false) {i : Instr} (ht : exec i s = .next t) :
    EngineInv t := by
  have f := exec_sameSetting ht
  exact {
    pool_size := by rw [f.poolSize]; exact h.pool_size
    port_ok := by rw [f.resetAsserted, f.inputs, f.port]; exact h.port_ok
    running := fun _ => exec_runInv (h.running hr) ht
    held := fun ht => absurd (ht.symm.trans (f.resetAsserted.trans hr)) (by decide) }

/-- R270: what the host may present after each input. -/
theorem portOk_command {asserted : Bool} {inputs : ConfigInputs} {w : Command} {rest : List Input} :
    portOk asserted inputs (.command w :: rest) = portOk asserted inputs rest := by
  simp [portOk]

theorem portOk_assertReset {asserted : Bool} {inputs : ConfigInputs} {rest : List Input} :
    portOk asserted inputs (.assertReset :: rest) = portOk true inputs rest := by
  simp [portOk]

theorem portOk_configure_iff {asserted : Bool} {inputs driven : ConfigInputs} {rest : List Input} :
    portOk asserted inputs (.configure driven :: rest) = true ↔
      (asserted = true ∨ driven = inputs) ∧ portOk asserted driven rest = true := by
  simp [portOk]

theorem portOk_releaseReset_iff {asserted : Bool} {inputs : ConfigInputs} {rest : List Input} :
    portOk asserted inputs (.releaseReset :: rest) = true ↔
      (asserted = true → inputs.wellFormed = true) ∧ portOk false inputs rest = true := by
  cases asserted <;> simp [portOk]

/-- R47, R270: every input keeps the invariant, where the host presents what it may. -/
theorem step_engineInv (h : EngineInv s) (ht : step s = .next t) : EngineInv t := by
  have hport := h.port_ok
  rcases stepBy_cases ht with ⟨_, rfl⟩ | ⟨w, rest, hp, hr, ht⟩ | ⟨w, rest, hp, _, rfl⟩ | ⟨rest, hp, rfl⟩ |
    ⟨inputs, rest, hp, hr, rfl⟩ | ⟨rest, hp, _, rfl⟩ | ⟨rest, hp, hr, rfl⟩ | ⟨rest, hp, hr, rfl⟩
  · exact h
  · rw [hp, portOk_command] at hport
    exact exec_engineInv (h.setPort hport) hr ht
  · rw [hp, portOk_command] at hport
    exact h.setPort hport
  · rw [hp, portOk_assertReset] at hport
    exact holdReset_engineInv h.pool_size hport
  · rw [hp, hr, portOk_configure_iff] at hport
    obtain ⟨_, hrest⟩ := hport
    exact holdReset_engineInv h.pool_size hrest
  · rw [hp, portOk_configure_iff] at hport
    obtain ⟨_, hrest⟩ := hport
    exact h.setPort hrest
  · rw [hp, portOk_releaseReset_iff] at hport
    obtain ⟨hin, hrest⟩ := hport
    exact resetState_engineInv h.pool_size (hin hr) hrest
  · rw [hp, portOk_releaseReset_iff] at hport
    obtain ⟨_, hrest⟩ := hport
    exact h.setPort (by rwa [hr])

/-! ### Every run -/

theorem State.run_zero (s : State) : State.run 0 s = .next s := rfl

theorem core_run_succ_of_next {M : Host.Core} {k : Nat} {x y : M.State} (h : M.step x = .next y) :
    M.run (k + 1) x = M.run k y := by
  rw [Host.Core.run, h]

theorem State.run_succ_of_next {k : Nat} (h : step s = .next t) : State.run (k + 1) s = State.run k t :=
  core_run_succ_of_next (M := Sys2Proof.core) h

/-- R9, R47: from a state that meets the invariant no run stops, and every state it reaches meets the invariant. -/
theorem run_engineInv (h : EngineInv s) (k : Nat) : ∃ t, State.run k s = .next t ∧ EngineInv t := by
  induction k generalizing s with
  | zero => exact ⟨s, s.run_zero, h⟩
  | succ k ih =>
    obtain ⟨u, hu⟩ := invariantStatesNeverStop s h
    obtain ⟨t, ht, hinv⟩ := ih (step_engineInv h hu)
    exact ⟨t, (State.run_succ_of_next hu).trans ht, hinv⟩

/-- The host may present any commands. -/
theorem portOk_commands (asserted : Bool) (inputs : ConfigInputs) (ws : List Command) :
    portOk asserted inputs (ws.map Input.command) = true := by
  induction ws with
  | nil => simp [portOk]
  | cons w ws ih => rw [List.map_cons, portOk_command, ih]

theorem EngineInv.present (h : EngineInv s) (ws : List Command) : EngineInv (s.present ws) :=
  h.setPort (portOk_commands s.resetAsserted s.inputs ws)

end

/-- Settles O14: by what the step does with the input presented next. -/
theorem stepKeepsInvariant : Obligations.StepKeepsInvariant := fun _ _ h ht => step_engineInv h ht

/-- Settles O16: the reset state meets the invariant, commands presented keep it, and no run from such a state stops. -/
theorem runsFromResetMeetInvariant : Obligations.RunsFromResetMeetInvariant := by
  intro pool qdepth inputs ws k hlo hhi hin
  have hreset := (everyResetMeetsInvariant pool qdepth inputs hlo hhi).1 hin
  exact run_engineInv (hreset.present ws) k

end Sys2Proof.Machine
end

section
/-! PROOFS. The clocks and the gate counters over a step (10_state.md R26, R29, R33, R34, 41_tick_sequencer.md R162,
43_envelope_mixer.md R200). -/

namespace Sys2Proof.Machine

/-! ### The clocks -/

/-- A time in seconds that is a whole number of sample periods (R200). -/
def OnTickGrid (fs : Nat) (v : Rat) : Prop := ∃ k : Nat, v = (k : Rat) / (fs : Rat)

theorem OnTickGrid.zero (fs : Nat) : OnTickGrid fs 0 := ⟨0, by simp⟩

theorem OnTickGrid.add_period {s : State} {v : Rat} (h : OnTickGrid s.inputs.fs v) :
    OnTickGrid s.inputs.fs (v + s.period) := by
  obtain ⟨k, rfl⟩ := h
  exact ⟨k + 1, by rw [State.period, ← add_div, Nat.cast_add_one]⟩

/-- Both segment clocks are whole numbers of sample periods (R26, R29). -/
structure ClocksOnGrid (s : State) : Prop where
  segmentTime : OnTickGrid s.inputs.fs s.segmentTime
  oldSegmentTime : OnTickGrid s.inputs.fs s.oldSegmentTime

/-- The form the obligation has it in. -/
theorem clocksOnGrid_iff {s : State} : ClocksOnGrid s ↔
    ∃ k m : Nat, s.segmentTime = k / (s.inputs.fs : Rat) ∧ s.oldSegmentTime = m / (s.inputs.fs : Rat) :=
  ⟨fun ⟨⟨k, hk⟩, ⟨m, hm⟩⟩ => ⟨k, m, hk, hm⟩, fun ⟨k, m, hk, hm⟩ => ⟨⟨k, hk⟩, ⟨m, hm⟩⟩⟩

section

variable {N : Numerics} {s t : State}

theorem ClocksOnGrid.setPort (h : ClocksOnGrid s) (p : List Input) : ClocksOnGrid (s.setPort p) := { h with }

theorem ClocksOnGrid.setNoteOns (h : ClocksOnGrid s) (n : BitVec 32) : ClocksOnGrid (s.setNoteOns n) := { h with }

theorem ClocksOnGrid.setNoteOffs (h : ClocksOnGrid s) (n : BitVec 32) : ClocksOnGrid (s.setNoteOffs n) := { h with }

/-- R160: `NEWSEG` starts a clock at 0 and hands the other one on, or leaves both alone. -/
theorem newSeg_clocksOnGrid (h : ClocksOnGrid s) (ht : newSeg hardwareNumerics s = .next t) : ClocksOnGrid t := by
  rcases newSeg_cases ht with ⟨_, rfl⟩ | ⟨n, rest, frames, _, _, rfl⟩
  · exact { h with }
  · rw [State.enterSegment_eq]
    exact ⟨OnTickGrid.zero _, h.segmentTime⟩

theorem consumeNoteOn_clocksOnGrid (h : ClocksOnGrid s) (ht : consumeNoteOn hardwareNumerics s = .next t) :
    ClocksOnGrid t := by
  rcases consumeNoteOn_cases ht with ⟨_, rfl⟩ | ⟨_, ht⟩
  · exact h
  · exact newSeg_clocksOnGrid (h.setNoteOns _) ht

theorem consumeNoteOff_clocksOnGrid (h : ClocksOnGrid s) (ht : consumeNoteOff hardwareNumerics s = .next t) :
    ClocksOnGrid t := by
  rcases consumeNoteOff_cases ht with ⟨_, rfl⟩ | ⟨_, _, _, ht⟩
  · exact h
  · exact newSeg_clocksOnGrid (h.setNoteOffs _) ht

theorem boundaryStep_clocksOnGrid (h : ClocksOnGrid s) (ht : boundaryStep hardwareNumerics s = .next t) :
    ClocksOnGrid t := by
  rcases boundaryStep_cases ht with ⟨_, rfl⟩ | ⟨_, _, rfl⟩ | ⟨_, _, ht⟩
  · exact h
  · exact { h with segmentTime := OnTickGrid.zero _ }
  · exact newSeg_clocksOnGrid h ht

theorem phaseStep_clocksOnGrid (h : ClocksOnGrid s) (ht : phaseStep N s = .next t) : ClocksOnGrid t := by
  rw [(phaseStep_frame ht).1]
  exact { h with }

/-- R200: both clocks move on by one sample period. -/
theorem ClocksOnGrid.timeStep (h : ClocksOnGrid s) : ClocksOnGrid (s.timeStep hardwareNumerics) := by
  rw [State.timeStep_eq]
  exact ⟨h.segmentTime.add_period, h.oldSegmentTime.add_period⟩

theorem mixStep_clocksOnGrid (h : ClocksOnGrid s) (ht : mixStep N s = .next t) : ClocksOnGrid t := by
  obtain ⟨_, _, _, _, rfl⟩ := mixStep_cases ht
  exact { h with }

theorem tick_clocksOnGrid (h : ClocksOnGrid s) {cmd : Command} (ht : tick hardwareNumerics cmd s = .next t) :
    ClocksOnGrid t := by
  rcases tick_cases ht with ⟨_, rfl⟩ | ⟨_, _, _, rfl⟩ | ⟨_, _, ht⟩
  · exact { h with }
  · exact { h with }
  · obtain ⟨_, s2, s3, s4, s5, h2, h3, h4, h5, h7⟩ := tickActive_cases ht
    have c2 := consumeNoteOn_clocksOnGrid h h2
    have c3 := consumeNoteOff_clocksOnGrid c2 h3
    have c4 := boundaryStep_clocksOnGrid c3 h4
    exact mixStep_clocksOnGrid (phaseStep_clocksOnGrid c4 h5).timeStep h7

theorem exec_clocksOnGrid (h : ClocksOnGrid s) {i : Instr} (ht : exec i s = .next t) : ClocksOnGrid t := by
  rcases exec_cases ht with ⟨cmd, ht⟩ | ⟨e, cmd, rfl⟩ | ⟨arg, rfl⟩ | ⟨arg, _, _, rfl⟩ | ⟨n, rfl⟩ | ⟨n, rfl⟩ | ⟨mask, rfl⟩
  · exact tick_clocksOnGrid h ht
  · exact { h with }
  · exact { h with }
  · exact { h with }
  · exact h.setNoteOns n
  · exact h.setNoteOffs n
  · rw [State.clearErrors_eq]
    exact { h with }

/-- R48: reset puts both clocks at 0. -/
theorem resetState_clocksOnGrid (inputs : ConfigInputs) (s : State) : ClocksOnGrid (resetState inputs s) :=
  ⟨OnTickGrid.zero _, OnTickGrid.zero _⟩

theorem holdReset_clocksOnGrid (inputs : ConfigInputs) (s : State) : ClocksOnGrid (holdReset inputs s) :=
  { resetState_clocksOnGrid inputs s with }

theorem step_clocksOnGrid (h : ClocksOnGrid s) (ht : step s = .next t) : ClocksOnGrid t := by
  rcases stepBy_cases ht with ⟨_, rfl⟩ | ⟨w, rest, _, _, ht⟩ | ⟨w, rest, _, _, rfl⟩ | ⟨rest, _, rfl⟩ |
    ⟨inputs, rest, _, _, rfl⟩ | ⟨rest, _, _, rfl⟩ | ⟨rest, _, _, rfl⟩ | ⟨rest, _, _, rfl⟩
  · exact h
  · exact exec_clocksOnGrid (h.setPort rest) ht
  · exact h.setPort rest
  · exact holdReset_clocksOnGrid _ _
  · exact holdReset_clocksOnGrid _ _
  · exact h.setPort rest
  · exact resetState_clocksOnGrid _ _
  · exact h.setPort rest

end

/-- Settles O17: a clock is set to 0, takes the other clock's value, or moves on by one sample period. -/
theorem segmentClocksAreTickMultiples : Obligations.SegmentClocksAreTickMultiples :=
  fun _ _ h ht => clocksOnGrid_iff.mp (step_clocksOnGrid (clocksOnGrid_iff.mpr h) ht)

/-! ### The gate counters -/

section

variable {N : Numerics} {s t : State}

/-- R152: step 2 consumes a note-on of an idle engine. -/
theorem consumeNoteOn_noteOns (h : consumeNoteOn N s = .next t) :
    t.noteOns = if s.segment = gapToken then s.noteOns - 1 else s.noteOns := by
  rcases consumeNoteOn_cases h with ⟨hs, rfl⟩ | ⟨hs, h⟩
  · rw [if_neg hs]
  · rw [if_pos hs, (newSeg_frame h).2.1, State.setNoteOns_noteOns]

/-- R153: step 3 consumes a pending note-off or none. -/
theorem consumeNoteOff_noteOffs (h : consumeNoteOff N s = .next t) :
    t.noteOffs = s.noteOffs ∨ (s.noteOffs ≠ 0 ∧ t.noteOffs = s.noteOffs - 1) := by
  rcases consumeNoteOff_cases h with ⟨_, rfl⟩ | ⟨_, hne, _, h⟩
  · exact .inl rfl
  · exact .inr ⟨hne, by rw [(newSeg_frame h).2.2, State.setNoteOffs_noteOffs]⟩

/-- The steps 5 to 7 write no gate counter. -/
theorem datapath_gates {s4 s5 : State} (h5 : phaseStep N s4 = .next s5) (h7 : mixStep N (s5.timeStep N) = .next t) :
    t.noteOns = s4.noteOns ∧ t.noteOffs = s4.noteOffs := by
  obtain ⟨_, _, _, _, rfl⟩ := mixStep_cases h7
  rw [State.timeStep_eq, (phaseStep_frame h5).1]
  exact ⟨rfl, rfl⟩

/-- R162: the gate counters over a `TICK` that is not ended early. -/
theorem tickActive_gates (h : tickActive N s = .next t) :
    t.noteOns = (if s.segment = gapToken then s.noteOns - 1 else s.noteOns) ∧
      (t.noteOffs = s.noteOffs ∨ (s.noteOffs ≠ 0 ∧ t.noteOffs = s.noteOffs - 1)) := by
  obtain ⟨_, s2, s3, s4, s5, h2, h3, h4, h5, h7⟩ := tickActive_cases h
  obtain ⟨hon, hoff⟩ := datapath_gates h5 h7
  obtain ⟨_, hon4, hoff4⟩ := boundaryStep_frame h4
  obtain ⟨_, hon3⟩ := consumeNoteOff_frame h3
  obtain ⟨_, hoff2⟩ := consumeNoteOn_frame h2
  refine ⟨?_, ?_⟩
  · rw [hon, hon4, hon3, consumeNoteOn_noteOns h2]
  · rw [hoff, hoff4, ← hoff2]
    exact consumeNoteOff_noteOffs h3

end

/-- Settles O25: a tick that ends early leaves both counters; one that does not has passed the test of a pending note-on. -/
theorem tickConsumesGateEdges : Obligations.TickConsumesGateEdges := by
  intro s t arg h
  have hpending : s.tickRuns = true → s.segment.toInt = -1 → s.noteOns ≠ 0 := fun hr hs =>
    ((State.tickRuns_iff.mp hr).2 (toInt_eq_neg_one_iff.mp hs)).1
  rcases tick_cases h with ⟨hv, rfl⟩ | ⟨_, hs, hnone, rfl⟩ | ⟨hv, hgo, ht⟩
  · have hends : ¬ s.tickRuns = true := fun hr => absurd ((State.tickRuns_iff.mp hr).1.symm.trans hv) (by decide)
    exact ⟨(if_neg fun hr => hends hr.1).symm, .inl rfl, hpending⟩
  · have hends : ¬ s.tickRuns = true := fun hr =>
      have hready := (State.tickRuns_iff.mp hr).2 hs
      hnone.elim hready.1 hready.2
    exact ⟨(if_neg fun hr => hends hr.1).symm, .inl rfl, hpending⟩
  · have hruns : s.tickRuns = true := State.tickRuns_iff.mpr ⟨hv, hgo⟩
    obtain ⟨hon, hoff⟩ := tickActive_gates ht
    refine ⟨?_, hoff.imp_right fun hc => ⟨hruns, hc⟩, hpending⟩
    simp only [hon, hruns, true_and, toInt_eq_neg_one_iff]

end Sys2Proof.Machine
end

section
/-! PROOFS. What shows from outside (10_state.md R42, R44, 60_exceptions.md R252): `STATUS` over one instruction, and `LIVE` bit by
bit. -/

namespace Sys2Proof.Machine

/-! ### `STATUS` -/

theorem tick_status {N : Numerics} {cmd : Command} {s t : State} (h : tick N cmd s = .next t) :
    t.status = s.status ∨ t.status = statusSet s.status .E_NODB := by
  rcases tick_cases h with ⟨_, rfl⟩ | ⟨_, _, _, rfl⟩ | ⟨_, _, h⟩
  · exact .inr rfl
  · exact .inl rfl
  · exact .inl (tickActive_sameButTick h).status

/-- Everything an instruction can do to `STATUS`: nothing, one report, or, for `CLRERR` alone, a clearing. -/
theorem exec_status {i : Instr} {s t : State} (h : exec i s = .next t) :
    t.status = s.status ∨ (∃ e, t.status = statusSet s.status e) ∨
      (∃ arg, i = .clrerr arg ∧ t.status = statusClear s.status (maskStatusBits (maskOperand arg))) := by
  cases i with
  | tick arg => exact (tick_status h).imp_right fun hs => .inl ⟨_, hs⟩
  | setfreq arg =>
    rw [← Result.next_inj h]
    exact .inl rfl
  | queue arg =>
    rcases execQueue_cases h with ⟨_, rfl⟩ | ⟨_, _, _, rfl⟩ | ⟨_, _, _, rfl⟩
    · exact .inr (.inl ⟨_, rfl⟩)
    · exact .inr (.inl ⟨_, rfl⟩)
    · exact .inl rfl
  | noteon arg =>
    rcases execNoteon_cases h with ⟨_, rfl⟩ | ⟨_, rfl⟩
    · exact .inr (.inl ⟨_, rfl⟩)
    · exact .inl rfl
  | noteoff arg =>
    rcases execNoteoff_cases h with ⟨_, rfl⟩ | ⟨_, rfl⟩
    · exact .inr (.inl ⟨_, rfl⟩)
    · exact .inl rfl
  | clrerr arg =>
    have ht : s.clearErrors (maskOperand arg) = t := Result.next_inj h
    rw [State.clearErrors_eq] at ht
    exact .inr (.inr ⟨arg, rfl, congrArg State.status ht.symm⟩)
  | setfshift | setpspeed | illegal80 | illegal40 | illegal20 | illegal10 | illegal08 =>
    exact .inr (.inl ⟨_, congrArg State.status (Result.next_inj h).symm⟩)

/-- Settles O50: by what the instruction does to `STATUS`; a report only sets a bit, and the bit of a cause. -/
theorem statusBitsAreSticky : Obligations.StatusBitsAreSticky := by
  intro i s t k h
  rcases exec_status h with hs | ⟨e, hs⟩ | ⟨arg, rfl, hs⟩ <;> rw [hs]
  · exact ⟨fun _ hset => hset, fun _ hclear => hclear⟩
  · exact ⟨fun _ hset => by rw [getLsbD_statusSet, hset, Bool.true_or],
      fun hk hclear => (getLsbD_statusSet_reserved s.status e hk).trans hclear⟩
  · exact ⟨fun hne => absurd rfl (hne arg), fun _ hclear => getLsbD_statusClear_of_clear _ hclear⟩

/-! ### `LIVE` -/

/-- A word of two zeros and six bits, bit by bit. -/
theorem getLsbD_sixBits : ∀ b5 b4 b3 b2 b1 b0 : Bool,
    let v : BitVec 8 := 0#2 ++ BitVec.ofBool b5 ++ BitVec.ofBool b4 ++ BitVec.ofBool b3 ++ BitVec.ofBool b2
      ++ BitVec.ofBool b1 ++ BitVec.ofBool b0
    v.getLsbD 0 = b0 ∧ v.getLsbD 1 = b1 ∧ v.getLsbD 2 = b2 ∧ v.getLsbD 3 = b3 ∧ v.getLsbD 4 = b4 ∧ v.getLsbD 5 = b5 ∧
      v.getLsbD 6 = false ∧ v.getLsbD 7 = false := by decide

theorem State.isActive_eq (s : State) : s.isActive = decide (s.segment.toInt ≠ -1) := by
  simp [State.isActive, toInt_eq_neg_one_iff, bne, beq_eq_decide]

theorem State.queueEmpty_eq (s : State) : s.queue.isEmpty = decide (s.queue.length = 0) := by
  cases s.queue <;> rfl

/-- R44: a queue of infinite capacity is never full. -/
theorem State.queueFull_eq (s : State) : s.queueFull = decide (s.qdepth = some s.queue.length) := by
  unfold State.queueFull
  cases s.qdepth with
  | none => rfl
  | some d => simp [eq_comm, beq_eq_decide]

theorem State.grainsActive_iff (s : State) : s.grainsActive = true ↔ ∃ g ∈ s.pool, g.active = true :=
  List.any_eq_true

/-- Settles O53: each bit is the flag `State.live` puts there, and each flag says what R44 says. -/
theorem liveShowsTheState : Obligations.LiveShowsTheState := by
  intro s
  obtain ⟨h0, h1, h2, h3, h4, h5, h6, h7⟩ := getLsbD_sixBits s.inputs.db.valid s.grainsActive (s.crossfade != 0)
    s.queueFull s.queue.isEmpty s.isActive
  refine ⟨h0.trans s.isActive_eq, h1.trans s.queueEmpty_eq, h2.trans s.queueFull_eq, h3.trans ?_, ?_, h5, h6, h7⟩
  · simp [bne, beq_eq_decide]
  · rw [← s.grainsActive_iff]
    exact (congrArg (· = true) h4).to_iff

end Sys2Proof.Machine
end

section
/-! PROOFS. The memory spaces: no command writes them (10_state.md R46, 20_memory.md R81), what a voice file the loader accepts
gives (20_memory.md R67, R71, R77, R78), and the host's lookups by name (R79). -/

namespace Sys2Proof.Machine

/-! ### No command writes memory -/

/-- Settles O18: the wavetable is part of the inputs, and no command writes the setting. -/
theorem noInstructionWritesMemory : Obligations.NoInstructionWritesMemory := by
  intro i s t h
  have hs := exec_sameSetting h
  exact ⟨fun a => by rw [hs.inputs], hs.inputs, hs.qdepth, hs.poolSize, hs.port, hs.resetAsserted⟩

/-! ### The loader -/

/-- Everything an accepted voice file says: the parts of R70 follow one another, and the database is built of them (R77). -/
theorem loadVoiceFile_cases {file : List Byte} {v : VoiceFile} (h : loadVoiceFile file = some v) :
    file.take 12 = magicWord ∧ ∃ rate grain records r1 r2 r3 wave,
      takeInt32 (file.drop 12) = some (rate, r1) ∧ takeInt32 r1 = some (grain, r2) ∧
      takePhonemes file.length r2 = some (v.phonemes, r3) ∧ takeSegments file.length r3 = some (records, wave) ∧
      buildDatabase rate grain records wave = some v.db ∧ v.segmentNames = records.map SegRecord.name := by
  unfold loadVoiceFile at h
  split at h
  · cases h
  · rename_i hmagic
    refine ⟨not_not.mp hmagic, ?_⟩
    split at h
    · cases h
    · rename_i rate r1 hrate
      split at h
      · cases h
      · rename_i grain r2 hgrain
        split at h
        · cases h
        · rename_i phonemes r3 hphonemes
          split at h
          · cases h
          · rename_i records wave hrecords
            split at h
            · cases h
            · rename_i db hdb
              cases h
              exact ⟨rate, grain, records, r1, r2, r3, wave, hrate, hgrain, hphonemes, hrecords, hdb, rfl⟩

theorem loadedDatabase_of_failure {file : List Byte} (h : loadVoiceFile file = none) :
    loadedDatabase file = Database.zeroed := by
  rw [loadedDatabase, h]

/-- R278: a database built of records with a frame each is well-formed; the single pass packs it, and the remainder of the
file fills `WT` exactly. -/
theorem buildDatabase_wellFormed {rate grain : Int} {records : List SegRecord} {wave : List Byte} {db : Database}
    (h : buildDatabase rate grain records wave = some db) (hframes : ∀ r ∈ records, 1 ≤ r.numFrames) :
    db.wellFormed = true := by
  obtain ⟨hrate, hgrain, hcount, hfit, hwave, rfl⟩ := buildDatabase_cases h
  have hseg : ∀ d ∈ placeSegments grain.toNat 0 records, 1 ≤ d.numFrames := fun d hd => by
    obtain ⟨r, hr, hd, _⟩ := mem_placeSegments hd
    exact hd ▸ hframes r hr
  have hpacked : packedFrom grain.toNat 0 (placeSegments grain.toNat 0 records) = true :=
    packedFrom_placeSegments grain.toNat 0 records (by rwa [Nat.zero_add])
  have haddresses : (Memory.ofBytes 0 wave).map Prod.fst =
      List.range (2 * totalSamples grain.toNat (placeSegments grain.toNat 0 records)) := by
    rw [Memory.ofBytes_addresses, hwave, List.range_eq_range']
  exact Database.wellFormed_iff.mpr ⟨by simp only; omega, by simp only; omega, hcount, placeSegments_length _ _ _, hseg,
    hpacked, rfl, hfit, Memory.ofBytes_wf _ _, haddresses⟩

/-- Settles O56: the records of an accepted file have a frame each, so the database built of them meets R278. -/
theorem loaderGivesWellFormedDatabase : Obligations.LoaderGivesWellFormedDatabase := by
  refine fun file => ⟨fun v h => ?_, loadedDatabase_of_failure⟩
  obtain ⟨_, rate, grain, records, _, _, _, wave, _, _, _, hrecords, hdb, hnames⟩ := loadVoiceFile_cases h
  refine ⟨buildDatabase_wellFormed hdb (takeSegments_numFrames hrecords), ?_⟩
  obtain ⟨_, _, _, _, _, hdb⟩ := buildDatabase_cases hdb
  rw [hdb, hnames]
  exact ⟨rfl, List.length_map _⟩

/-- Settles O57: every file the loader accepts begins with the magic word. -/
theorem badMagicIsALoadFailure : Obligations.BadMagicIsALoadFailure := by
  intro file hmagic
  cases h : loadVoiceFile file with
  | none => rfl
  | some v => exact absurd (loadVoiceFile_cases h).1 hmagic

/-! ### The lookups by name (R79) -/

/-- The index found for a name of the table is that of its first occurrence. -/
theorem indexOfName_of_mem {name : ByteName} {names : List ByteName} (h : name ∈ names) (i : Int) :
    indexOfName name i names = i + names.idxOf name := by
  induction names generalizing i with
  | nil => cases h
  | cons n ns ih =>
    by_cases hn : n = name
    · simp [indexOfName, hn]
    · have hmem : name ∈ ns := (List.mem_cons.mp h).resolve_left (Ne.symm hn)
      rw [indexOfName, if_neg hn, ih hmem, List.idxOf_cons_ne _ hn]
      omega

theorem indexOfName_of_not_mem {name : ByteName} {names : List ByteName} (h : name ∉ names) (i : Int) :
    indexOfName name i names = -1 := by
  induction names generalizing i with
  | nil => rfl
  | cons n ns ih =>
    rw [List.mem_cons, not_or] at h
    rw [indexOfName, if_neg (Ne.symm h.1), ih h.2]

theorem nameAtIndex_of_getElem? {names : List ByteName} {k : Nat} {name : ByteName} (h : names[k]? = some name) :
    nameAtIndex names k = .ok name := by
  simp [nameAtIndex, h]

/-- The inverse lookup gives a name of the table back, whichever table it is. -/
theorem nameAtIndex_indexOfName {name : ByteName} {names : List ByteName} (h : name ∈ names) :
    nameAtIndex names (indexOfName name 0 names) = .ok name := by
  rw [indexOfName_of_mem h, Int.zero_add]
  exact nameAtIndex_of_getElem? (List.getElem?_idxOf h)

/-- Settles O58: both tables are looked up by the same two functions. -/
theorem nameLookupRoundTrips : Obligations.NameLookupRoundTrips := fun _ _ =>
  ⟨nameAtIndex_indexOfName, nameAtIndex_indexOfName, fun h => indexOfName_of_not_mem h 0⟩

end Sys2Proof.Machine
end

section
/-! PROOFS. The encoding (30_encoding.md R102 to R109): encoding reaches every word, the opcode table has one row for each, and
the operand of `SETFREQ`. -/

namespace Sys2Proof

/-! ### Every word is the word of an instruction -/

/-- R104: an opcode is one of the eight assigned ones or passes the test of an `ILLEGAL` row. -/
theorem opcode_cases : ∀ op : Opcode,
    op = 0x00#8 ∨ op = 0x01#8 ∨ op = 0x02#8 ∨ op = 0x03#8 ∨ op = 0x04#8 ∨ op = 0x05#8 ∨ op = 0x06#8 ∨ op = 0x07#8 ∨
      op &&& 0x80#8 = 0x80#8 ∨ op &&& 0xC0#8 = 0x40#8 ∨ op &&& 0xE0#8 = 0x20#8 ∨ op &&& 0xF0#8 = 0x10#8 ∨
      op &&& 0xF8#8 = 0x08#8 := by decide

theorem exists_wellFormed_encode_eq_mkCommand (op : Opcode) (arg : Arg) :
    ∃ i : Instr, i.wellFormed = true ∧ encode i = mkCommand op arg := by
  rcases opcode_cases op with rfl | rfl | rfl | rfl | rfl | rfl | rfl | rfl | h | h | h | h | h
  · exact ⟨.tick arg, rfl, rfl⟩
  · exact ⟨.setfreq arg, rfl, rfl⟩
  · exact ⟨.queue arg, rfl, rfl⟩
  · exact ⟨.noteon arg, rfl, rfl⟩
  · exact ⟨.noteoff arg, rfl, rfl⟩
  · exact ⟨.clrerr arg, rfl, rfl⟩
  · exact ⟨.setfshift arg, rfl, rfl⟩
  · exact ⟨.setpspeed arg, rfl, rfl⟩
  · exact ⟨.illegal80 op arg, beq_iff_eq.mpr h, rfl⟩
  · exact ⟨.illegal40 op arg, beq_iff_eq.mpr h, rfl⟩
  · exact ⟨.illegal20 op arg, beq_iff_eq.mpr h, rfl⟩
  · exact ⟨.illegal10 op arg, beq_iff_eq.mpr h, rfl⟩
  · exact ⟨.illegal08 op arg, beq_iff_eq.mpr h, rfl⟩

/-- R102, R104: encoding the well-formed instructions reaches every word. -/
theorem exists_wellFormed_encode_eq (w : Command) : ∃ i : Instr, i.wellFormed = true ∧ encode i = w := by
  rw [← mkCommand_opcodeOf_argOf w]
  exact exists_wellFormed_encode_eq_mkCommand _ _

theorem decode_wellFormed (w : Command) : (decode w).wellFormed = true := by
  obtain ⟨i, hi, rfl⟩ := exists_wellFormed_encode_eq w
  rwa [decode_encode hi]

theorem encode_decode (w : Command) : encode (decode w) = w := by
  obtain ⟨i, hi, rfl⟩ := exists_wellFormed_encode_eq w
  rw [decode_encode hi]

/-- Settles O1: row by row, the opcode of the instruction's word names the row. -/
theorem decodeEncodeAgree : Obligations.DecodeEncodeAgree := fun _ => decode_encode

/-- Settles O2: the word is some well-formed instruction's, and decoding gives that instruction back. -/
theorem encodeDecodeAgree : Obligations.EncodeDecodeAgree := fun w => ⟨decode_wellFormed w, encode_decode w⟩

/-! ### The opcode map (R105) -/

theorem decodeIllegal_mnemonic (op : Opcode) (arg : Arg) : (decodeIllegal op arg).mnemonic = .ILLEGAL := by
  unfold decodeIllegal
  repeat' split
  all_goals rfl

/-- Settles O3: an assigned opcode decodes to the instruction it is the word of, any other to an `ILLEGAL` row. -/
theorem decodeFollowsOpcodeMap : Obligations.DecodeFollowsOpcodeMap := fun arg =>
  ⟨decode_encode (i := .tick arg) rfl, decode_encode (i := .setfreq arg) rfl, decode_encode (i := .queue arg) rfl,
    decode_encode (i := .noteon arg) rfl, decode_encode (i := .noteoff arg) rfl, decode_encode (i := .clrerr arg) rfl,
    decode_encode (i := .setfshift arg) rfl, decode_encode (i := .setpspeed arg) rfl,
    fun op h => (congrArg Instr.mnemonic (decode_mkCommand_of_unassigned h arg)).trans (decodeIllegal_mnemonic op arg)⟩

/-! ### The opcode table -/

/-- The word of every well-formed instruction has a row of the table, by the family `TableRow`. -/
theorem exists_row_of_wellFormed (i : Instr) : Laws.TableRow.Statement i := by
  cases i with
  | tick arg => exact Laws.TableRow.tick arg
  | setfreq arg => exact Laws.TableRow.setfreq arg
  | queue arg => exact Laws.TableRow.queue arg
  | noteon arg => exact Laws.TableRow.noteon arg
  | noteoff arg => exact Laws.TableRow.noteoff arg
  | clrerr arg => exact Laws.TableRow.clrerr arg
  | setfshift arg => exact Laws.TableRow.setfshift arg
  | setpspeed arg => exact Laws.TableRow.setpspeed arg
  | illegal80 op arg => exact Laws.TableRow.illegal80 op arg
  | illegal40 op arg => exact Laws.TableRow.illegal40 op arg
  | illegal20 op arg => exact Laws.TableRow.illegal20 op arg
  | illegal10 op arg => exact Laws.TableRow.illegal10 op arg
  | illegal08 op arg => exact Laws.TableRow.illegal08 op arg

/-- Two rows that accept one word agree on the bits both look at. -/
theorem OpcodeRow.overlap_of_accepts {r r' : OpcodeRow} {w : Command} (h : r.accepts w = true)
    (h' : r'.accepts w = true) : r.matchBits &&& r'.mask = r'.matchBits &&& r.mask := by
  rw [← eq_of_beq h, ← eq_of_beq h', BitVec.and_assoc, BitVec.and_assoc, BitVec.and_comm r.mask]

/-- R104: any two rows of the table differ in a bit that both look at. -/
theorem opcodeTable_pairwise :
    opcodeTable.Pairwise fun r r' => r.matchBits &&& r'.mask ≠ r'.matchBits &&& r.mask := by decide

/-- A filter of a list in which no two places pass it keeps the one element known to pass. -/
theorem filter_eq_singleton_of_pairwise {α : Type} {p : α → Bool} {l : List α} {a : α} (ha : a ∈ l) (hp : p a = true)
    (hl : l.Pairwise fun x y => ¬ (p x = true ∧ p y = true)) : l.filter p = [a] := by
  induction l with
  | nil => cases ha
  | cons x xs ih =>
    obtain ⟨hx, hxs⟩ := List.pairwise_cons.mp hl
    rcases List.mem_cons.mp ha with rfl | hmem
    · have hnone : xs.filter p = [] := List.filter_eq_nil_iff.mpr fun y hy hpy => hx y hy ⟨hp, hpy⟩
      rw [List.filter_cons_of_pos hp, hnone]
    · rw [List.filter_cons_of_neg fun hpx => hx a hmem ⟨hpx, hp⟩, ih hmem hxs]

/-- Settles O4: the decoded instruction has a row, and no word passes the tests of two rows. -/
theorem everyWordHasOneTableRow : Obligations.EveryWordHasOneTableRow := by
  intro w
  obtain ⟨r, hr, hname, haccepts⟩ := exists_row_of_wellFormed (decode w) (decode_wellFormed w)
  rw [encode_decode] at haccepts
  have hdisjoint : opcodeTable.Pairwise fun r r' => ¬ (r.accepts w = true ∧ r'.accepts w = true) :=
    opcodeTable_pairwise.imp fun hne hboth => hne (OpcodeRow.overlap_of_accepts hboth.1 hboth.2)
  rw [filter_eq_singleton_of_pairwise hr haccepts hdisjoint, List.map_singleton, hname]

/-! ### The operand of `SETFREQ` (R109) -/

/-- An argument is its high half times 65536 plus its low half. -/
theorem arg_toNat_eq_halves (arg : Arg) :
    arg.toNat = (arg.extractLsb' 16 16).toNat * 65536 + (arg.extractLsb' 0 16).toNat := by
  have := arg.isLt
  simp only [BitVec.extractLsb'_toNat, Nat.shiftRight_eq_div_pow]
  omega

/-- Settles O7: 16.16 fixed point, the largest argument being `2^32 - 1`. -/
theorem freqOperandIsFixedPoint : Obligations.FreqOperandIsFixedPoint := by
  intro arg
  have hmax : (arg.toNat : Rat) ≤ 4294967295 := by exact_mod_cast Nat.le_pred_of_lt arg.isLt
  refine ⟨rfl, ?_, (Machine.freqOperand_range arg).1, ?_⟩
  · rw [Machine.freqOperand, arg_toNat_eq_halves]
    push_cast
    ring
  · unfold Machine.freqOperand
    linarith

end Sys2Proof
end

section
/-! PROOFS. Ignored bits (30_encoding.md R108): what two commands do that differ in the word they record at most. -/

namespace Sys2Proof.Machine

/-! ### The same effect -/

theorem State.sameButRecord_refl (s : State) : s.sameButRecord s := ⟨rfl, rfl, rfl⟩

/-- R43: one cause, reported for two words, differs in the word recorded alone. -/
theorem State.raise_sameButRecord (s : State) (e : ErrorCause) (cmd cmd' : Command) :
    (s.raise e cmd).sameButRecord (s.raise e cmd') := by
  refine ⟨rfl, ?_, ?_⟩ <;> simp only [State.raise_lasterr]
  · rw [lasterrValid_record, lasterrValid_record]
  · rw [lasterrCode_record, lasterrCode_record]

theorem State.sameButRecord.setSample {t t' : State} (h : t.sameButRecord t') (v : BitVec 32) :
    (t.setSample v).sameButRecord (t'.setSample v) := by
  obtain ⟨ht, hvalid, hcode⟩ := h
  exact ⟨congrArg (State.setSample · v) ht, hvalid, hcode⟩

theorem sameEffect_refl (r : Result State) : sameEffect r r := fun t h => ⟨t, h, t.sameButRecord_refl⟩

theorem sameEffect_next {t t' : State} (h : t.sameButRecord t') : sameEffect (.next t) (.next t') := by
  intro u hu
  rw [← Result.next_inj hu]
  exact ⟨t', rfl, h⟩

theorem sameEffect_raise (s : State) (e : ErrorCause) (cmd cmd' : Command) :
    sameEffect (.next (s.raise e cmd)) (.next (s.raise e cmd')) :=
  sameEffect_next (s.raise_sameButRecord e cmd cmd')

/-- Two commands that take the same branch and have the same effect in it. -/
theorem sameEffect_ite {c : Prop} [Decidable c] {r₁ r₂ r₁' r₂' : Result State} (h : sameEffect r₁ r₁')
    (h' : sameEffect r₂ r₂') : sameEffect (if c then r₁ else r₂) (if c then r₁' else r₂') := by
  split
  · exact h
  · exact h'

/-! ### The commands with ignored bits -/

/-- R157: only the report of a missing database reads the word. -/
theorem tick_sameEffect (N : Numerics) (cmd cmd' : Command) (s : State) :
    sameEffect (tick N cmd s) (tick N cmd' s) :=
  sameEffect_ite (sameEffect_next ((s.raise_sameButRecord .E_NODB cmd cmd').setSample _)) (sameEffect_refl _)

theorem execNoteon_sameEffect (a b : Arg) (s : State) : sameEffect (execNoteon a s) (execNoteon b s) :=
  sameEffect_ite (sameEffect_raise _ _ _ _) (sameEffect_refl _)

theorem execNoteoff_sameEffect (a b : Arg) (s : State) : sameEffect (execNoteoff a s) (execNoteoff b s) :=
  sameEffect_ite (sameEffect_raise _ _ _ _) (sameEffect_refl _)

/-- R227: an illegal opcode is reported, in whichever row it is. -/
theorem exec_decodeIllegal (op : Opcode) (arg : Arg) (s : State) :
    exec (decodeIllegal op arg) s = .next (s.raise .E_ILLCMD (mkCommand op arg)) := by
  unfold decodeIllegal
  repeat' split
  all_goals rfl

theorem exec_unassigned_sameEffect {op : Opcode} (h : 8 ≤ op.toNat) (a b : Arg) (s : State) :
    sameEffect (exec (decode (mkCommand op a)) s) (exec (decode (mkCommand op b)) s) := by
  rw [decode_mkCommand_of_unassigned h, decode_mkCommand_of_unassigned h, exec_decodeIllegal, exec_decodeIllegal]
  exact sameEffect_raise _ _ _ _

/-- R111: the mask of `CLRERR` is the part of the argument that format M reads. -/
theorem maskOperand_and (arg : Arg) : maskOperand (arg &&& 0x1FF#32) = maskOperand arg := by
  have hmask : (0x1FF#32).extractLsb' 0 9 = BitVec.allOnes 9 := by decide
  rw [maskOperand, maskOperand, BitVec.extractLsb'_and, hmask, BitVec.and_allOnes]

/-- Settles O6: a command with ignored bits reads its argument only to record its word; `CLRERR` reads its mask alone. -/
theorem ignoredBitsHaveNoEffect : Obligations.IgnoredBitsHaveNoEffect := by
  intro s a b
  refine ⟨tick_sameEffect _ _ _ s, execNoteon_sameEffect a b s, execNoteoff_sameEffect a b s, sameEffect_raise _ _ _ _,
    sameEffect_raise _ _ _ _, fun op h => exec_unassigned_sameEffect h a b s, fun hmask => ?_⟩
  show execClrerr a s = execClrerr b s
  rw [execClrerr, execClrerr, ← maskOperand_and a, hmask, maskOperand_and]

end Sys2Proof.Machine
end

section
/-! PROOFS. The disassembler (30_encoding.md R114, R116): its line assembles to the word of the same command, and its text reads
back as its line. -/

namespace Sys2Proof.Machine

/-! ### The lines -/

theorem asmArg_toNat (op : Opcode) (arg : Arg) : asmArg op arg.toNat = some (mkCommand op arg) := by
  rw [asmArg, if_pos arg.isLt, BitVec.ofNat_toNat, BitVec.setWidth_eq]

theorem asmQueue_toInt (arg : Arg) : asmQueue arg.toInt = some (mkCommand 0x02#8 arg) := by
  have hrange : -2 ^ 31 ≤ arg.toInt ∧ arg.toInt < 2 ^ 31 := ⟨BitVec.le_toInt arg, BitVec.toInt_lt⟩
  rw [asmQueue, if_pos hrange, BitVec.ofInt_toInt]

/-- `.word` of a word is the word (R115). -/
theorem words_word_toNat (w : Command) : (AsmLine.word w.toNat).words = some [w] := by
  rw [AsmLine.words, if_pos w.isLt, BitVec.ofNat_toNat, BitVec.setWidth_eq]

/-- A mask has nine bits (R111). -/
theorem mask_le (arg : Arg) : (arg &&& 0x1FF#32).toNat ≤ 0x1FF := by
  rw [BitVec.toNat_and]
  exact Nat.and_le_right

theorem words_clrerr_mask (arg : Arg) :
    (AsmLine.clrerr (arg &&& 0x1FF#32).toNat).words = some [mkCommand 0x05#8 (arg &&& 0x1FF#32)] := by
  rw [AsmLine.words, if_pos (mask_le arg), BitVec.ofNat_toNat, BitVec.setWidth_eq]

/-- Settles O59: by the instruction the word decodes to; an illegal word's line is the word itself. -/
theorem disassembledLineAssembles : Obligations.DisassembledLineAssembles := by
  intro w
  have hw := encode_decode w
  unfold disassemble
  cases h : decode w with
  | tick | noteon | noteoff | setfshift | setpspeed => rfl
  | setfreq arg => exact congrArg (Option.map fun v => [v]) (asmArg_toNat 0x01#8 arg)
  | queue arg => exact congrArg (Option.map fun v => [v]) (asmQueue_toInt arg)
  | clrerr arg => exact words_clrerr_mask arg
  | illegal80 | illegal40 | illegal20 | illegal10 | illegal08 =>
    rw [h] at hw
    exact (words_word_toNat w).trans (congrArg (fun v => some [v]) hw.symm)

/-! ### Printed numbers -/

theorem isPlain_digitChar {d : Nat} (h : d < 16) : isPlain (digitChar d) := by
  obtain ⟨hspace, htab, hcr, hhash, _, _⟩ := digitChar_ne d h
  exact ⟨hspace, htab, hcr, hhash⟩

theorem isPlain_printDecimal {k n : Nat} : ∀ c ∈ printDecimal k n, isPlain c := by
  intro c hc
  obtain ⟨d, hd, rfl⟩ := mem_printDecimal hc
  exact isPlain_digitChar hd

theorem isPlain_printHex {k n : Nat} : ∀ c ∈ printHex k n, isPlain c := by
  intro c hc
  rcases List.mem_cons.mp hc with rfl | hc
  · unfold isPlain; decide
  rcases List.mem_cons.mp hc with rfl | hc
  · unfold isPlain; decide
  obtain ⟨d, hd, rfl⟩ := mem_printDigits (by decide) le_rfl hc
  exact isPlain_digitChar hd

/-- A hexadecimal number of at least one digit reads back. -/
theorem readNumber_printHex {k n : Nat} (h : n < 16 ^ (k + 1)) : readNumber (printHex (k + 1) n) = some n := by
  have hread := readDigits_printDigits (by decide) le_rfl h
  unfold printHex
  cases hd : printDigits 16 (k + 1) n with
  | nil => simp [printDigits] at hd
  | cons c cs => rwa [hd] at hread

theorem readDecimal_printDecimal {k n : Nat} (h : n < 10 ^ (k + 1)) : readDecimal (printDecimal k n) = some n := by
  have hread := readDigits_printDecimal h
  cases hd : printDecimal k n with
  | nil => exact absurd hd (printDecimal_ne_nil k n)
  | cons c cs => rwa [hd] at hread

/-- A text without a sign reads as a decimal number. -/
theorem readInteger_of_unsigned {cs : List Char} (h : '-' ∉ cs) :
    readInteger cs = (readDecimal cs).map fun n => (n : Int) := by
  unfold readInteger
  split
  · simp at h
  · rfl

theorem minus_not_mem_printDecimal (k n : Nat) : '-' ∉ printDecimal k n := by
  intro hc
  obtain ⟨d, hd, heq⟩ := mem_printDecimal hc
  obtain ⟨_, _, _, _, _, hminus⟩ := digitChar_ne d hd
  exact hminus heq.symm

/-- The operand of a `queue` line, as the disassembler prints it. -/
def printInteger (i : Int) : List Char := if i < 0 then '-' :: printDecimal 9 i.natAbs else printDecimal 9 i.natAbs

theorem isPlain_printInteger {i : Int} : ∀ c ∈ printInteger i, isPlain c := by
  intro c hc
  unfold printInteger at hc
  split at hc
  · rcases List.mem_cons.mp hc with rfl | hc
    · unfold isPlain; decide
    · exact isPlain_printDecimal c hc
  · exact isPlain_printDecimal c hc

theorem printInteger_ne_nil (i : Int) : printInteger i ≠ [] := by
  unfold printInteger
  split
  · exact List.cons_ne_nil _ _
  · exact printDecimal_ne_nil _ _

/-- An integer of at most ten digits reads back, sign included. -/
theorem readInteger_printInteger {i : Int} (h : i.natAbs < 10 ^ 10) : readInteger (printInteger i) = some i := by
  have hread := readDecimal_printDecimal h
  unfold printInteger
  split
  · rename_i hneg
    simp [readInteger, hread, abs_of_neg hneg]
  · rename_i hnonneg
    simp [readInteger_of_unsigned (minus_not_mem_printDecimal _ _), hread, abs_of_nonneg (not_lt.mp hnonneg)]

theorem natAbs_toInt_lt (arg : Arg) : arg.toInt.natAbs < 10 ^ 10 := by
  have hlo : -2 ^ 31 ≤ arg.toInt := BitVec.le_toInt arg
  have hhi : arg.toInt < 2 ^ 31 := BitVec.toInt_lt
  omega

/-! ### The texts -/

/-- A line of a mnemonic and one operand, once the operand is read. -/
theorem assembleLine_of_readCommand {m t : List Char} {l : AsmLine} (hm : ∀ c ∈ m, isPlain c) (ht : ∀ c ∈ t, isPlain c)
    (hm0 : m ≠ []) (ht0 : t ≠ []) (h : readCommand (m.map lowerChar) [t] = some l) :
    assembleLine (m ++ ' ' :: t) = l.words := by
  rw [assembleLine_two hm ht hm0 ht0, h]

theorem assembleLine_setfreqRaw (arg : Arg) :
    assembleLine (['s', 'e', 't', 'f', 'r', 'e', 'q', '.', 'r', 'a', 'w'] ++ ' ' :: printHex 8 arg.toNat) =
      (AsmLine.setfreqRaw arg.toNat).words := by
  refine assembleLine_of_readCommand (by simp [isPlain]) isPlain_printHex (by decide) (List.cons_ne_nil _ _) ?_
  refine (readCommand_setfreqRaw _).trans ?_
  rw [readNumber_printHex arg.isLt, Option.map_some]

theorem assembleLine_queue (arg : Arg) :
    assembleLine (['q', 'u', 'e', 'u', 'e'] ++ ' ' :: printInteger arg.toInt) = (AsmLine.queue arg.toInt).words := by
  refine assembleLine_of_readCommand (by simp [isPlain]) isPlain_printInteger (by decide) (printInteger_ne_nil _) ?_
  refine (readCommand_queue _).trans ?_
  rw [readInteger_printInteger (natAbs_toInt_lt arg), Option.map_some]

theorem assembleLine_clrerr {mask : Nat} (h : mask ≤ 0x1FF) :
    assembleLine (['c', 'l', 'r', 'e', 'r', 'r'] ++ ' ' :: printHex 3 mask) = (AsmLine.clrerr mask).words := by
  refine assembleLine_of_readCommand (by simp [isPlain]) isPlain_printHex (by decide) (List.cons_ne_nil _ _) ?_
  refine (readCommand_clrerr _).trans ?_
  rw [readNumber_printHex (by omega), Option.map_some]

theorem assembleLine_word (w : Command) :
    assembleLine (['.', 'w', 'o', 'r', 'd'] ++ ' ' :: printHex 10 w.toNat) = (AsmLine.word w.toNat).words := by
  refine assembleLine_of_readCommand (by simp [isPlain]) isPlain_printHex (by decide) (List.cons_ne_nil _ _) ?_
  refine (readCommand_word _).trans ?_
  rw [readNumber_printHex w.isLt, Option.map_some]

/-- R116: the text of a word assembles as its line does. -/
theorem assembleLine_disassembleText (w : Command) : assembleLine (disassembleText w) = (disassemble w).words := by
  unfold disassembleText disassemble
  cases decode w with
  | tick | noteon | noteoff | setfshift | setpspeed => rfl
  | setfreq arg => exact assembleLine_setfreqRaw arg
  | queue arg => exact assembleLine_queue arg
  | clrerr arg => exact assembleLine_clrerr (mask_le arg)
  | illegal80 | illegal40 | illegal20 | illegal10 | illegal08 => exact assembleLine_word w

/-- Settles O60: the text assembles as the line does, and the line to the command's word. -/
theorem disassembledTextAssembles : Obligations.DisassembledTextAssembles := fun w =>
  (assembleLine_disassembleText w).trans (disassembledLineAssembles w)

end Sys2Proof.Machine
end

section
/-! PROOFS. The grain unit (40_grain.md): the whole life of a one-source slot (R132, R134), and the bounds of the two-source mix
(R133). -/

namespace Sys2Proof.Machine

/-! ### The life of a slot -/

/-- What a wavetable read answers (20_memory.md R65). -/
theorem Database.memRead_eq_next {db : Database} {a : Nat} {y : Int} :
    db.memRead a = .next y ↔ a < db.wtlen ∧ ∃ v, Memory.readSample db.wt a = some v ∧ v.toInt = y := by
  unfold Database.memRead
  split
  · rename_i ha
    split <;> rename_i hr <;> simp [ha, hr]
  · rename_i ha
    simp [ha]

/-- R132: with weight 0 a slot reads its first frame alone. -/
theorem grainSample_of_oneSource {N : Numerics} {db : Database} {g : Grain} {y : Int} (hmix : g.crossfadeMix = 0)
    (hread : db.memRead (g.offset1.toNat + g.readPosition) = .next y) : grainSample N db g = .next y := by
  rw [grainSample, hread, Result.andThen_next, if_pos hmix]

/-- R132: an active slot whose sample can be read emits it and advances. -/
theorem grainProcess_of_active {N : Numerics} {db : Database} {g : Grain} {y : Int} (ha : g.active = true)
    (hy : grainSample N db g = .next y) : grainProcess N db g = .next (y, g.advance db.gl) := by
  rw [grainProcess, if_pos ha, hy, Result.andThen_next]

theorem playGrain_succ_of_next {N : Numerics} {db : Database} {k : Nat} {g g' g'' : Grain} {y : Int} {ys : List Int}
    (hfirst : grainProcess N db g = .next (y, g')) (hrest : playGrain N db k g' = .next (ys, g'')) :
    playGrain N db (k + 1) g = .next (y :: ys, g'') := by
  rw [playGrain, hfirst, Result.andThen_next, hrest, Result.andThen_next]

/-- An armed slot after `p` samples of its frame: active until `p` is `GL` (R132). -/
def Grain.atPosition (g : Grain) (gl p : Nat) : Grain := { g with active := decide (p ≠ gl), readPosition := p }

theorem Grain.atPosition_advance (g : Grain) (gl p : Nat) : (g.atPosition gl p).advance gl = g.atPosition gl (p + 1) := rfl

theorem Grain.atPosition_active {g : Grain} {gl p : Nat} (hp : p < gl) : (g.atPosition gl p).active = true :=
  decide_eq_true hp.ne

theorem Grain.atPosition_end (g : Grain) (gl : Nat) :
    g.atPosition gl gl = { g with active := false, readPosition := gl } := by
  simp [Grain.atPosition]

/-- A slot that has never been processed is the slot after no samples. -/
theorem Grain.atPosition_zero {g : Grain} {gl : Nat} (hgl : 1 ≤ gl) (ha : g.active = true) (hp : g.readPosition = 0) :
    g.atPosition gl 0 = g := by
  have hactive : decide (0 ≠ gl) = g.active := by rw [ha]; exact decide_eq_true (by omega)
  rw [Grain.atPosition, hactive, ← hp]

/-- R134, from any position on: the `n` samples left of the frame are emitted in order, and the slot is then at its end. -/
theorem playGrain_atPosition {N : Numerics} {db : Database} {g : Grain} (hwf : db.wellFormed = true)
    (hmix : g.crossfadeMix = 0) (hin : g.offset1.toNat + db.gl ≤ db.wtlen) {n p : Nat} (hn : p + n = db.gl) :
    ∃ ys : List Int, playGrain N db n (g.atPosition db.gl p) = .next (ys, g.atPosition db.gl db.gl) ∧ ys.length = n ∧
      ∀ k, k < n → ∃ v, Memory.readSample db.wt (g.offset1.toNat + (p + k)) = some v ∧ ys[k]? = some v.toInt := by
  induction n generalizing p with
  | zero =>
    obtain rfl : p = db.gl := hn
    exact ⟨[], rfl, rfl, fun k hk => absurd hk k.not_lt_zero⟩
  | succ n ih =>
    obtain ⟨y, hy⟩ := Database.memRead_of_wellFormed hwf (a := g.offset1.toNat + p) (by omega)
    obtain ⟨_, v, hv, rfl⟩ := Database.memRead_eq_next.mp hy
    obtain ⟨ys, hplay, hlen, hys⟩ := ih (p := p + 1) (by omega)
    have hfirst : grainProcess N db (g.atPosition db.gl p) = .next (v.toInt, g.atPosition db.gl (p + 1)) :=
      grainProcess_of_active (Grain.atPosition_active (by omega)) (grainSample_of_oneSource hmix hy)
    refine ⟨v.toInt :: ys, playGrain_succ_of_next hfirst hplay, congrArg Nat.succ hlen, fun k hk => ?_⟩
    cases k with
    | zero => exact ⟨v, hv, rfl⟩
    | succ k =>
      obtain ⟨w, hw, hk'⟩ := hys k (by omega)
      exact ⟨w, by rwa [Nat.add_right_comm] at hw, hk'⟩

/-- Settles O33: the slot starts at position 0 of its frame, with all `GL` samples left. -/
theorem grainPlaysItsWholeFrame : Obligations.GrainPlaysItsWholeFrame := by
  intro db g hwf ha hp hmix hin
  obtain ⟨_, hgl, _⟩ := Database.wellFormed_iff.mp hwf
  have hplay := playGrain_atPosition (N := hardwareNumerics) hwf hmix hin (Nat.zero_add db.gl)
  simpa only [Grain.atPosition_zero hgl ha hp, Grain.atPosition_end, Nat.zero_add] using hplay

/-! ### The two-source mix -/

/-- Truncation is toward zero: it never exceeds the exact value in magnitude (00_scope.md R11). -/
theorem abs_ratTrunc_le (v : Rat) : |(ratTrunc v : Rat)| ≤ |v| := by
  rcases le_or_gt 0 v with h | h
  · have hfloor : (0 : Rat) ≤ (⌊v⌋ : Int) := by exact_mod_cast Int.floor_nonneg.mpr h
    rw [ratTrunc_of_nonneg h, abs_of_nonneg hfloor, abs_of_nonneg h]
    exact Int.floor_le v
  · have hceil : ((⌈v⌉ : Int) : Rat) ≤ 0 := by exact_mod_cast Int.ceil_le.mpr (by exact_mod_cast h.le)
    rw [ratTrunc_of_neg h, abs_of_nonpos hceil, abs_of_neg h]
    exact neg_le_neg (Int.le_ceil v)

/-- R133: the weights are not negative and sum to 1, so the exact mean lies between its two sources. -/
theorem weightedMean_between (s1 s2 : Int) {m : Rat} (h0 : 0 ≤ m) (h1 : m ≤ 1) :
    ((min s1 s2 : Int) : Rat) ≤ s1 * (1 - m) + s2 * m ∧ (s1 : Rat) * (1 - m) + s2 * m ≤ (max s1 s2 : Int) := by
  have hw : 0 ≤ 1 - m := sub_nonneg.mpr h1
  have hsum : 1 - m + m = 1 := sub_add_cancel 1 m
  rw [mul_comm (s1 : Rat), mul_comm (s2 : Rat), Int.cast_min, Int.cast_max]
  exact ⟨Convex.min_le_combo (s1 : Rat) s2 hw h0 hsum, Convex.combo_le_max (s1 : Rat) s2 hw h0 hsum⟩

/-- R133: an admissible rounding keeps the integer bounds of the exact mean. -/
theorem grainMix_between {N : Numerics} (hN : N.Admissible) (s1 s2 : Int) {m : Rat} (h0 : 0 ≤ m) (h1 : m ≤ 1) :
    min s1 s2 ≤ grainMix N s1 s2 m ∧ grainMix N s1 s2 m ≤ max s1 s2 := by
  obtain ⟨hlower, hupper⟩ := weightedMean_between s1 s2 h0 h1
  exact ⟨hN.mixround_lower _ _ hlower, hN.mixround_upper _ _ hupper⟩

/-- 43_envelope_mixer.md R204: equal sources pass unchanged, for the result lies between them. -/
theorem grainMix_self {N : Numerics} (hN : N.Admissible) (s : Int) {m : Rat} (h0 : 0 ≤ m) (h1 : m ≤ 1) :
    grainMix N s s m = s := by
  obtain ⟨hlower, hupper⟩ := grainMix_between hN s s h0 h1
  rw [min_self] at hlower
  rw [max_self] at hupper
  exact le_antisymm hupper hlower

/-- Settles O34: the exact mean lies between its sources, admissible rounding keeps integer bounds, and this hardware's
rounding truncates. -/
theorem mixLiesBetweenItsSources : Obligations.MixLiesBetweenItsSources := by
  intro N s1 s2 m hN h0 h1
  obtain ⟨hlower, hupper⟩ := grainMix_between hN s1 s2 h0.le h1
  exact ⟨hlower, hupper, hN.mixround_near _, grainMix_self hN s1 h0.le h1, abs_ratTrunc_le _⟩

end Sys2Proof.Machine
end

section
/-! PROOFS. `TICK` from outside (41_tick_sequencer.md R150 to R152, R157, R158): it ends early or performs the steps 2 to 7,
told apart by `State.tickRuns` alone; a tick that ends early, any number of them, and the frame of every tick. -/

namespace Sys2Proof.Machine

section

variable {N : Numerics} {cmd : Command} {s t : State}

/-! ### When a tick ends early -/

/-- R151, R152, R157: the three early exits. -/
theorem State.tickRuns_eq_false_iff :
    s.tickRuns = false ↔ s.inputs.db.valid = false ∨ (s.segment = gapToken ∧ (s.noteOns = 0 ∨ s.queue = [])) := by
  rw [← Bool.not_eq_true, State.tickRuns_iff, ← Bool.not_eq_true]
  tauto

/-- R157: the exit of step 0. -/
theorem tick_of_noDatabase (hv : s.inputs.db.valid = false) :
    tick N cmd s = .next ((s.raise .E_NODB cmd).emit 0) := if_pos hv

/-- R151, R152: the exits of the steps 1 and 2. -/
theorem tick_of_endsEarly (hv : s.inputs.db.valid = true) (hends : s.tickRuns = false) :
    tick N cmd s = .next (s.emit 0) := by
  obtain ⟨hs, hwait⟩ := (State.tickRuns_eq_false_iff.mp hends).resolve_left (by simp [hv])
  rw [tick, if_neg (by simp [hv])]
  rcases hwait with hon | hq
  · exact if_pos ⟨hs, hon⟩
  · rw [if_pos (c := s.segment = gapToken ∧ s.queue = []) ⟨hs, hq⟩, ite_self]

/-- R150: a tick that is not ended early performs the steps 2 to 7. -/
theorem tick_of_runs (hruns : s.tickRuns = true) : tick N cmd s = tickActive N s := by
  obtain ⟨hv, hgo⟩ := State.tickRuns_iff.mp hruns
  rw [tick, if_neg (by simp [hv]), if_neg fun h => (hgo h.1).1 h.2, if_neg fun h => (hgo h.1).2 h.2]

theorem exec_tick (arg : Arg) (s : State) : exec (.tick arg) s = tick hardwareNumerics (encode (.tick arg)) s := rfl

/-- A tick that ends early takes nothing from the queue. -/
theorem tick_queue_of_endsEarly (hends : s.tickRuns = false) (h : tick N cmd s = .next t) : t.queue = s.queue := by
  cases hv : s.inputs.db.valid with
  | false => rw [← Result.next_inj ((tick_of_noDatabase hv).symm.trans h)]; rfl
  | true => rw [← Result.next_inj ((tick_of_endsEarly hv hends).symm.trans h)]; rfl

/-! ### Runs of ticks -/

/-- R100, R102: with reset not asserted the first of the commands presented is performed, the others presented after it. -/
theorem step_present_encode {i : Instr} (hi : i.wellFormed = true) (hr : s.resetAsserted = false) (ws : List Command) :
    step (s.present (encode i :: ws)) = exec i (s.present ws) := by
  have hstep : step (s.present (encode i :: ws)) = exec (decode (encode i)) (s.present ws) := stepBy_command rfl hr
  rw [hstep, decode_encode hi]

theorem step_present_tick_of_endsEarly (hv : s.inputs.db.valid = true) (hends : s.tickRuns = false)
    (hr : s.resetAsserted = false) (arg : Arg) (ws : List Command) :
    step (s.present (encode (.tick arg) :: ws)) = .next ((s.setSample 0).present ws) :=
  (step_present_encode rfl hr ws).trans (tick_of_endsEarly hv hends)

/-- Once `OUT.sample` is 0, a tick that ends early changes nothing. -/
theorem run_ticks_of_silent (hv : s.inputs.db.valid = true) (hends : s.tickRuns = false) (hr : s.resetAsserted = false)
    (args : List Arg) :
    State.run args.length ((s.setSample 0).present (args.map fun a => encode (.tick a))) =
      .next ((s.setSample 0).present []) := by
  induction args with
  | nil => rfl
  | cons arg args ih =>
    exact (State.run_succ_of_next (step_present_tick_of_endsEarly (s := s.setSample 0) hv hends hr arg _)).trans ih

/-- Any positive number of ticks that end early writes 0 to `OUT.sample` and nothing else. -/
theorem run_ticks_of_endsEarly (hv : s.inputs.db.valid = true) (hends : s.tickRuns = false) (hr : s.resetAsserted = false)
    {args : List Arg} (hne : args ≠ []) :
    State.run args.length (s.present (args.map fun a => encode (.tick a))) = .next ((s.setSample 0).present []) := by
  cases args with
  | nil => exact absurd rfl hne
  | cons arg args =>
    exact (State.run_succ_of_next (step_present_tick_of_endsEarly hv hends hr arg _)).trans
      (run_ticks_of_silent hv hends hr args)

end

/-! ### The early exits -/

/-- Settles O19: the exit of step 0, whose record is the cause `E_NODB` with the word of the tick. -/
theorem tickWithoutDatabaseReports : Obligations.TickWithoutDatabaseReports := by
  intro s arg hv
  rw [exec_tick, tick_of_noDatabase hv]
  rfl

/-- Settles O20: with nothing pending the tick ends at step 1, and so do the ticks after it. -/
theorem dormantTicksStaySilent : Obligations.DormantTicksStaySilent := by
  intro s hv hs hon
  have hends : s.tickRuns = false := State.tickRuns_eq_false_iff.mpr (.inr ⟨toInt_eq_neg_one_iff.mp hs, .inl hon⟩)
  exact ⟨fun arg => tick_of_endsEarly hv hends, fun args hne hr => run_ticks_of_endsEarly hv hends hr hne⟩

/-- Settles O21: with an empty queue the tick ends at step 2, where it has not ended at step 1. -/
theorem tickWithoutMaterialWaits : Obligations.TickWithoutMaterialWaits := by
  intro s arg hv hs hq
  exact tick_of_endsEarly hv (State.tickRuns_eq_false_iff.mpr (.inr ⟨toInt_eq_neg_one_iff.mp hs, .inr hq⟩))

/-! ### The frame -/

/-- Settles O41: a tick that ends early writes `OUT.sample`; the steps 2 to 7 keep what `State.SameButTick` lists. -/
theorem tickFrame : Obligations.TickFrame := by
  intro s t arg hv h
  cases hruns : s.tickRuns with
  | false =>
    rw [← Result.next_inj ((tick_of_endsEarly hv hruns).symm.trans h)]
    exact ⟨rfl, rfl, rfl, rfl, rfl, rfl, rfl, rfl, fun _ => rfl, fun _ => rfl⟩
  | true =>
    have f := tickActive_sameButTick ((tick_of_runs hruns).symm.trans h)
    exact ⟨f.frequency, f.status, f.lasterr, f.inputs, f.qdepth, f.port, f.resetAsserted, f.poolSize,
      fun a => by rw [f.inputs], fun hends => by cases hends⟩

end Sys2Proof.Machine
end

section
/-! PROOFS. The segment sequencer (41_tick_sequencer.md R152 to R156, R160): the value of `NEWSEG` and of the steps 3 and 4 in
each of their cases, and what a whole tick takes from the queue (10_state.md R24). -/

namespace Sys2Proof.Machine

section

variable {N : Numerics} {s t u : State}

/-! ### `NEWSEG` -/

theorem newSeg_of_nil (hq : s.queue = []) : newSeg N s = .next (s.goIdle N) := by
  rw [newSeg, hq]

theorem newSeg_of_cons {n : SegIndex} {rest : List SegIndex} {frames : Nat} (hq : s.queue = n :: rest)
    (hframes : s.db.numFrames n = .next frames) : newSeg N s = .next (s.enterSegment N n rest frames) := by
  simp only [newSeg, hq, hframes, Result.andThen_next]

/-- R66, R68: the frames of the sentinel and of an index below `NSEG`. -/
theorem Database.numFrames_of_entry {db : Database} {n : SegIndex} {frames : Nat}
    (h : (n.toInt = -1 ∧ frames = 0) ∨
      (n.toInt ≠ -1 ∧ n.toNat < db.nseg ∧ (db.seg[n.toNat]?).map SegDesc.numFrames = some frames)) :
    db.numFrames n = .next frames := by
  rcases h with ⟨hgap, rfl⟩ | ⟨hgap, hlt, hseg⟩
  · rw [toInt_eq_neg_one_iff.mp hgap, db.numFrames_gap]
  · obtain ⟨d, hd, rfl⟩ := Option.map_eq_some_iff.mp hseg
    have hne : n ≠ gapToken := fun he => hgap (toInt_eq_neg_one_iff.mpr he)
    exact (Database.accessors_of_descriptor hne (Database.descriptor_eq_next.mpr ⟨hlt, hd⟩)).1

/-- R160: `numFrames / F0` is `numFrames * GL / (2 * DBSR)`. -/
theorem Database.div_f0 (db : Database) (v : Rat) : v / db.f0 = v * db.gl / (2 * db.dbsr) := div_div_eq_mul_div v _ _

/-- Settles O22: the two cases of `NEWSEG`, with the segment length in the header's own fields. -/
theorem newSegmentTransition : Obligations.NewSegmentTransition := by
  intro s
  refine ⟨newSeg_of_nil, fun n rest frames hq hentry => ?_⟩
  rw [newSeg_of_cons hq (Database.numFrames_of_entry hentry), State.enterSegment_eq]
  simp only [hardwareNumerics_q, Database.div_f0, toInt_eq_neg_one_iff, State.fullRamp, Config.XL]

/-! ### Steps 3 and 4 -/

/-- R66, R68: whether an index below `NSEG` names a long segment. -/
theorem Database.isLong_of_index {db : Database} {i : SegIndex} {d : SegDesc} (hgap : i.toInt ≠ -1) (hlt : i.toNat < db.nseg)
    (hd : db.seg[i.toNat]? = some d) : db.isLong i = .next d.isLong := by
  have hne : i ≠ gapToken := fun he => hgap (toInt_eq_neg_one_iff.mpr he)
  exact (Database.accessors_of_descriptor hne (Database.descriptor_eq_next.mpr ⟨hlt, hd⟩)).2.1

theorem consumeNoteOff_of_none (h : s.segment = gapToken ∨ s.noteOffs = 0) : consumeNoteOff N s = .next s := if_pos h

theorem consumeNoteOff_of_pending {long : Bool} (hs : s.segment ≠ gapToken) (hoff : s.noteOffs ≠ 0)
    (hlong : s.db.isLong s.segment = .next long) :
    consumeNoteOff N s = if long then newSeg N (s.setNoteOffs (s.noteOffs - 1)) else .next s := by
  rw [consumeNoteOff, if_neg (not_or.mpr ⟨hs, hoff⟩), hlong, Result.andThen_next]

theorem boundaryStep_of_before (h : s.atBoundary = false) : boundaryStep N s = .next s := by
  rw [boundaryStep, h]
  rfl

theorem boundaryStep_of_reached {long : Bool} (h : s.atBoundary = true) (hlong : s.db.isLong s.segment = .next long) :
    boundaryStep N s = if long then .next (s.setSegmentTime N 0) else newSeg N s := by
  rw [boundaryStep, if_pos h, hlong, Result.andThen_next]

/-- Settles O23: with a note-off pending the step asks whether the segment is long, and only then consumes it. -/
theorem noteOffReleasesLongSegment : Obligations.NoteOffReleasesLongSegment := by
  intro s
  refine ⟨fun h => consumeNoteOff_of_none (h.imp_left toInt_eq_neg_one_iff.mp), fun d hs hoff hlt hd => ?_⟩
  exact consumeNoteOff_of_pending (mt toInt_eq_neg_one_iff.mpr hs) hoff (Database.isLong_of_index hs hlt hd)

/-- Settles O24: by the boundary test, whose comparison includes equality. -/
theorem boundaryLoopsOrAdvances : Obligations.BoundaryLoopsOrAdvances := by
  intro s
  refine ⟨fun h => boundaryStep_of_before ?_, fun d hs htime hlt hd => ?_⟩
  · rw [← Bool.not_eq_true, State.atBoundary_iff]
    rintro ⟨hs, htime⟩
    exact h.elim (fun hgap => hs (toInt_eq_neg_one_iff.mp hgap)) (not_lt.mpr htime)
  · have hboundary : s.atBoundary = true := State.atBoundary_iff.mpr ⟨mt toInt_eq_neg_one_iff.mpr hs, htime⟩
    exact boundaryStep_of_reached hboundary (Database.isLong_of_index hs hlt hd)

/-! ### What is taken from the queue -/

/-- At most `n` entries are dropped from the head of the queue, and it is touched in no other way (R24). -/
def State.PopsAtMost (n : Nat) (s t : State) : Prop := ∃ k, k ≤ n ∧ t.queue = s.queue.drop k

theorem State.popsAtMost_of_queue_eq {n : Nat} (h : t.queue = s.queue) : State.PopsAtMost n s t := ⟨0, Nat.zero_le n, h⟩

theorem State.PopsAtMost.trans {m n : Nat} (h : State.PopsAtMost m s t) (h' : State.PopsAtMost n t u) :
    State.PopsAtMost (m + n) s u := by
  obtain ⟨k, hk, ht⟩ := h
  obtain ⟨l, hl, hu⟩ := h'
  exact ⟨k + l, Nat.add_le_add hk hl, by rw [hu, ht, List.drop_drop]⟩

/-- R160: `NEWSEG` takes the head, where there is one. -/
theorem newSeg_pops (h : newSeg N s = .next t) : State.PopsAtMost 1 s t := by
  rcases newSeg_cases h with ⟨_, rfl⟩ | ⟨n, rest, frames, hq, _, rfl⟩
  · exact State.popsAtMost_of_queue_eq rfl
  · exact ⟨1, le_rfl, by rw [State.enterSegment_eq, hq]; rfl⟩

theorem consumeNoteOn_pops (h : consumeNoteOn N s = .next t) : State.PopsAtMost 1 s t := by
  rcases consumeNoteOn_cases h with ⟨_, rfl⟩ | ⟨_, h⟩
  · exact State.popsAtMost_of_queue_eq rfl
  · exact newSeg_pops (s := s.setNoteOns (s.noteOns - 1)) h

theorem consumeNoteOff_pops (h : consumeNoteOff N s = .next t) : State.PopsAtMost 1 s t := by
  rcases consumeNoteOff_cases h with ⟨_, rfl⟩ | ⟨_, _, _, h⟩
  · exact State.popsAtMost_of_queue_eq rfl
  · exact newSeg_pops (s := s.setNoteOffs (s.noteOffs - 1)) h

theorem boundaryStep_pops (h : boundaryStep N s = .next t) : State.PopsAtMost 1 s t := by
  rcases boundaryStep_cases h with ⟨_, rfl⟩ | ⟨_, _, rfl⟩ | ⟨_, _, h⟩
  · exact State.popsAtMost_of_queue_eq rfl
  · exact State.popsAtMost_of_queue_eq rfl
  · exact newSeg_pops h

/-- The steps 5 to 7 leave the queue alone. -/
theorem datapath_queue {s4 s5 : State} (h5 : phaseStep N s4 = .next s5) (h7 : mixStep N (s5.timeStep N) = .next t) :
    t.queue = s4.queue := by
  obtain ⟨_, _, _, _, rfl⟩ := mixStep_cases h7
  rw [State.timeStep_eq, (phaseStep_frame h5).1]

/-- R159: one entry for each of the steps 2, 3 and 4 at most. -/
theorem tickActive_pops (h : tickActive N s = .next t) : State.PopsAtMost 3 s t := by
  obtain ⟨_, s2, s3, s4, s5, h2, h3, h4, h5, h7⟩ := tickActive_cases h
  have p4 := ((consumeNoteOn_pops h2).trans (consumeNoteOff_pops h3)).trans (boundaryStep_pops h4)
  exact p4.trans (State.popsAtMost_of_queue_eq (n := 0) (datapath_queue h5 h7))

end

/-- Settles O26: a tick that ends early leaves the queue; the steps 2, 3 and 4 take one entry each at most. -/
theorem tickPopsAtMostThreeEntries : Obligations.TickPopsAtMostThreeEntries := by
  intro s t arg h
  cases hruns : s.tickRuns with
  | false => exact ⟨0, Nat.zero_le 3, tick_queue_of_endsEarly hruns h, fun _ => rfl⟩
  | true =>
    obtain ⟨k, hk, hqueue⟩ := tickActive_pops ((tick_of_runs hruns).symm.trans h)
    exact ⟨k, hk, hqueue, fun hends => by cases hends⟩

end Sys2Proof.Machine
end

section
/-! PROOFS. The completion of a running `TICK` (41_tick_sequencer.md R150, R159): the sum over the pool fits the `s32` of
`OUT.sample` (43_envelope_mixer.md R205, R206), and the registers end as the steps 2 to 7 leave them. -/

namespace Sys2Proof.Machine

/-! ### The range of the output -/

/-- R132, R133: a sample read is an `s16`, and the mix of two lies between them. -/
theorem grainSample_range {N : Numerics} (hN : N.Admissible) {db : Database} {g : Grain} {y : Int} (hg : g.ok db = true)
    (h : grainSample N db g = .next y) : -32768 ≤ y ∧ y ≤ 32767 := by
  rcases grainSample_cases h with ⟨_, h1⟩ | ⟨_, v1, v2, h1, h2, rfl⟩
  · exact Database.memRead_range h1
  · obtain ⟨⟨hmix0, hmix1⟩, _⟩ := Grain.ok_iff.mp hg
    have hbetween := grainMix_between hN v1 v2 hmix0 hmix1
    have := Database.memRead_range h1
    have := Database.memRead_range h2
    omega

theorem grainProcess_range {N : Numerics} (hN : N.Admissible) {db : Database} {g g' : Grain} {y : Int} (hg : g.ok db = true)
    (h : grainProcess N db g = .next (y, g')) : -32768 ≤ y ∧ y ≤ 32767 := by
  rcases grainProcess_cases h with ⟨_, rfl, _⟩ | ⟨_, h, _⟩
  · decide
  · exact grainSample_range hN hg h

/-- R205, R206: the sum over a pool is bounded by its size. -/
theorem mixPool_range {N : Numerics} (hN : N.Admissible) {db : Database} {gs out : List Grain} {acc : Int}
    (hgs : ∀ g ∈ gs, g.ok db = true) (h : mixPool N db gs = .next (acc, out)) :
    -32768 * (gs.length : Int) ≤ acc ∧ acc ≤ 32767 * (gs.length : Int) := by
  induction gs generalizing acc out with
  | nil => cases h; decide
  | cons g gs ih =>
    obtain ⟨y, g', acc', gs', h1, h2, rfl, _⟩ := mixPool_cons h
    have hfirst := grainProcess_range hN (hgs g List.mem_cons_self) h1
    have hrest := ih (fun g' hg' => hgs g' (List.mem_cons_of_mem g hg')) h2
    rw [List.length_cons]
    omega

/-- R206: the sum over at most 65535 slots is the `s32` that is emitted. -/
theorem toInt_ofInt_mixPool {N : Numerics} (hN : N.Admissible) {db : Database} {gs out : List Grain} {acc : Int}
    (hgs : ∀ g ∈ gs, g.ok db = true) (hsize : gs.length ≤ Config.poolMax) (h : mixPool N db gs = .next (acc, out)) :
    (BitVec.ofInt 32 acc).toInt = acc := by
  have hrange := mixPool_range hN hgs h
  unfold Config.poolMax at hsize
  exact BitVec.toInt_ofInt_eq_self (by decide) (by omega) (by omega)

section

variable {N : Numerics} {s s2 s3 s4 s5 t : State}

/-! ### The steps in order -/

/-- R48, R270: while reset is asserted the engine is idle with nothing pending, so a tick that runs finds R47. -/
theorem EngineInv.runInv_of_tickRuns (h : EngineInv s) (hruns : s.tickRuns = true) : RunInv s := by
  refine h.running (Bool.eq_false_iff.mpr fun hr => ?_)
  have hheld : s.segment = gapToken ∧ s.noteOns = 0 := by
    rw [h.held hr]
    exact ⟨rfl, rfl⟩
  exact ((State.tickRuns_iff.mp hruns).2 hheld.1).1 hheld.2

/-- The steps 2 to 5 keep the invariant, and with it the frame of the tick. -/
theorem stepsTwoToFive_keep (h : RunInv s) (hv : s.inputs.db.valid = true) (h2 : consumeNoteOn hardwareNumerics s = .next s2)
    (h3 : consumeNoteOff hardwareNumerics s2 = .next s3) (h4 : boundaryStep hardwareNumerics s3 = .next s4)
    (h5 : phaseStep hardwareNumerics s4 = .next s5) : RunInv s5 ∧ s.SameButTick s5 := by
  have i4 := boundaryStep_runInv (consumeNoteOff_runInv (consumeNoteOn_runInv h h2) h3) h4
  have f3 := (consumeNoteOn_frame h2).1.sameButTick.trans (consumeNoteOff_frame h3).1.sameButTick
  have f4 := f3.trans (boundaryStep_frame h4).1.sameButTick
  have hwf : s4.db.wellFormed = true := by
    rw [State.db_congr f4.inputs]
    exact h.db_wellFormed hv
  exact ⟨phaseStep_runInv i4 hwf h5, f4.trans (phaseStep_sameButTick h5)⟩

/-- R200, R202, R205: the steps 6 and 7, register by register, on this hardware. -/
theorem timeThenMix_eq (h7 : mixStep hardwareNumerics (s5.timeStep hardwareNumerics) = .next t) :
    ∃ acc, mixPool hardwareNumerics s5.db s5.pool = .next (acc, t.pool) ∧
      t = { s5 with
        segmentTime := s5.segmentTime + s5.period, oldSegmentTime := s5.oldSegmentTime + s5.period,
        crossfade := max 0 (s5.crossfade + s5.crossfadeRamp),
        crossfadeRamp := if s5.crossfade + s5.crossfadeRamp ≤ 0 then 0 else s5.crossfadeRamp,
        pool := t.pool, sample := BitVec.ofInt 32 acc } := by
  obtain ⟨acc, out, hmix, _, rfl⟩ := mixStep_cases h7
  obtain ⟨hpool, hinputs⟩ := s5.timeStep_frame hardwareNumerics
  rw [hpool, State.db_congr hinputs] at hmix
  refine ⟨acc, hmix, ?_⟩
  rw [State.timeStep_eq, max_comm, max_def]
  rfl

end

/-- Settles O40: by R47 no step stops; step 5 writes none of the registers of step 6, and the sum fits `OUT.sample`. -/
theorem tickCompletes : Obligations.TickCompletes := by
  intro s arg hinv hruns
  obtain ⟨hv, _⟩ := State.tickRuns_iff.mp hruns
  have h := hinv.runInv_of_tickRuns hruns
  obtain ⟨t, ht⟩ := tickActive_completes h hv
  obtain ⟨_, s2, s3, s4, s5, h2, h3, h4, h5, h7⟩ := tickActive_cases ht
  obtain ⟨i5, f5⟩ := stepsTwoToFive_keep h hv h2 h3 h4 h5
  obtain ⟨acc, hmix, heq⟩ := timeThenMix_eq h7
  have hsum : t.sample.toInt = acc := by
    rw [heq]
    exact toInt_ofInt_mixPool hardwareNumerics_admissible i5.grains_ok (f5.poolSize.trans_le hinv.pool_size.2) hmix
  have hfs : s5.period = 1 / (s.inputs.fs : Rat) := by rw [State.period, f5.inputs]
  have hsame := (phaseStep_frame h5).1
  refine ⟨s2, s3, s4, s5, t, (tick_of_runs hruns).trans ht, h2, h3, h4, h5, ?_, ?_, ?_, ?_, ?_, ?_⟩
  · rw [hsum, ← State.db_congr f5.inputs, hmix]
  · rw [heq, hsame, ← hfs, hsame]
  · rw [heq, hsame, ← hfs, hsame]
  · rw [heq, hsame]
  · rw [heq, hsame]
  · rw [heq]

end Sys2Proof.Machine
end

section
/-! PROOFS. Step 5 of `TICK` (42_phase_addrgen.md): the phase accumulator alone and over a whole tick (R180 to R183), the address
generator (R185, R186), the trigger (R187, R188), and the number of slots armed over a run of ticks (R184). -/

namespace Sys2Proof.Machine

/-! ### The phase accumulator -/

/-- The phase step 5 advances to, before any wrap (R180). -/
def State.advancedPhase (s : State) : Rat := s.phase + s.frequency / (s.inputs.fs : Rat)

/-- The phase step 5 leaves: 1 taken off once, where the advanced phase has reached it (R181). -/
def State.wrappedPhase (s : State) : Rat := if 1 ≤ s.advancedPhase then s.advancedPhase - 1 else s.advancedPhase

section

variable {N : Numerics} {cmd : Command} {s s4 t : State}

theorem State.advancePhase_phase (s : State) : (s.advancePhase hardwareNumerics).phase = s.advancedPhase := rfl

/-- R183: while idle nothing is armed. -/
theorem trigger_of_idle (hs : s.segment = gapToken) : trigger N s = .next s := if_pos hs

theorem phaseStep_of_idle (hs : s.segment = gapToken) :
    phaseStep hardwareNumerics s = .next { s with phase := s.wrappedPhase } := by
  rw [phaseStep, State.advancePhase_phase, State.wrappedPhase]
  split
  · exact trigger_of_idle hs
  · rfl

/-- A trigger does not write the phase, so step 5 leaves it as the accumulator has it. -/
theorem phaseStep_phase (h : phaseStep hardwareNumerics s = .next t) : t.phase = s.wrappedPhase := by
  rcases phaseStep_cases h with ⟨hlt, rfl⟩ | ⟨hwrap, h⟩
  · exact (if_neg hlt.not_ge).symm
  · rw [(trigger_frame h).1]
    exact (if_pos hwrap).symm

/-- R187: with a segment current a trigger moves `nextGrain` on round-robin. -/
theorem trigger_nextGrain (hs : s.segment ≠ gapToken) (h : trigger N s = .next t) :
    t.nextGrain = (s.nextGrain + 1) % s.poolSize := by
  rcases trigger_cases h with ⟨hgap, _⟩ | ⟨_, off1, _, ⟨_, h⟩ | ⟨_, off2, _, h⟩⟩
  · exact absurd hgap hs
  · rw [(armNext_cases h).2]
  · rw [(armNext_cases h).2]

theorem phaseStep_nextGrain (hs : s.segment ≠ gapToken) (hin : s.nextGrain < s.poolSize)
    (h : phaseStep hardwareNumerics s = .next t) :
    t.nextGrain = (s.nextGrain + if 1 ≤ s.advancedPhase then 1 else 0) % s.poolSize := by
  rcases phaseStep_cases h with ⟨hlt, rfl⟩ | ⟨hwrap, h⟩
  · rw [State.advancePhase_phase] at hlt
    rw [if_neg hlt.not_ge, Nat.add_zero, Nat.mod_eq_of_lt hin]
    rfl
  · rw [State.advancePhase_phase] at hwrap
    rw [if_pos hwrap]
    exact trigger_nextGrain (s := (s.advancePhase hardwareNumerics).setPhase _ _) hs h

/-! ### The phase over a whole tick -/

/-- Step 5 finds what the sequencer left, and the steps 6 and 7 write none of the phase, `nextGrain` and the segment. -/
theorem tickActive_phaseStep (h : tickActive N s = .next t) :
    ∃ s4 s5, s.sameButSequencer s4 ∧ phaseStep N s4 = .next s5 ∧ t.phase = s5.phase ∧ t.nextGrain = s5.nextGrain ∧
      t.segment = s4.segment := by
  obtain ⟨_, s2, s3, s4, s5, h2, h3, h4, h5, h7⟩ := tickActive_cases h
  have hseq := State.sameButSequencer_trans (State.sameButSequencer_trans (consumeNoteOn_frame h2).1
    (consumeNoteOff_frame h3).1) (boundaryStep_frame h4).1
  obtain ⟨_, _, _, _, rfl⟩ := mixStep_cases h7
  refine ⟨s4, s5, hseq, h5, ?_, ?_, ?_⟩
  · rw [State.timeStep_eq]
  · rw [State.timeStep_eq]
  · rw [State.timeStep_eq, (phaseStep_frame h5).1]

/-- The sequencer writes nothing the accumulator reads. -/
theorem State.sameButSequencer.advancedPhase_eq (h : s.sameButSequencer s4) : s4.advancedPhase = s.advancedPhase := by
  rw [h]
  rfl

theorem tickActive_phase (h : tickActive hardwareNumerics s = .next t) : t.phase = s.wrappedPhase := by
  obtain ⟨s4, s5, hseq, h5, hphase, _, _⟩ := tickActive_phaseStep h
  rw [hphase, phaseStep_phase h5, State.wrappedPhase, hseq.advancedPhase_eq, State.wrappedPhase]

/-- R187: whether a tick moves `nextGrain` on depends on the phase alone, where a segment is current after it. -/
theorem tickActive_nextGrain (ht : t.segment ≠ gapToken) (hin : s.nextGrain < s.poolSize)
    (h : tickActive hardwareNumerics s = .next t) :
    t.nextGrain = (s.nextGrain + if 1 ≤ s.advancedPhase then 1 else 0) % s.poolSize := by
  obtain ⟨s4, s5, hseq, h5, _, hnext, hsegment⟩ := tickActive_phaseStep h
  have hnext4 : s4.nextGrain = s.nextGrain := by rw [hseq]
  have hsize4 : s4.poolSize = s.poolSize := hseq.sameButTick.poolSize
  rw [hnext, phaseStep_nextGrain (hsegment ▸ ht) (by rwa [hnext4, hsize4]) h5, hnext4, hsize4, hseq.advancedPhase_eq]

/-- R158: a tick that ends early leaves the phase. -/
theorem tick_phase_of_endsEarly (hends : s.tickRuns = false) (h : tick N cmd s = .next t) : t.phase = s.phase := by
  rcases tick_cases h with ⟨_, rfl⟩ | ⟨_, _, _, rfl⟩ | ⟨hv, hgo, _⟩
  · rfl
  · rfl
  · exact absurd (hends.symm.trans (State.tickRuns_iff.mpr ⟨hv, hgo⟩)) (by decide)

/-- A tick that runs has `FS >= 1` (R276). -/
theorem fs_pos_of_tickActive (h : tickActive N s = .next t) : (0 : Rat) < s.inputs.fs := by
  have hdiv := (tickActive_cases h).1
  simp only [State.divisorsOk, Bool.and_eq_true, decide_eq_true_eq] at hdiv
  exact_mod_cast hdiv.1.1

end

/-- Settles O32: the wrap's trigger does nothing while idle. -/
theorem idleWrapArmsNothing : Obligations.IdleWrapArmsNothing :=
  fun _ hs => phaseStep_of_idle (toInt_eq_neg_one_iff.mp hs)

/-- Settles O27: only step 5 writes the phase, and a tick that ends early does not reach it. -/
theorem tickAdvancesPhase : Obligations.TickAdvancesPhase := by
  intro s t arg h
  cases hruns : s.tickRuns with
  | false => exact tick_phase_of_endsEarly hruns h
  | true => exact tickActive_phase ((tick_of_runs hruns).symm.trans h)

/-! ### The range of the phase -/

/-- Below 2 the floor is the one test of the accumulator. -/
theorem floor_of_lt_two {v : Rat} (h0 : 0 ≤ v) (h2 : v < 2) : ⌊v⌋ = if 1 ≤ v then 1 else 0 := by
  split
  · rename_i h1
    exact Int.floor_eq_iff.mpr ⟨by exact_mod_cast h1, by push_cast; linarith⟩
  · rename_i h1
    exact Int.floor_eq_zero_iff.mpr ⟨h0, not_le.mp h1⟩

section

variable {s : State}

/-- R182: at a pitch up to `FS` one tick advances the phase by at most one cycle, from below 1 to below 2. -/
theorem State.advancedPhase_range (hfs : (0 : Rat) < s.inputs.fs) (hf0 : 0 ≤ s.frequency) (hf : s.frequency ≤ s.inputs.fs)
    (hp0 : 0 ≤ s.phase) (hp1 : s.phase < 1) : 0 ≤ s.advancedPhase ∧ s.advancedPhase < 2 := by
  have hstep0 : 0 ≤ s.frequency / (s.inputs.fs : Rat) := div_nonneg hf0 hfs.le
  have hstep1 : s.frequency / (s.inputs.fs : Rat) ≤ 1 := (div_le_one hfs).mpr hf
  unfold State.advancedPhase
  constructor <;> linarith

theorem State.wrappedPhase_eq_fract (h0 : 0 ≤ s.advancedPhase) (h2 : s.advancedPhase < 2) :
    s.wrappedPhase = Int.fract s.advancedPhase := by
  rw [State.wrappedPhase, Int.fract, floor_of_lt_two h0 h2]
  split
  · rw [Int.cast_one]
  · rw [Int.cast_zero, sub_zero]

end

/-- Settles O28: up to `FS` the one subtraction is the fractional part; above it every tick wraps. -/
theorem phaseRange : Obligations.PhaseRange := by
  intro s t arg h hruns hp0 hf0
  have hactive := (tick_of_runs hruns).symm.trans h
  have hfs := fs_pos_of_tickActive hactive
  refine ⟨fun hf hp1 => ?_, fun hf => ?_⟩
  · obtain ⟨h0, h2⟩ := s.advancedPhase_range hfs hf0 hf hp0 hp1
    have hphase : t.phase = Int.fract s.advancedPhase :=
      (tickActive_phase hactive).trans (State.wrappedPhase_eq_fract h0 h2)
    rw [hphase]
    exact ⟨rfl, Int.fract_nonneg _, Int.fract_lt_one _⟩
  · have hstep : 1 < s.frequency / (s.inputs.fs : Rat) := (one_lt_div hfs).mpr hf
    have hwrap : 1 ≤ s.advancedPhase := by unfold State.advancedPhase; linarith
    rw [tickActive_phase hactive, State.wrappedPhase, if_pos hwrap, State.advancedPhase, add_sub_assoc]

/-! ### The synthesis pitch -/

/-- What `c` cycles, counted from phase 0 of `s`, have made of `s` (R184): the phase is their fractional part, and one slot has
been armed for every whole one. The pitch is as it was. -/
structure State.AfterCycles (s : State) (c : Rat) (t : State) : Prop where
  inputs : t.inputs = s.inputs
  frequency : t.frequency = s.frequency
  poolSize : t.poolSize = s.poolSize
  phase : t.phase = Int.fract c
  nextGrain : t.nextGrain = (s.nextGrain + ⌊c⌋.toNat) % s.poolSize

section

variable {s t u : State} {c : Rat}

/-- A phase in `[0, 1)` is no whole cycle yet. -/
theorem State.afterCycles_self (hp0 : 0 ≤ s.phase) (hp1 : s.phase < 1) (hin : s.nextGrain < s.poolSize) :
    s.AfterCycles s.phase s where
  inputs := rfl
  frequency := rfl
  poolSize := rfl
  phase := (Int.fract_eq_self.mpr ⟨hp0, hp1⟩).symm
  nextGrain := by rw [Int.floor_eq_zero_iff.mpr ⟨hp0, hp1⟩, Int.toNat_zero, Nat.add_zero, Nat.mod_eq_of_lt hin]

/-- R184: one tick is `frequency / FS` cycles more. The whole cycles so far do not enter: the floor and the fractional part of
`c + x` are told by those of `Int.fract c + x`, the advanced phase. -/
theorem State.AfterCycles.add_tick (h : s.AfterCycles c t) (hc : 0 ≤ c) (hf0 : 0 ≤ s.frequency)
    (hf : s.frequency ≤ s.inputs.fs) (hpool : 0 < s.poolSize) (hu : u.segment ≠ gapToken)
    (htick : tickActive hardwareNumerics t = .next u) :
    s.AfterCycles (c + s.frequency / (s.inputs.fs : Rat)) u := by
  have hframe := tickActive_sameButTick htick
  have hin : t.nextGrain < t.poolSize := by
    rw [h.nextGrain, h.poolSize]
    exact Nat.mod_lt _ hpool
  have hadv : t.advancedPhase = Int.fract c + s.frequency / (s.inputs.fs : Rat) := by
    rw [State.advancedPhase, h.phase, h.frequency, h.inputs]
  have hsplit : c + s.frequency / (s.inputs.fs : Rat) = (⌊c⌋ : Rat) + t.advancedPhase := by
    rw [hadv, ← add_assoc, Int.floor_add_fract]
  obtain ⟨h0, h2⟩ : 0 ≤ t.advancedPhase ∧ t.advancedPhase < 2 :=
    t.advancedPhase_range (fs_pos_of_tickActive htick) (by rwa [h.frequency]) (by rwa [h.frequency, h.inputs])
      (by rw [h.phase]; exact Int.fract_nonneg c) (by rw [h.phase]; exact Int.fract_lt_one c)
  have hfloor : (⌊t.advancedPhase⌋).toNat = if 1 ≤ t.advancedPhase then 1 else 0 := by
    rw [floor_of_lt_two h0 h2]
    split <;> rfl
  exact {
    inputs := hframe.inputs.trans h.inputs
    frequency := hframe.frequency.trans h.frequency
    poolSize := hframe.poolSize.trans h.poolSize
    phase := by rw [tickActive_phase htick, State.wrappedPhase_eq_fract h0 h2, hsplit, Int.fract_intCast_add]
    nextGrain := by
      rw [tickActive_nextGrain hu hin htick, ← hfloor, h.nextGrain, h.poolSize, Nat.mod_add_mod, hsplit,
        Int.floor_intCast_add, Int.toNat_add (Int.floor_nonneg.mpr hc) (Int.floor_nonneg.mpr h0), Nat.add_assoc] }

end

/-- R184, over `n` ticks in a row. -/
theorem afterCycles_of_ticks {u : Nat → State} (hf0 : 0 ≤ (u 0).frequency) (hf : (u 0).frequency ≤ ((u 0).inputs.fs : Rat))
    (hp0 : 0 ≤ (u 0).phase) (hp1 : (u 0).phase < 1) (hin : (u 0).nextGrain < (u 0).poolSize) {n : Nat}
    (h : ∀ j, j < n → tickActive hardwareNumerics (u j) = .next (u (j + 1)) ∧ (u (j + 1)).segment ≠ gapToken) :
    (u 0).AfterCycles ((u 0).phase + n * ((u 0).frequency / ((u 0).inputs.fs : Rat))) (u n) := by
  induction n with
  | zero => simpa using State.afterCycles_self hp0 hp1 hin
  | succ n ih =>
    obtain ⟨htick, hsegment⟩ := h n n.lt_succ_self
    have hcycles : 0 ≤ (u 0).phase + n * ((u 0).frequency / ((u 0).inputs.fs : Rat)) := by positivity
    have hbefore := ih fun j hj => h j (hj.trans n.lt_succ_self)
    have hnext := hbefore.add_tick hcycles hf0 hf (Nat.zero_lt_of_lt hin) hsegment htick
    rwa [add_assoc, ← add_one_mul, ← Nat.cast_add_one] at hnext

/-- Settles O29: by induction on the ticks; each adds `frequency / FS` to the cycles passed. -/
theorem triggersFollowTheSynthesisPitch : Obligations.TriggersFollowTheSynthesisPitch := by
  intro u n hticks hf0 hf hp0 hp1 hin
  have hafter := afterCycles_of_ticks (n := n) hf0 hf hp0 hp1 hin fun j hj => by
    obtain ⟨hruns, ⟨arg, htick⟩, hsegment⟩ := hticks j hj
    exact ⟨(tick_of_runs hruns).symm.trans htick, mt toInt_eq_neg_one_iff.mpr hsegment⟩
  exact ⟨hafter.phase, hafter.nextGrain⟩

/-! ### The address generator -/

/-- R66: an index of a well-formed database is not the gap token. -/
theorem Database.ne_gapToken_of_lt_nseg {db : Database} (hwf : db.wellFormed = true) {i : SegIndex} (hi : i.toNat < db.nseg) :
    i ≠ gapToken := by
  obtain ⟨_, _, hnseg, _⟩ := Database.wellFormed_iff.mp hwf
  rintro rfl
  have hgap : gapToken.toNat = 2 ^ 32 - 1 := by decide
  omega

/-- Settles O30: the frame index is below `numFrames`, so the frame lies in the slice, and the slice in the wavetable. -/
theorem frameAddressInsideSegment : Obligations.FrameAddressInsideSegment := by
  intro db i time hwf hi htime
  have hgap := Database.ne_gapToken_of_lt_nseg hwf hi
  obtain ⟨d, hd, hframes, hend⟩ := Database.descriptor_of_wellFormed hwf hi
  obtain ⟨hnum, _, hoffset⟩ := Database.accessors_of_descriptor hgap hd
  obtain ⟨a, ha, _⟩ := Database.frameAddr_of_valid hwf (Database.validIndex_iff.mpr (.inr hi)) hgap htime
  obtain ⟨frames, off, hnum', hoffset', _, _, haddr⟩ := Database.frameAddr_eq_next ha
  obtain rfl := Result.next_inj (hnum.symm.trans hnum')
  obtain rfl := Result.next_inj (hoffset.symm.trans hoffset')
  have hslice : (time * db.f0).floor.toNat % d.numFrames * db.gl + db.gl ≤ d.numFrames * db.gl := by
    rw [← Nat.succ_mul]
    exact Nat.mul_le_mul_right _ (Nat.mod_lt _ hframes)
  exact ⟨d, a, (Database.descriptor_eq_next.mp hd).2, ha, haddr, by omega, by omega, by omega⟩

/-! ### The trigger -/

/-- Settles O31: R47 keeps the trigger from stopping, and with a segment current it arms a slot. -/
theorem triggerArmsNextSlot : Obligations.TriggerArmsNextSlot := by
  intro s hinv hv hsegment
  have hs : s.segment ≠ gapToken := mt toInt_eq_neg_one_iff.mpr hsegment
  have hrun := hinv.runInv_of_tickRuns (State.tickRuns_iff.mpr ⟨hv, fun hgap => absurd hgap hs⟩)
  obtain ⟨t, ht⟩ := trigger_completes (N := hardwareNumerics) hrun (hrun.db_wellFormed hv)
  rcases trigger_cases ht with ⟨hgap, _⟩ | ⟨_, off1, h1, ⟨hc, harm⟩ | ⟨hc, off2, h2, harm⟩⟩
  · exact absurd hgap hs
  · obtain ⟨_, rfl⟩ := armNext_cases harm
    refine ⟨off1, off1, h1, by rw [if_pos hc], ?_⟩
    rw [ht, hc]
    rfl
  · obtain ⟨_, rfl⟩ := armNext_cases harm
    refine ⟨off1, off2, h1, by rwa [if_neg hc], ?_⟩
    rw [ht]
    rfl

end Sys2Proof.Machine
end

section
/-! PROOFS. Steps 6 and 7 of `TICK` (43_envelope_mixer.md): the sum over the pool slot by slot (R205), the range of the output
of a whole tick (R206), and the clocks and the crossfade over a run of performances of step 6 (R200, R202, R203). -/

namespace Sys2Proof.Machine

/-! ### The mixer, slot by slot -/

/-- The sample step 7 takes from a slot (R205). -/
def Grain.Yields (N : Numerics) (db : Database) (g : Grain) (y : Int) : Prop :=
  if g.active = true then grainSample N db g = .next y else y = 0

/-- A slot after `GRAIN.PROCESS` (40_grain.md R132). -/
def Grain.processed (gl : Nat) (g : Grain) : Grain := if g.active = true then g.advance gl else g

section

variable {N : Numerics} {db : Database} {s t : State}

theorem grainProcess_yields {g g' : Grain} {y : Int} (h : grainProcess N db g = .next (y, g')) :
    g.Yields N db y ∧ g' = g.processed db.gl := by
  unfold Grain.Yields Grain.processed
  rcases grainProcess_cases h with ⟨hidle, rfl, rfl⟩ | ⟨hactive, hsample, rfl⟩
  · simp [hidle]
  · simp [hactive, hsample]

/-- R205: mixing a pool sums one sample from each slot and processes each slot on its own. -/
theorem mixPool_yields {gs out : List Grain} {acc : Int} (h : mixPool N db gs = .next (acc, out)) :
    ∃ ys, List.Forall₂ (Grain.Yields N db) gs ys ∧ acc = ys.sum ∧ out = gs.map (Grain.processed db.gl) := by
  induction gs generalizing acc out with
  | nil => cases h; exact ⟨[], .nil, rfl, rfl⟩
  | cons g gs ih =>
    obtain ⟨y, g', acc', gs', hone, hmore, rfl, rfl⟩ := mixPool_cons h
    obtain ⟨hy, rfl⟩ := grainProcess_yields hone
    obtain ⟨ys, hys, rfl, rfl⟩ := ih hmore
    exact ⟨y :: ys, .cons hy hys, List.sum_cons.symm, rfl⟩

/-- 40_grain.md R133: the range of a sample needs the weight's range only. The grain length and whether the slot is active do not
enter into the sample, so they may be taken as they are in a well-formed slot. -/
theorem Grain.Yields.range (hN : N.Admissible) {g : Grain} {y : Int} (hmix : 0 ≤ g.crossfadeMix ∧ g.crossfadeMix ≤ 1)
    (h : g.Yields N db y) : -32768 ≤ y ∧ y ≤ 32767 := by
  unfold Grain.Yields at h
  split at h
  · have hok : Grain.ok { db with gl := g.readPosition } { g with active := false } = true :=
      Grain.ok_iff.mpr ⟨hmix, le_rfl, fun hactive => by cases hactive⟩
    exact grainSample_range hN hok h
  · omega

/-- R206: a sum of one sample per slot. -/
theorem sum_range_of_yields (hN : N.Admissible) {gs : List Grain} {ys : List Int}
    (hmix : ∀ g ∈ gs, 0 ≤ g.crossfadeMix ∧ g.crossfadeMix ≤ 1) (h : List.Forall₂ (Grain.Yields N db) gs ys) :
    -32768 * (gs.length : Int) ≤ ys.sum ∧ ys.sum ≤ 32767 * (gs.length : Int) := by
  induction h with
  | nil => decide
  | @cons g y gs ys hy _ ih =>
    obtain ⟨hmixFirst, hmixRest⟩ := List.forall_mem_cons.mp hmix
    have hfirst := hy.range hN hmixFirst
    have hrest := ih hmixRest
    rw [List.length_cons, List.sum_cons]
    omega

/-- R205, R206: everything step 7 does. The sum fits `OUT.sample`, so the output is the sum itself. -/
theorem mixStep_yields (hN : N.Admissible) (hsize : s.poolSize ≤ Config.poolMax)
    (hmix : ∀ g ∈ s.pool, 0 ≤ g.crossfadeMix ∧ g.crossfadeMix ≤ 1) (h : mixStep N s = .next t) :
    ∃ ys, List.Forall₂ (Grain.Yields N s.db) s.pool ys ∧ t.sample.toInt = ys.sum ∧
      t = { s with sample := t.sample, pool := s.pool.map (Grain.processed s.db.gl) } := by
  obtain ⟨_, _, hsum, _, rfl⟩ := mixStep_cases h
  obtain ⟨ys, hys, rfl, rfl⟩ := mixPool_yields hsum
  have hrange := sum_range_of_yields hN hmix hys
  unfold State.poolSize Config.poolMax at hsize
  exact ⟨ys, hys, BitVec.toInt_ofInt_eq_self (by decide) (by omega) (by omega), rfl⟩

/-- R206 for step 7. -/
theorem mixStep_sample_range (hN : N.Admissible) (hsize : s.poolSize ≤ Config.poolMax)
    (hmix : ∀ g ∈ s.pool, 0 ≤ g.crossfadeMix ∧ g.crossfadeMix ≤ 1) (h : mixStep N s = .next t) :
    -32768 * (s.poolSize : Int) ≤ t.sample.toInt ∧ t.sample.toInt ≤ 32767 * (s.poolSize : Int) := by
  obtain ⟨ys, hys, hsum, _⟩ := mixStep_yields hN hsize hmix h
  rw [hsum]
  exact sum_range_of_yields hN hmix hys

/-- R151, R152, R157: a tick that ends early emits 0. -/
theorem tick_sample_of_endsEarly {cmd : Command} (hends : s.tickRuns = false) (h : tick N cmd s = .next t) :
    t.sample = 0#32 := by
  rcases tick_cases h with ⟨_, rfl⟩ | ⟨_, _, _, rfl⟩ | ⟨hv, hgo, _⟩
  · rfl
  · rfl
  · exact absurd (hends.symm.trans (State.tickRuns_iff.mpr ⟨hv, hgo⟩)) (by decide)

end

/-- Settles O36: mixing goes slot by slot, and the sum of at most 65535 samples fits the output. -/
theorem mixIsTheExactSum : Obligations.MixIsTheExactSum :=
  fun _ _ hsize hmix h => mixStep_yields hardwareNumerics_admissible hsize hmix h

/-- Settles O37: a tick that runs reaches step 7 with R47 (a) kept for every slot; one that ends early emits 0. -/
theorem sampleStaysInRange : Obligations.SampleStaysInRange := by
  intro s t arg hinv h
  cases hruns : s.tickRuns with
  | false =>
    rw [tick_sample_of_endsEarly hruns h, BitVec.toInt_zero]
    omega
  | true =>
    obtain ⟨hv, _⟩ := State.tickRuns_iff.mp hruns
    obtain ⟨_, s2, s3, s4, s5, h2, h3, h4, h5, h7⟩ := tickActive_cases ((tick_of_runs hruns).symm.trans h)
    obtain ⟨i5, f5⟩ := stepsTwoToFive_keep (hinv.runInv_of_tickRuns hruns) hv h2 h3 h4 h5
    have hsize := (f5.trans (s5.timeStep_sameButTick hardwareNumerics)).poolSize
    have hrange := mixStep_sample_range hardwareNumerics_admissible (hsize.trans_le hinv.pool_size.2)
      (fun g hg => (Grain.ok_iff.mp (i5.timeStep.grains_ok g hg)).1) h7
    rwa [hsize] at hrange

/-! ### The crossfade over a run of step 6 -/

/-- R200 on this hardware: both clocks advance by one sample period. -/
theorem State.timeStep_clocks (s : State) :
    (s.timeStep hardwareNumerics).segmentTime = s.segmentTime + s.period ∧
      (s.timeStep hardwareNumerics).oldSegmentTime = s.oldSegmentTime + s.period := by
  rw [State.timeStep_eq]
  exact ⟨rfl, rfl⟩

/-- R202 on this hardware: the decay, clamped at 0. -/
theorem State.timeStep_crossfade (s : State) :
    (s.timeStep hardwareNumerics).crossfade = max 0 (s.crossfade + s.crossfadeRamp) := by
  rw [State.timeStep_eq, max_comm, max_def]
  rfl

/-- R202: the ramp is cleared where the weight is clamped, and stays otherwise. -/
theorem State.timeStep_ramp_cases (s : State) :
    (s.timeStep hardwareNumerics).crossfadeRamp = s.crossfadeRamp ∨
      ((s.timeStep hardwareNumerics).crossfade = 0 ∧ (s.timeStep hardwareNumerics).crossfadeRamp = 0) := by
  rw [State.timeStep_crossfade, State.timeStep_eq]
  by_cases hclamp : s.crossfade + s.crossfadeRamp ≤ 0
  · exact .inr ⟨max_eq_left hclamp, if_pos hclamp⟩
  · exact .inl (if_neg hclamp)

/-- The registers of step 6 after `k` performances from `s`. Once the weight is clamped the ramp is cleared, which no later weight
shows (43_envelope_mixer.md R202). -/
structure State.FadesTo (s : State) (k : Nat) (t : State) : Prop where
  inputs : t.inputs = s.inputs
  crossfade : t.crossfade = max 0 (s.crossfade + k * s.crossfadeRamp)
  ramp : t.crossfadeRamp = s.crossfadeRamp ∨ (t.crossfade = 0 ∧ t.crossfadeRamp = 0)
  segmentTime : t.segmentTime = s.segmentTime + k * s.period
  oldSegmentTime : t.oldSegmentTime = s.oldSegmentTime + k * s.period

section

variable {s t : State} {k : Nat}

theorem State.fadesTo_zero (hc : 0 ≤ s.crossfade) : s.FadesTo 0 s where
  inputs := rfl
  crossfade := by simp [hc]
  ramp := .inl rfl
  segmentTime := by simp
  oldSegmentTime := by simp

theorem State.FadesTo.period (h : s.FadesTo k t) : t.period = s.period := by
  rw [State.period, h.inputs, State.period]

/-- One step more of a register that moves by the same amount at every step. -/
theorem add_mul_add_self (start change : Rat) (k : Nat) :
    start + k * change + change = start + (k + 1 : Nat) * change := by
  push_cast
  ring

/-- R202: clamping at every step is clamping once, for the weight only falls. -/
theorem State.FadesTo.crossfade_add_ramp (h : s.FadesTo k t) (hr : s.crossfadeRamp ≤ 0) :
    max 0 (t.crossfade + t.crossfadeRamp) = max 0 (s.crossfade + (k + 1 : Nat) * s.crossfadeRamp) := by
  rw [← add_mul_add_self]
  have hc := h.crossfade
  rcases h.ramp with hramp | ⟨hzero, hramp⟩
  · rw [hc, hramp]
    rcases le_total 0 (s.crossfade + k * s.crossfadeRamp) with hpos | hneg
    · rw [max_eq_right hpos]
    · rw [max_eq_left hneg, max_eq_left (by linarith), max_eq_left (by linarith)]
  · have hneg : s.crossfade + k * s.crossfadeRamp ≤ 0 := max_eq_left_iff.mp (hc.symm.trans hzero)
    rw [hzero, hramp, max_eq_left (by norm_num), max_eq_left (by linarith)]

theorem State.FadesTo.succ (h : s.FadesTo k t) (hr : s.crossfadeRamp ≤ 0) :
    s.FadesTo (k + 1) (t.timeStep hardwareNumerics) where
  inputs := (t.timeStep_frame hardwareNumerics).2.trans h.inputs
  crossfade := t.timeStep_crossfade.trans (h.crossfade_add_ramp hr)
  ramp := by
    rcases t.timeStep_ramp_cases with hkept | hcleared
    · rcases h.ramp with hramp | ⟨hzero, hramp⟩
      · exact .inl (hkept.trans hramp)
      · exact .inr ⟨by rw [State.timeStep_crossfade, hzero, hramp]; norm_num, hkept.trans hramp⟩
    · exact .inr hcleared
  segmentTime := by
    obtain ⟨hclock, _⟩ := t.timeStep_clocks
    rw [hclock, h.segmentTime, h.period, add_mul_add_self]
  oldSegmentTime := by
    obtain ⟨_, hclock⟩ := t.timeStep_clocks
    rw [hclock, h.oldSegmentTime, h.period, add_mul_add_self]

theorem State.fadesTo_iterate (hc : 0 ≤ s.crossfade) (hr : s.crossfadeRamp ≤ 0) (k : Nat) :
    s.FadesTo k ((fun u : State => u.timeStep hardwareNumerics)^[k] s) := by
  induction k with
  | zero => exact State.fadesTo_zero hc
  | succ k ih =>
    rw [Function.iterate_succ_apply']
    exact ih.succ hr

end

/-- Settles O38: from weight 1 at the ramp `-1/(XL*FS)`, by induction on the performances. -/
theorem crossfadeFallsLinearly : Obligations.CrossfadeFallsLinearly := by
  intro s k _ hc hramp
  have hfall : s.crossfadeRamp ≤ 0 := hramp.trans_le s.fullRamp_nonpos
  have h := State.fadesTo_iterate (hc.ge.trans' zero_le_one) hfall k
  refine ⟨?_, ?_, ?_⟩
  · rw [h.crossfade, hc, hramp]
    ring_nf
  · rw [h.segmentTime, State.period, mul_one_div]
  · rw [h.oldSegmentTime, State.period, mul_one_div]

end Sys2Proof.Machine
end

section
/-! PROOFS. The control commands, exactly (44_control_commands.md R220 to R227): what each writes and reports, and, of all of them,
that they leave the datapath as it is and that SETFREQ commutes with the others (R228). -/

namespace Sys2Proof.Machine

/-! ### The conditions of the commands, as the spec says them -/

/-- R61: with `DBVALID = 0` the number of segments reads as 0. -/
theorem State.db_nseg (s : State) :
    (s.db.nseg : Int) = if s.inputs.db.valid = true then (s.inputs.db.nseg : Int) else 0 := by
  cases hv : s.inputs.db.valid with
  | true => rw [State.db_of_valid hv]; rfl
  | false => rw [State.db_of_invalid hv]; rfl

theorem State.queueFull_iff (s : State) : s.queueFull = true ↔ s.qdepth = some s.queue.length := by
  rw [State.queueFull_eq, decide_eq_true_iff]

/-- R33, R34: an edge counter is saturated at `2^32 - 1`. -/
theorem eq_allOnes_iff {n : BitVec 32} : n = BitVec.allOnes 32 ↔ n.toNat = 2 ^ 32 - 1 := by
  rw [← BitVec.toNat_inj, BitVec.toNat_allOnes]

/-! ### Each command -/

/-- Settles O42: this hardware stores the operand as it is. -/
theorem setfreqSetsFrequency : Obligations.SetfreqSetsFrequency := fun _ arg =>
  ⟨decode_encode (i := .setfreq arg) rfl, rfl⟩

/-- Settles O43: the range check and the capacity check, in R249's order, in the terms of the inputs and of `QDEPTH`. -/
theorem queueAppendsOrReports : Obligations.QueueAppendsOrReports := by
  intro s arg
  refine ⟨decode_encode (i := .queue arg) rfl, ?_⟩
  show execQueue arg s = _
  rw [execQueue, State.db_nseg]
  exact if_congr Iff.rfl rfl (if_congr s.queueFull_iff rfl rfl)

/-- Settles O44: the counter is saturated exactly at `2^32 - 1`. -/
theorem noteonCountsOneEdge : Obligations.NoteonCountsOneEdge := fun _ arg =>
  ⟨decode_encode (i := .noteon arg) rfl, if_congr eq_allOnes_iff rfl rfl⟩

/-- Settles O45: the counter is saturated exactly at `2^32 - 1`. -/
theorem noteoffCountsOneEdge : Obligations.NoteoffCountsOneEdge := fun _ arg =>
  ⟨decode_encode (i := .noteoff arg) rfl, if_congr eq_allOnes_iff rfl rfl⟩

/-- R224: `CLRERR` keeps a bit of `STATUS` unless its mask selects it. -/
theorem getLsbD_statusClear (status bits : BitVec 8) {k : Nat} (hk : k < 8) :
    (statusClear status bits).getLsbD k = (status.getLsbD k && !bits.getLsbD k) := by
  rw [statusClear, BitVec.getLsbD_and, BitVec.getLsbD_not, decide_eq_true hk, Bool.true_and]

/-- R111: the mask selects `STATUS[k]` by its bit `k`, for `k` from 0 to 5. -/
theorem getLsbD_maskStatusBits (arg : Arg) {k : Nat} (hk : k < 8) :
    (maskStatusBits (maskOperand arg)).getLsbD k = (decide (k < 6) && arg.getLsbD k) := by
  simp [maskStatusBits, maskOperand, hk]

/-- R111: the mask selects `LASTERR` by its bit 8. -/
theorem maskClearsLasterr_maskOperand (arg : Arg) : maskClearsLasterr (maskOperand arg) = arg.getLsbD 8 := by
  simp [maskClearsLasterr, maskOperand]

/-- Settles O46: `STATUS` loses the bits the mask selects. -/
theorem clrerrClearsSelectedFlags : Obligations.ClrerrClearsSelectedFlags := by
  intro s arg
  refine ⟨decode_encode (i := .clrerr arg) rfl, statusClear s.status (maskStatusBits (maskOperand arg)), ?_, fun k hk => ?_⟩
  · show execClrerr arg s = _
    rw [execClrerr, State.clearErrors_eq, maskClearsLasterr_maskOperand]
  · rw [getLsbD_statusClear _ _ hk, getLsbD_maskStatusBits arg hk]

/-- Settles O47: both are the report of `E_UNIMPL`, code 5. -/
theorem reservedExtensionsReport : Obligations.ReservedExtensionsReport := fun _ arg =>
  ⟨decode_encode (i := .setfshift arg) rfl, decode_encode (i := .setpspeed arg) rfl, rfl, rfl⟩

/-- Settles O48: every illegal word decodes to one of the five rows, and each of them is the report of `E_ILLCMD`, code 0. -/
theorem illegalWordsReport : Obligations.IllegalWordsReport := by
  intro s op arg
  constructor
  · intro h
    exact (congrArg (exec · s) (decode_mkCommand_of_unassigned h arg)).trans (exec_decodeIllegal op arg s)
  · simp only [List.forall_mem_cons]
    exact ⟨rfl, rfl, rfl, rfl, rfl, List.forall_mem_nil _⟩

/-! ### All control commands -/

/-- Settles O51: a control command raises an error, clears errors, or writes one of its four registers. -/
theorem controlCommandsLeaveTheDatapath : Obligations.ControlCommandsLeaveTheDatapath := by
  intro i s t hi h
  rcases exec_control_cases hi h with ⟨e, cmd, rfl⟩ | ⟨arg, rfl⟩ | ⟨arg, _, _, rfl⟩ | ⟨n, rfl⟩ | ⟨n, rfl⟩ | ⟨mask, rfl⟩
  · rfl
  · rfl
  · rfl
  · rfl
  · rfl
  · rw [State.clearErrors_eq]

theorem Result.andThen_ite {α β : Type} {c : Prop} [Decidable c] (r r' : Result α) (f : α → Result β) :
    Result.andThen (if c then r else r') f = if c then Result.andThen r f else Result.andThen r' f :=
  apply_ite (Result.andThen · f) c r r'

/-- R228: no control command but `SETFREQ` reads or writes `frequency`, so it answers alike whatever `frequency` is. -/
theorem exec_setFrequency {i : Instr} (htick : ∀ arg, i ≠ .tick arg) (hfreq : ∀ arg, i ≠ .setfreq arg) (s : State)
    (N : Numerics) (v : Rat) :
    exec i (s.setFrequency N v) = Result.andThen (exec i s) fun t => .next (t.setFrequency N v) := by
  cases i with
  | tick arg => exact absurd rfl (htick arg)
  | setfreq arg => exact absurd rfl (hfreq arg)
  | queue arg =>
    show execQueue arg (s.setFrequency N v) = Result.andThen (execQueue arg s) _
    rw [execQueue, execQueue, Result.andThen_ite, Result.andThen_ite]
    rfl
  | noteon arg =>
    show execNoteon arg (s.setFrequency N v) = Result.andThen (execNoteon arg s) _
    rw [execNoteon, execNoteon, Result.andThen_ite]
    rfl
  | noteoff arg =>
    show execNoteoff arg (s.setFrequency N v) = Result.andThen (execNoteoff arg s) _
    rw [execNoteoff, execNoteoff, Result.andThen_ite]
    rfl
  | clrerr arg =>
    show execClrerr arg (s.setFrequency N v) = Result.andThen (execClrerr arg s) _
    rw [execClrerr, execClrerr, State.clearErrors_eq, State.clearErrors_eq]
    rfl
  | setfshift | setpspeed | illegal80 | illegal40 | illegal20 | illegal10 | illegal08 => rfl

/-- Settles O52: the other command neither reads nor writes the register that `SETFREQ` writes. -/
theorem setfreqCommutes : Obligations.SetfreqCommutes := fun _ arg s htick hfreq =>
  exec_setFrequency htick hfreq s hardwareNumerics (freqOperand arg)

end Sys2Proof.Machine
end

section
/-! PROOFS. The error reports and the idle port (60_exceptions.md R241, R250): what a report writes, field by field, and the step
with nothing presented. -/

namespace Sys2Proof.Machine

/-- Settles O49: the bits of `STATUS` by the bits of `statusSet`, the fields of `LASTERR` by those of `lasterrRecord`, and the rest
of the state by the registers a report writes. -/
theorem raiseIsPrecise : Obligations.RaiseIsPrecise := fun s e cmd =>
  ⟨getLsbD_statusSet s.status e, lasterrValid_record e cmd, lasterrCode_record e cmd, lasterrCmd_record e cmd,
    s.raise_eq e cmd⟩

/-- Settles O55: a step on an empty port takes no input, whatever the instructions mean. -/
theorem nothingPresentedNothingHappens : Obligations.NothingPresentedNothingHappens := fun _ => stepBy_nil

end Sys2Proof.Machine
end

section
/-! PROOFS. Reset (70_reset_and_hazards.md R270, R272): what a block held in reset shows and does, what its release leaves, and
the silence after it until both a `NOTEON` and a `QUEUE` have been received. -/

namespace Sys2Proof.Machine

/-! ### What can be observed of a run -/

theorem observe_succ_of_next {s t : State} (k : Nat) (h : step s = .next t) :
    observe (k + 1) s = t.outputs :: observe k t := by
  rw [observe, h]

/-- A property that the first step establishes and every later step keeps: no step stops, and the outputs after each show what
the property says of them. -/
theorem observe_of_invariant {P : State → Prop} {Q : Outputs → Prop} (hstep : ∀ s, P s → ∃ t, step s = .next t ∧ P t)
    (hout : ∀ s, P s → Q s.outputs) {s : State} (hfirst : ∃ t, step s = .next t ∧ P t) (k : Nat) :
    (observe k s).length = k ∧ ∀ o ∈ observe k s, Q o := by
  induction k generalizing s with
  | zero => exact ⟨rfl, fun o ho => by cases ho⟩
  | succ k ih =>
    obtain ⟨t, ht, hP⟩ := hfirst
    obtain ⟨hlen, hall⟩ := ih (hstep t hP)
    rw [observe_succ_of_next k ht]
    exact ⟨congrArg Nat.succ hlen, List.forall_mem_cons.mpr ⟨hout t hP, hall⟩⟩

/-! ### `LIVE` and the first `TICK` after reset -/

theorem State.resetWith_grainsActive (pool : Nat) (qdepth : Option Nat) (inputs : ConfigInputs) :
    (State.resetWith pool qdepth inputs).grainsActive = false := by
  rw [← Bool.not_eq_true, State.grainsActive_iff]
  rintro ⟨g, hg, hactive⟩
  rw [List.eq_of_mem_replicate hg] at hactive
  cases hactive

/-- R272: `QEMPTY` is set, and `DBOK` as loaded; `QFULL` would be set too for a queue of capacity 0. -/
theorem State.resetWith_live (pool : Nat) {qdepth : Option Nat} (inputs : ConfigInputs) (hq : qdepth ≠ some 0) :
    (State.resetWith pool qdepth inputs).live = if inputs.db.valid then 0x22#8 else 0x02#8 := by
  have hfull : (State.resetWith pool qdepth inputs).queueFull = false := by
    rw [State.queueFull_eq]
    exact decide_eq_false hq
  rw [State.live, State.resetWith_grainsActive, hfull]
  cases hv : inputs.db.valid <;> simp [State.resetWith, State.isActive, hv]

/-- Settles O9: the engine is dormant after reset, and its output is 0 already. -/
theorem firstTickAfterResetIsSilent : Obligations.FirstTickAfterResetIsSilent := by
  intro pool qdepth inputs arg hq
  refine ⟨State.resetWith_live pool inputs hq, fun hv => ?_⟩
  exact (dormantTicksStaySilent (State.resetWith pool qdepth inputs) hv (toInt_eq_neg_one_iff.mpr rfl) rfl).1 arg

/-! ### The reset input -/

section

variable {s : State} {inputs : ConfigInputs}

theorem driveConfiguration_of_held (hr : s.resetAsserted = true) :
    driveConfiguration inputs s = .next (holdReset inputs s) := if_pos hr

theorem driveConfiguration_same (hr : s.resetAsserted = false) : driveConfiguration s.inputs s = .next s := by
  rw [driveConfiguration, if_neg (by simp [hr]), if_pos rfl]

theorem driveConfiguration_changed (hr : s.resetAsserted = false) (hne : inputs ≠ s.inputs) :
    driveConfiguration inputs s = .refused .configurationChanged := by
  rw [driveConfiguration, if_neg (by simp [hr]), if_neg hne]

theorem releaseReset_of_held (hr : s.resetAsserted = true) : releaseReset s = resetState s.inputs s := if_pos hr

theorem releaseReset_of_released (hr : s.resetAsserted = false) : releaseReset s = s := if_neg (by simp [hr])

end

/-- A state the block of `s` is in while it is held in reset: some inputs driven, something but a release to come. -/
def State.HeldIn (s t : State) : Prop :=
  ∃ inputs rest, Input.releaseReset ∉ rest ∧ t = holdReset inputs (s.setPort rest)

/-- R270: every input but a release leaves the block held in reset. -/
theorem State.HeldIn.step {s t : State} (h : s.HeldIn t) : ∃ u, Machine.step t = .next u ∧ s.HeldIn u := by
  obtain ⟨inputs, port, hnever, rfl⟩ := h
  cases port with
  | nil => exact ⟨_, stepBy_nil rfl, inputs, [], hnever, rfl⟩
  | cons x rest =>
    have hrest : Input.releaseReset ∉ rest := List.not_mem_of_not_mem_cons hnever
    have hagain : ∀ driven, holdReset driven ((holdReset inputs (s.setPort (x :: rest))).setPort rest) =
        holdReset driven (s.setPort rest) := fun driven => holdReset_holdReset driven inputs (s.setPort rest)
    cases x with
    | command w => exact ⟨_, stepBy_command_held rfl rfl, inputs, rest, hrest, rfl⟩
    | assertReset => exact ⟨_, stepBy_assertReset rfl, inputs, rest, hrest, hagain inputs⟩
    | configure driven =>
      exact ⟨_, (stepBy_configure rfl).trans (driveConfiguration_of_held rfl), driven, rest, hrest, hagain driven⟩
    | releaseReset => exact absurd List.mem_cons_self hnever

/-- R270, R272: the outputs while reset is asserted are those of the reset state. -/
theorem State.HeldIn.outputs {s t : State} (h : s.HeldIn t) :
    t.outputs.sampleOut = 0 ∧ t.outputs.status = 0 ∧ t.outputs.lasterr = 0 ∧
      (s.qdepth ≠ some 0 → t.outputs.live = 0x02#8 ∨ t.outputs.live = 0x22#8) := by
  obtain ⟨inputs, rest, _, rfl⟩ := h
  refine ⟨rfl, rfl, rfl, fun hq => ?_⟩
  have hlive : (holdReset inputs (s.setPort rest)).outputs.live = if inputs.db.valid then 0x22#8 else 0x02#8 :=
    State.resetWith_live s.poolSize inputs hq
  rw [hlive]
  split
  · exact .inr rfl
  · exact .inl rfl

/-- Settles O11: by the step on each input, reset asserted and not; a run held in reset keeps `State.HeldIn`. -/
theorem resetHoldsThenRestarts : Obligations.ResetHoldsThenRestarts := by
  refine ⟨fun s rest hp => stepBy_assertReset hp, fun s rest hr => ⟨fun w hp => ?_, fun inputs hp => ?_, fun hp => ?_⟩,
    fun s rest k hnever hp => ?_, fun s rest hr => ⟨fun hp => ?_, fun hp => ?_, fun inputs hne hp => ?_⟩⟩
  · exact stepBy_command_held hp hr
  · exact (stepBy_configure hp).trans (driveConfiguration_of_held hr)
  · exact (stepBy_releaseReset hp).trans (congrArg _ (releaseReset_of_held hr))
  · exact observe_of_invariant (fun _ => State.HeldIn.step) (fun _ => State.HeldIn.outputs)
      ⟨_, stepBy_assertReset hp, s.inputs, rest, hnever, rfl⟩ k
  · exact (stepBy_releaseReset hp).trans (congrArg _ (releaseReset_of_released hr))
  · exact (stepBy_configure hp).trans (driveConfiguration_same hr)
  · exact (stepBy_configure hp).trans (driveConfiguration_changed hr hne)

/-! ### Silence until both a `NOTEON` and a `QUEUE` -/

theorem opcodeOf_of_decode_noteon {w : Command} {arg : Arg} (h : decode w = .noteon arg) : opcodeOf w = 0x03#8 := by
  rw [← encode_decode w, h]
  exact opcodeOf_mkCommand 0x03#8 arg

theorem opcodeOf_of_decode_queue {w : Command} {arg : Arg} (h : decode w = .queue arg) : opcodeOf w = 0x02#8 := by
  rw [← encode_decode w, h]
  exact opcodeOf_mkCommand 0x02#8 arg

/-- What an instruction leaves as it was where ticks end early: only `NOTEON` counts a note-on, only `QUEUE` queues. -/
structure State.KeepsWaiting (s : State) (i : Instr) (t : State) : Prop where
  segment : t.segment = s.segment
  sample : s.sample = 0 → t.sample = 0
  noteOns : (∀ arg, i ≠ .noteon arg) → t.noteOns = s.noteOns
  queue : (∀ arg, i ≠ .queue arg) → t.queue = s.queue

theorem State.keepsWaiting_raise (s : State) (i : Instr) (e : ErrorCause) (cmd : Command) :
    s.KeepsWaiting i (s.raise e cmd) :=
  ⟨rfl, id, fun _ => rfl, fun _ => rfl⟩

/-- R151, R152, R157: where a tick would end early no instruction stops. -/
theorem exec_keepsWaiting {s : State} (hends : s.tickRuns = false) (i : Instr) :
    ∃ t, exec i s = .next t ∧ s.KeepsWaiting i t := by
  cases i with
  | tick arg =>
    cases hv : s.inputs.db.valid with
    | false => exact ⟨_, tick_of_noDatabase hv, rfl, fun _ => rfl, fun _ => rfl, fun _ => rfl⟩
    | true => exact ⟨_, tick_of_endsEarly hv hends, rfl, fun _ => rfl, fun _ => rfl, fun _ => rfl⟩
  | setfreq arg => exact ⟨_, rfl, rfl, id, fun _ => rfl, fun _ => rfl⟩
  | queue arg =>
    obtain ⟨t, ht⟩ := execQueue_completes arg s
    refine ⟨t, ht, ?_⟩
    rcases execQueue_cases ht with ⟨_, rfl⟩ | ⟨_, _, _, rfl⟩ | ⟨_, _, _, rfl⟩
    · exact s.keepsWaiting_raise _ _ _
    · exact s.keepsWaiting_raise _ _ _
    · exact ⟨rfl, id, fun _ => rfl, fun hi => absurd rfl (hi arg)⟩
  | noteon arg =>
    obtain ⟨t, ht⟩ := execNoteon_completes arg s
    refine ⟨t, ht, ?_⟩
    rcases execNoteon_cases ht with ⟨_, rfl⟩ | ⟨_, rfl⟩
    · exact s.keepsWaiting_raise _ _ _
    · exact ⟨rfl, id, fun hi => absurd rfl (hi arg), fun _ => rfl⟩
  | noteoff arg =>
    obtain ⟨t, ht⟩ := execNoteoff_completes arg s
    refine ⟨t, ht, ?_⟩
    rcases execNoteoff_cases ht with ⟨_, rfl⟩ | ⟨_, rfl⟩
    · exact s.keepsWaiting_raise _ _ _
    · exact ⟨rfl, id, fun _ => rfl, fun _ => rfl⟩
  | clrerr arg =>
    refine ⟨_, rfl, ?_⟩
    rw [State.clearErrors_eq]
    exact ⟨rfl, id, fun _ => rfl, fun _ => rfl⟩
  | setfshift | setpspeed | illegal80 | illegal40 | illegal20 | illegal10 | illegal08 =>
    exact ⟨_, rfl, s.keepsWaiting_raise _ _ _⟩

/-- R272: the block is idle and silent with the commands `ws` to come, and lacks a note-on or an entry, which none of them
brings. -/
structure State.WaitsThrough (s : State) (ws : List Command) : Prop where
  port : s.port = ws.map Input.command
  released : s.resetAsserted = false
  idle : s.segment = gapToken
  sample : s.sample = 0
  lacks : (s.noteOns = 0 ∧ ∀ w ∈ ws, opcodeOf w ≠ 0x03#8) ∨ (s.queue = [] ∧ ∀ w ∈ ws, opcodeOf w ≠ 0x02#8)

/-- R151, R152: a note-on or an entry is lacking, so a tick ends early. -/
theorem State.WaitsThrough.tickRuns_eq_false {s : State} {ws : List Command} (h : s.WaitsThrough ws) : s.tickRuns = false :=
  State.tickRuns_eq_false_iff.mpr (.inr ⟨h.idle, h.lacks.imp And.left And.left⟩)

/-- R272: each command leaves the block waiting, for it does not bring what is lacking. -/
theorem State.WaitsThrough.step {s : State} {ws : List Command} (h : s.WaitsThrough ws) :
    ∃ t, Machine.step s = .next t ∧ ∃ rest, t.WaitsThrough rest := by
  cases ws with
  | nil => exact ⟨s, stepBy_nil h.port, [], h⟩
  | cons w ws =>
    obtain ⟨t, ht, hkeeps⟩ := exec_keepsWaiting (s := s.setPort (ws.map Input.command)) h.tickRuns_eq_false (decode w)
    have hsetting := exec_sameSetting ht
    refine ⟨t, (stepBy_command h.port h.released).trans ht, ws, ?_⟩
    exact {
      port := hsetting.port
      released := hsetting.resetAsserted.trans h.released
      idle := hkeeps.segment.trans h.idle
      sample := hkeeps.sample h.sample
      lacks := h.lacks.imp
        (fun ⟨hon, hnone⟩ =>
          ⟨(hkeeps.noteOns fun _ hw => hnone w List.mem_cons_self (opcodeOf_of_decode_noteon hw)).trans hon,
            fun v hv => hnone v (List.mem_cons_of_mem w hv)⟩)
        (fun ⟨hq, hnone⟩ =>
          ⟨(hkeeps.queue fun _ hw => hnone w List.mem_cons_self (opcodeOf_of_decode_queue hw)).trans hq,
            fun v hv => hnone v (List.mem_cons_of_mem w hv)⟩) }

/-- R48: after reset both are lacking. -/
theorem State.resetWith_waitsThrough (pool : Nat) (qdepth : Option Nat) (inputs : ConfigInputs) {ws : List Command}
    (h : (∀ w ∈ ws, opcodeOf w ≠ 0x03#8) ∨ (∀ w ∈ ws, opcodeOf w ≠ 0x02#8)) :
    ((State.resetWith pool qdepth inputs).present ws).WaitsThrough ws where
  port := rfl
  released := rfl
  idle := rfl
  sample := rfl
  lacks := h.imp (fun hnone => ⟨rfl, hnone⟩) fun hnone => ⟨rfl, hnone⟩

/-- Settles O10: the reset state waits through the commands presented, every step keeps that, and a waiting block is silent. -/
theorem silentUntilNoteonAndQueue : Obligations.SilentUntilNoteonAndQueue := by
  intro pool qdepth inputs ws k h
  exact observe_of_invariant (P := fun s => ∃ rest, s.WaitsThrough rest) (Q := fun o => o.sampleOut = 0)
    (fun _ ⟨_, hs⟩ => hs.step) (fun _ ⟨_, hs⟩ => hs.sample) (State.resetWith_waitsThrough pool qdepth inputs h).step k

end Sys2Proof.Machine
end

section
/-! PROOFS. The words of the test vectors (95_test_vectors.md 3.1): a word decodes to the well-formed instruction it encodes. -/

namespace Sys2Proof.Machine

/-- R104: `decode_encode` for a word given as a number. -/
theorem decode_eq_of_encode_eq {i : Instr} {w : Command} (hi : i.wellFormed = true) (hw : encode i = w) : decode w = i :=
  hw ▸ decode_encode hi

/-- Settles O5: each word is the encoding of the well-formed instruction the spec gives for it. -/
theorem specWordsDecode : Obligations.SpecWordsDecode :=
  ⟨decode_eq_of_encode_eq rfl rfl, decode_eq_of_encode_eq rfl rfl, decode_eq_of_encode_eq rfl rfl,
    decode_eq_of_encode_eq rfl rfl, decode_eq_of_encode_eq rfl rfl, decode_eq_of_encode_eq rfl rfl,
    decode_eq_of_encode_eq rfl rfl, decode_eq_of_encode_eq rfl rfl,
    decode_eq_of_encode_eq rfl rfl, decode_eq_of_encode_eq rfl rfl⟩

end Sys2Proof.Machine
end
